-- ==== Sys2Proof/Word.lean ====
section
/-! DEFINITION. The words of the two ports, the bytes of the slot, the pointer registers and the two ports.

All values of the spec are unsigned and bit 0 is the least significant bit (00_scope R9). -/

namespace Sys2Proof

/-- A command word `CMD[15:0]` (30_encoding R70). -/
abbrev Word := BitVec 16

/-- A byte of the slot, a `HI` or `LO` result byte, `WCNT`, `C_LEN`. -/
abbrev Byte := BitVec 8

/-- A response word `RSP[31:0]` (30_encoding R80). -/
abbrev Response := BitVec 32

/-- A pointer or synchroniser stage: `PTR_W` bits, `1 ≤ PTR_W ≤ 8` (00_scope R7), held in the widest of those widths
with the bits above `PTR_W` zero (log 2). -/
abbrev Ptr := BitVec 8

/-- The two ports, each in its own clock domain (00_scope R3, R16). -/
inductive Port where
  | p   -- the producer port, domain P
  | c   -- the consumer port, domain C
  deriving DecidableEq, Repr

end Sys2Proof
end

