-- ==== Sys2Proof/Config.lean ====
section
/-! DEFINITION. What a build of the block fixes: the parameters of 00_scope R7 and their ranges, and the one free value. -/

namespace Sys2Proof

/-- How the two ports are clocked: it decides which synchroniser depths are allowed (00_scope R7, 70_reset_and_hazards R251). -/
inductive Clocking where
  | oneClock       -- both ports share one clock: every `S` is allowed, 0 included
  | asynchronous   -- two clocks: `S ≥ 2`
  deriving DecidableEq, Repr

/-- The parameters of the build (00_scope R7). A state carries them and no step writes them (10_state R24, log 1). -/
structure Config where
  maxPayload : Nat        -- `MAX_PAYLOAD`
  ptrW       : Nat        -- `PTR_W`
  stages     : Nat        -- `S`
  clocking   : Clocking
  deriving DecidableEq, Repr

/-- `CAP`, fixed at one slot (00_scope R7). -/
def Config.cap : Nat := 1

/-- `HDR_BYTES` (00_scope R7). -/
def Config.hdrBytes : Nat := 2

/-- `SLOT_BYTES = HDR_BYTES + MAX_PAYLOAD` (00_scope R7). -/
def Config.slotBytes (c : Config) : Nat := Config.hdrBytes + c.maxPayload

/-- `MAX_PAYLOAD` as a response byte; exact for every payload capacity R7 allows. -/
def Config.capacity (c : Config) : Byte := BitVec.ofNat 8 c.maxPayload

/-- The ranges of 00_scope R7 and 70_reset_and_hazards R251. -/
abbrev Config.Valid (c : Config) : Prop :=
  1 ≤ c.maxPayload ∧ c.maxPayload ≤ 255 ∧ 1 ≤ c.ptrW ∧ c.ptrW ≤ 8 ∧ (c.clocking = .asynchronous → 2 ≤ c.stages)

/-- The default build of 00_scope R7: `MAX_PAYLOAD` = 27, `PTR_W` = 1, `S` = 2. Two clocks, since that is the form the
scope names (DESIGN CHOICE, log 1). -/
def Config.default : Config := { maxPayload := 27, ptrW := 1, stages := 2, clocking := .asynchronous }

/-- FREE VALUE (log 8): what `P_SPACE` answers when `WCNT` exceeds `MAX_PAYLOAD`. The spec gives `MAX_PAYLOAD - WCNT` and
says it is never negative (41_producer R124), so it states no value there; no run from reset reaches such a state. -/
opaque Config.spaceBeyond : Config → Byte → Byte

end Sys2Proof
end

