-- ==== Sys2Proof/Syntax.lean ====
section
/-! DEFINITION. The twelve commands, one constructor per row of spec/opcode_table.json (30_encoding R78). Operands are
unsigned and have exactly the widths of 30_encoding R77. -/

namespace Sys2Proof

/-- A command with its operands. Producer commands first, then consumer commands, in opcode order. -/
inductive Instr where
  | pFree                        -- `P_FREE`
  | pBegin (n : BitVec 8)        -- `P_BEGIN n`: requested payload size
  | pWrite (b : BitVec 8)        -- `P_WRITE b`: payload byte
  | pSpace                       -- `P_SPACE`
  | pCommit (llid : BitVec 2)    -- `P_COMMIT llid`: link-id tag
  | pCancel                      -- `P_CANCEL`
  | pStat                        -- `P_STAT`
  | cHasdata                     -- `C_HASDATA`
  | cPeek                        -- `C_PEEK`
  | cRead (i : BitVec 8)         -- `C_READ i`: payload offset
  | cRelease (f : Bool)          -- `C_RELEASE f`: consume flag, `true` removes the slot
  | cStat                        -- `C_STAT`
  deriving DecidableEq, Repr

/-- The port a command is legal at (30_encoding R72, R78). -/
def Instr.port : Instr → Port
  | .pFree => .p
  | .pBegin _ => .p
  | .pWrite _ => .p
  | .pSpace => .p
  | .pCommit _ => .p
  | .pCancel => .p
  | .pStat => .p
  | .cHasdata => .c
  | .cPeek => .c
  | .cRead _ => .c
  | .cRelease _ => .c
  | .cStat => .c

/-- The command a faulted port still executes: its own status command (41_producer R120, 42_consumer R150). -/
def Instr.isStatus : Instr → Bool
  | .pFree => false
  | .pBegin _ => false
  | .pWrite _ => false
  | .pSpace => false
  | .pCommit _ => false
  | .pCancel => false
  | .pStat => true
  | .cHasdata => false
  | .cPeek => false
  | .cRead _ => false
  | .cRelease _ => false
  | .cStat => true

end Sys2Proof
end

