-- ==== Sys2Proof/WellFormed.lean ====
section
/-! DEFINITION. Which written commands are commands: the operand ranges of 30_encoding R84. An operand out of range "is an
assembly error, not an encoding", so a written command has numbers of any size, and the check says which of them denote a
command of `Instr`. -/

namespace Sys2Proof

/-- A command as it is written, its operand a number of any size (30_encoding R84). -/
inductive Term where
  | pFree
  | pBegin (n : Nat)
  | pWrite (b : Nat)
  | pSpace
  | pCommit (llid : Nat)
  | pCancel
  | pStat
  | cHasdata
  | cPeek
  | cRead (i : Nat)
  | cRelease (f : Nat)
  | cStat
  deriving DecidableEq, Repr

/-- "`n`, `b` and `i` must lie in `0 .. 255`, `llid` in `0 .. 3`, and `f` in `0 .. 1`" (30_encoding R84). -/
def Term.wf : Term → Bool
  | .pFree => true
  | .pBegin n => n < 256
  | .pWrite b => b < 256
  | .pSpace => true
  | .pCommit llid => llid < 4
  | .pCancel => true
  | .pStat => true
  | .cHasdata => true
  | .cPeek => true
  | .cRead i => i < 256
  | .cRelease f => f < 2
  | .cStat => true

/-- The command a written command denotes, its operand cut to the operand's width. -/
def Term.cut : Term → Instr
  | .pFree => .pFree
  | .pBegin n => .pBegin (BitVec.ofNat 8 n)
  | .pWrite b => .pWrite (BitVec.ofNat 8 b)
  | .pSpace => .pSpace
  | .pCommit llid => .pCommit (BitVec.ofNat 2 llid)
  | .pCancel => .pCancel
  | .pStat => .pStat
  | .cHasdata => .cHasdata
  | .cPeek => .cPeek
  | .cRead i => .cRead (BitVec.ofNat 8 i)
  | .cRelease f => .cRelease (f == 1)
  | .cStat => .cStat

/-- The command of a well-formed written command; an ill-formed one denotes none. -/
def Term.toInstr (t : Term) : Option Instr := if t.wf then some t.cut else none

/-- The written form of a command. -/
def Instr.term : Instr → Term
  | .pFree => .pFree
  | .pBegin n => .pBegin n.toNat
  | .pWrite b => .pWrite b.toNat
  | .pSpace => .pSpace
  | .pCommit llid => .pCommit llid.toNat
  | .pCancel => .pCancel
  | .pStat => .pStat
  | .cHasdata => .cHasdata
  | .cPeek => .cPeek
  | .cRead i => .cRead i.toNat
  | .cRelease f => .cRelease f.toNat
  | .cStat => .cStat

/-- Well-formedness of a command: its written form passes the range check. `Instr`'s operands have exactly the widths of
R77, so every command is well formed (`Laws.instr_wf`). -/
def Instr.wf (i : Instr) : Bool := i.term.wf

end Sys2Proof
end

