-- ==== Sys2Proof/Decode.lean ====
section
/-! DEFINITION. The decoder of a port, total on all 65536 words at each port (30_encoding R79, R83), rejecting by name,
and the encoder, written from the same opcode map (30_encoding R73 to R78). -/

namespace Sys2Proof

/-- The four formats of 30_encoding R73 to R76. -/
inductive Format where
  | n   -- no operand
  | i   -- byte operand in `CMD[7:0]`
  | l   -- link-id operand in `CMD[9:8]`
  | f   -- flag operand in `CMD[8]`
  deriving DecidableEq, Repr

/-- The twelve opcodes of 30_encoding R78. -/
inductive Opcode where
  | pFree | pBegin | pWrite | pSpace | pCommit | pCancel | pStat
  | cHasdata | cPeek | cRead | cRelease | cStat
  deriving DecidableEq, Repr

/-- Why a word is illegal at a port (30_encoding R79 (a), (b), (c)). -/
inductive Illegal where
  | reservedOp     -- (a) its `OP` is reserved
  | wrongPort      -- (b) its `OP` belongs to the other port
  | reservedBits   -- (c) `(CMD & mask) ≠ match`: a reserved bit is 1
  deriving DecidableEq, Repr

/-- The reserved bits of a format are the ones of its mask below `OP`: `CMD & mask` must equal `OP << 12`
(30_encoding R73 to R76). -/
def Format.mask : Format → Word
  | .n => 0xFFFF#16
  | .i => 0xFF00#16
  | .l => 0xFCFF#16
  | .f => 0xFEFF#16

/-- The `OP` column of 30_encoding R78. -/
def Opcode.op : Opcode → BitVec 4
  | .pFree => 0x1#4
  | .pBegin => 0x2#4
  | .pWrite => 0x3#4
  | .pSpace => 0x4#4
  | .pCommit => 0x5#4
  | .pCancel => 0x6#4
  | .pStat => 0x7#4
  | .cHasdata => 0x9#4
  | .cPeek => 0xA#4
  | .cRead => 0xB#4
  | .cRelease => 0xC#4
  | .cStat => 0xD#4

/-- The format column of 30_encoding R78. -/
def Opcode.format : Opcode → Format
  | .pFree => .n
  | .pBegin => .i
  | .pWrite => .i
  | .pSpace => .n
  | .pCommit => .l
  | .pCancel => .n
  | .pStat => .n
  | .cHasdata => .n
  | .cPeek => .n
  | .cRead => .i
  | .cRelease => .f
  | .cStat => .n

/-- The port column of 30_encoding R78. -/
def Opcode.port : Opcode → Port
  | .pFree => .p
  | .pBegin => .p
  | .pWrite => .p
  | .pSpace => .p
  | .pCommit => .p
  | .pCancel => .p
  | .pStat => .p
  | .cHasdata => .c
  | .cPeek => .c
  | .cRead => .c
  | .cRelease => .c
  | .cStat => .c

/-- The match column of 30_encoding R78: `OP << 12`. -/
def Opcode.pattern (o : Opcode) : Word := o.op ++ 0#12

/-- The mask column of 30_encoding R78. -/
def Opcode.mask (o : Opcode) : Word := o.format.mask

/-- The opcode of an `OP` field; `0x0`, `0x8`, `0xE` and `0xF` are reserved at both ports (30_encoding R72). -/
def opcodeOf (op : BitVec 4) : Option Opcode :=
  match op.toNat with
  | 0x1 => some .pFree
  | 0x2 => some .pBegin
  | 0x3 => some .pWrite
  | 0x4 => some .pSpace
  | 0x5 => some .pCommit
  | 0x6 => some .pCancel
  | 0x7 => some .pStat
  | 0x9 => some .cHasdata
  | 0xA => some .cPeek
  | 0xB => some .cRead
  | 0xC => some .cRelease
  | 0xD => some .cStat
  | _ => none

/-- `OP = CMD[15:12]` (30_encoding R70). -/
def opField (w : Word) : BitVec 4 := w.extractLsb' 12 4

/-- `IMM8 = CMD[7:0]` (30_encoding R70, R77). -/
def imm8 (w : Word) : BitVec 8 := w.extractLsb' 0 8

/-- `LLID = CMD[9:8]` (30_encoding R75, R77). -/
def llidField (w : Word) : BitVec 2 := w.extractLsb' 8 2

/-- `F = CMD[8]` (30_encoding R76, R77). -/
def flagField (w : Word) : Bool := w.getLsbD 8

/-- Operand assembly (30_encoding R77): the command of an opcode with the operands its format takes from the word. -/
def assembleOperands (o : Opcode) (w : Word) : Instr :=
  match o with
  | .pFree => .pFree
  | .pBegin => .pBegin (imm8 w)
  | .pWrite => .pWrite (imm8 w)
  | .pSpace => .pSpace
  | .pCommit => .pCommit (llidField w)
  | .pCancel => .pCancel
  | .pStat => .pStat
  | .cHasdata => .cHasdata
  | .cPeek => .cPeek
  | .cRead => .cRead (imm8 w)
  | .cRelease => .cRelease (flagField w)
  | .cStat => .cStat

/-- `decode(CMD, port)` of 30_encoding R79: a command legal at that port, or why the word is illegal there. -/
def decode (port : Port) (w : Word) : Except Illegal Instr :=
  match opcodeOf (opField w) with
  | none => .error .reservedOp
  | some o =>
    if o.port ≠ port then .error .wrongPort
    else if w &&& o.mask ≠ o.pattern then .error .reservedBits
    else .ok (assembleOperands o w)

/-- The opcode of a command. -/
def Instr.opcode : Instr → Opcode
  | .pFree => .pFree
  | .pBegin _ => .pBegin
  | .pWrite _ => .pWrite
  | .pSpace => .pSpace
  | .pCommit _ => .pCommit
  | .pCancel => .pCancel
  | .pStat => .pStat
  | .cHasdata => .cHasdata
  | .cPeek => .cPeek
  | .cRead _ => .cRead
  | .cRelease _ => .cRelease
  | .cStat => .cStat

/-- The twelve bits below `OP`, by format (30_encoding R73 to R76). -/
def Instr.operandBits : Instr → BitVec 12
  | .pFree => 0#12
  | .pBegin n => 0#4 ++ n
  | .pWrite b => 0#4 ++ b
  | .pSpace => 0#12
  | .pCommit llid => 0#2 ++ llid ++ 0#8
  | .pCancel => 0#12
  | .pStat => 0#12
  | .cHasdata => 0#12
  | .cPeek => 0#12
  | .cRead i => 0#4 ++ i
  | .cRelease f => 0#3 ++ BitVec.ofBool f ++ 0#8
  | .cStat => 0#12

/-- The word of a command (30_encoding R73 to R78). -/
def encode (i : Instr) : Word := i.opcode.op ++ i.operandBits

/-- The port a word is meant for, by the top bit of `OP`: `0x1` to `0x7` are producer opcodes and `0x9` to `0xD` consumer
opcodes (30_encoding R72). A word with a reserved `OP` is illegal at both ports, and this picks the one of its half. -/
def wordPort (w : Word) : Port := if w.msb then .c else .p

/-- What the decoder of its port reads from a row's word of `nbits` bits, all rows being 16 bits wide
(30_encoding R72, R82). The bits above `nbits` are 0. -/
def decodeTableWord (nbits w : Nat) : Option Instr :=
  let cmd : Word := BitVec.ofNat 16 (w % 2 ^ nbits)
  match decode (wordPort cmd) cmd with
  | .ok i => some i
  | .error _ => none

end Sys2Proof
end

