-- ==== Sys2Proof/Machine/State.lean ====
section
/-! DEFINITION. The state of the block (10_state), the two hosts' command streams beside it, the schedule, and the state
after reset. -/

namespace Sys2Proof.Machine

/-- Why a step stops. Neither is one of the hardware fault codes of 60_exceptions R204: those are recorded in `P_FAULT` or
`C_FAULT` and the machine goes on. -/
inductive Fault where
  /-- A `C_PEEK` or `C_READ` of a slot byte that holds no value: the model-only reason of 20_memory R66. Raised by
  `withByte`. Safe: no run from reset reaches it. -/
  | unwrittenRead
  /-- An access outside `SLOT[0..SLOT_BYTES-1]`, which 20_memory R53 says cannot be expressed. Raised by `withByte` and
  `storing`, in states no run from reset reaches. Safe. -/
  | noSlotByte
  deriving DecidableEq, Repr

/-- Why an instruction is not run. -/
inductive Refusal where
  /-- An instruction without a meaning. No arm of `exec` gives it. Safe. -/
  | notModelled (mnemonic : String)
  deriving DecidableEq, Repr

/-- The four agents (10_state R20). -/
inductive Agent where
  | portP   -- executes one command of host P
  | portC   -- executes one command of host C
  | syncW   -- shifts `WQ` one stage
  | syncR   -- shifts `RQ` one stage
  deriving DecidableEq, Repr

/-- A host as 10_state R23 represents it: a list of command words and an index into it, and the responses it has received,
oldest first (30_encoding R71, 70_reset_and_hazards R250). -/
structure HostStream where
  cmds : List Word
  idx  : Nat
  rsps : List Response
  deriving DecidableEq, Repr

/-- Slot storage as a list of written bytes. A byte not listed holds no value (10_state R35). -/
abbrev Memory := List Host.Cell

/-- Everything the block holds, in the order of 10_state R40, then the inputs of a run. -/
structure State where
  -- the build
  cfg    : Config            -- `MAX_PAYLOAD`, `PTR_W`, `S` (00_scope R7); no step writes it
  -- domain P
  wptr   : Ptr               -- `WPTR` (R25)
  rq     : List Ptr          -- `RQ[1..S]` (R26), `RQ[1]` first
  pAct   : Bool              -- `P_ACT` (R27)
  wcnt   : Byte              -- `WCNT` (R28)
  pFault : BitVec 3          -- `P_FAULT` (R29)
  -- domain C
  rptr   : Ptr               -- `RPTR` (R30)
  wq     : List Ptr          -- `WQ[1..S]` (R31), `WQ[1]` first
  cAct   : Bool              -- `C_ACT` (R32)
  cLen   : Byte              -- `C_LEN` (R33)
  cFault : BitVec 3          -- `C_FAULT` (R34)
  -- shared storage
  slot   : Memory            -- `SLOT` (R35)
  -- inputs of a run (R23, R24) and what the hosts received
  hostP  : HostStream
  hostC  : HostStream
  sched  : List Agent        -- the agents still to step, next first (43_cdc_sync R195)
  deriving DecidableEq, Repr

/-- The three outcomes of a meaning. -/
abbrev Result := Host.Outcome State Fault Refusal

/-- A host that drives nothing. -/
def HostStream.silent : HostStream := { cmds := [], idx := 0, rsps := [] }

/-- The reset state of a build: the table of 10_state R40, with no command presented and nothing scheduled. -/
def State.resetOf (c : Config) : State :=
  { cfg := c
    wptr := 0#8, rq := List.replicate c.stages 0#8, pAct := false, wcnt := 0#8, pFault := 0#3
    rptr := 0#8, wq := List.replicate c.stages 0#8, cAct := false, cLen := 0#8, cFault := 0#3
    slot := []
    hostP := HostStream.silent, hostC := HostStream.silent, sched := [] }

/-- The machine right after reset, in the default build (10_state R40, 70_reset_and_hazards R230). -/
def State.reset : State := State.resetOf Config.default

end Sys2Proof.Machine
end

