-- ==== Sys2Proof/Machine/Ops.lean ====
section
/-! DEFINITION. The named operations over the slot storage, the ports, the hosts and the schedule: the one place where a
byte is read or written, a response is given and a fault is recorded. -/

namespace Sys2Proof.Machine

/-! ## Slot storage -/

/-- The canonical form: addresses strictly rising. An unlisted address holds no value, so no listed byte equals what an
unlisted one reads as. -/
abbrev Memory.wf (m : Memory) : Prop := m.Pairwise (fun x y => x.1 < y.1)

/-- The value a byte holds, if it holds one (10_state R35). -/
def memGet (m : Memory) (a : Nat) : Option Byte :=
  match m with
  | [] => none
  | (b, v) :: rest => if b = a then some v else memGet rest a

/-- The storage with one byte given a value, in canonical form. -/
def memPut (m : Memory) (a : Nat) (v : Byte) : Memory :=
  match m with
  | [] => [(a, v)]
  | (b, u) :: rest =>
    if a < b then (a, v) :: (b, u) :: rest
    else if a = b then (a, v) :: rest
    else (b, u) :: memPut rest a v

/-- `MemRead(a, 1)` (00_scope R10) and what follows it: a byte with no value is `UnwrittenRead` (20_memory R66). -/
def withByte (s : State) (a : Nat) (k : Byte → Result) : Result :=
  if a < s.cfg.slotBytes then
    match memGet s.slot a with
    | some v => k v
    | none => .fault .unwrittenRead
  else .fault .noSlotByte

/-- `MemWrite(a, 1, v)` (00_scope R10) and what follows it. -/
def storing (s : State) (a : Nat) (v : Byte) (k : State → Result) : Result :=
  if a < s.cfg.slotBytes then k { s with slot := memPut s.slot a v } else .fault .noSlotByte

/-! ## Responses and faults of a port -/

/-- The response codes of 60_exceptions R200. -/
inductive RespCode where
  | ok | endOfCapacity | endOfData | writerFull | readBounds | malformedLength | fault
  deriving DecidableEq, Repr

/-- The `RC` column of 60_exceptions R200; the codes `0x6` to `0xD` and `0xF` are never produced. -/
def RespCode.code : RespCode → BitVec 4
  | .ok => 0x0#4
  | .endOfCapacity => 0x1#4
  | .endOfData => 0x2#4
  | .writerFull => 0x3#4
  | .readBounds => 0x4#4
  | .malformedLength => 0x5#4
  | .fault => 0xE#4

/-- The fault codes of 60_exceptions R204 but `NONE`. -/
inductive FaultCode where
  | capExceeded | invEnqueue | invDequeue | protocol | illegal
  deriving DecidableEq, Repr

/-- The code column of 60_exceptions R204; 6 and 7 are never recorded. -/
def FaultCode.code : FaultCode → BitVec 3
  | .capExceeded => 1#3
  | .invEnqueue => 2#3
  | .invDequeue => 3#3
  | .protocol => 4#3
  | .illegal => 5#3

/-- The response word `{RC, 0[11:0], HI, LO}` (00_scope R11, 30_encoding R80). -/
def respWord (rc : RespCode) (hi lo : Byte) : Response := rc.code ++ 0#12 ++ hi ++ lo

/-- A host with one more response. -/
def HostStream.receive (h : HostStream) (r : Response) : HostStream := { h with rsps := h.rsps ++ [r] }

/-- `respond(RC, HI, LO)` on the port that received the command (00_scope R11). -/
def respond (port : Port) (rc : RespCode) (hi lo : Byte) (s : State) : State :=
  match port with
  | .p => { s with hostP := s.hostP.receive (respWord rc hi lo) }
  | .c => { s with hostC := s.hostC.receive (respWord rc hi lo) }

/-- The fault field of a port: `P_FAULT` or `C_FAULT`. -/
def portFault (port : Port) (s : State) : BitVec 3 :=
  match port with
  | .p => s.pFault
  | .c => s.cFault

/-- `if X_FAULT = 0: X_FAULT <- code` (60_exceptions R205): the first fault's code is kept. -/
def recordFault (port : Port) (code : FaultCode) (s : State) : State :=
  if portFault port s = 0#3 then
    match port with
    | .p => { s with pFault := code.code }
    | .c => { s with cFault := code.code }
  else s

/-- `raise Fault(code)` (00_scope R11, 60_exceptions R205, R211): it records the code, changes nothing else, and answers
`FAULT`. This is the block's whole fault entry; there is no vector, no handler and no return (R211, R212). -/
def raiseFault (port : Port) (code : FaultCode) (s : State) : Result :=
  .next (respond port .fault 0#8 0#8 (recordFault port code s))

/-- The second line of the common step (41_producer R120, 42_consumer R150): a faulted port answers `FAULT` and changes
nothing. The status commands do not pass through here. -/
def unlessFaulted (port : Port) (s : State) (body : Result) : Result :=
  if portFault port s ≠ 0#3 then .next (respond port .fault 0#8 0#8 s) else body

/-! ## Hosts and schedule -/

/-- What a host presents on a port. -/
def hostOf (port : Port) (s : State) : HostStream :=
  match port with
  | .p => s.hostP
  | .c => s.hostC

/-- The next word a host presents on a port (10_state R23). -/
def presented (port : Port) (s : State) : Option Word := (hostOf port s).cmds[(hostOf port s).idx]?

/-- The host's index moves past the word its port takes, "whatever the response" (10_state R23). -/
def advance (port : Port) (s : State) : State :=
  match port with
  | .p => { s with hostP := { s.hostP with idx := s.hostP.idx + 1 } }
  | .c => { s with hostC := { s.hostC with idx := s.hostC.idx + 1 } }

/-- A stream whose word at the index is `w`, the words before it kept. -/
def HostStream.withNext (h : HostStream) (w : Word) : HostStream :=
  { h with cmds := h.cmds.take h.idx ++ w :: h.cmds.drop (h.idx + 1), idx := min h.idx h.cmds.length }

/-- A host presents `w` on a port and that port is scheduled to step next (30_encoding R86). -/
def present (port : Port) (w : Word) (s : State) : State :=
  match port with
  | .p => { s with hostP := s.hostP.withNext w, sched := .portP :: s.sched }
  | .c => { s with hostC := s.hostC.withNext w, sched := .portC :: s.sched }

/-- Two command streams and a schedule are loaded into the reset state of a build: the start of a run
(30_encoding R86, 70_reset_and_hazards R251). -/
def launch (c : Config) (ps cs : List Word) (sched : List Agent) : State :=
  { State.resetOf c with
    hostP := { HostStream.silent with cmds := ps }
    hostC := { HostStream.silent with cmds := cs }
    sched := sched }

/-- Reset is asserted to the whole block (70_reset_and_hazards R230, R232): every register of 10_state R40 takes its reset
value in one event, with no response on either port. The hosts and the schedule are outside the block and stay. It is no
move of a run: R230 applies reset only as the initial state of one. -/
def applyReset (s : State) : State :=
  { State.resetOf s.cfg with hostP := s.hostP, hostC := s.hostC, sched := s.sched }

end Sys2Proof.Machine
end

