-- ==== Sys2Proof/Machine/Operands.lean ====
section
/-! DEFINITION. What the commands compute their results from: the header codec (40_codec_split), the payload addresses and
the writer's remaining space. -/

namespace Sys2Proof.Machine

/-- A header `{llid, payload_length}` (40_codec_split R100). -/
structure Header where
  llid   : BitVec 2
  length : Byte
  deriving DecidableEq, Repr

/-- `encode(llid, len) -> (h0, h1)`: the tag byte, bits 7:2 zero, then the length byte (40_codec_split R101). -/
def encodeHeader (llid : BitVec 2) (len : Byte) : Byte × Byte := (llid.setWidth 8, len)

/-- `decode(h0, h1)`: bits 7:2 of `h0` are ignored and the length is not checked (40_codec_split R102, R104). -/
def decodeHeader (h0 h1 : Byte) : Header := { llid := h0.setWidth 2, length := h1 }

/-- The address of payload byte `i`: the payload region follows the two header bytes (20_memory R51). -/
def payloadAddr (i : Byte) : Nat := Config.hdrBytes + i.toNat

/-- Whether the writer is at its bound: `WCNT = MAX_PAYLOAD` (41_producer R123). -/
def writerFull (s : State) : Bool := decide (s.wcnt.toNat = s.cfg.maxPayload)

/-- The writer's remaining capacity `MAX_PAYLOAD - WCNT` (41_producer R124). R124 says it is never negative, so where
`WCNT` exceeds `MAX_PAYLOAD` the value is free (log 8). -/
def spaceLeft (s : State) : Byte :=
  if s.wcnt.toNat ≤ s.cfg.maxPayload then s.cfg.capacity - s.wcnt else Config.spaceBeyond s.cfg s.wcnt

end Sys2Proof.Machine
end

