-- ==== Sys2Proof/Machine/Flags.lean ====
section
/-! DEFINITION. The Gray code of the pointers, the synchronised views, the two arbitration flags, the status registers and
the level outputs (10_state R36 to R39, 43_cdc_sync R180 to R187). -/

namespace Sys2Proof.Machine

/-- The low `w` bits: `mod 2^PTR_W` (00_scope R9). -/
def ptrMask (w : Nat) : Ptr := BitVec.ofNat 8 (2 ^ w - 1)

/-- `b2g(b) = b ^ (b >> 1)` (43_cdc_sync R180). -/
def b2g (b : Ptr) : Ptr := b ^^^ (b >>> 1)

/-- `g2b(g)`: the exclusive or of `g >> j` for `j` = 0 to `PTR_W - 1` (43_cdc_sync R181). -/
def g2b (w : Nat) (g : Ptr) : Ptr :=
  match w with
  | 0 => 0#8
  | j + 1 => g2b j g ^^^ (g >>> j)

/-- `inc(g) = b2g((g2b(g) + 1) mod 2^PTR_W)` (43_cdc_sync R182). -/
def grayInc (w : Nat) (g : Ptr) : Ptr := b2g ((g2b w g + 1#8) &&& ptrMask w)

/-- `(g2b(x) - g2b(y)) mod 2^PTR_W` (43_cdc_sync R186, R187). -/
def ptrDiff (w : Nat) (x y : Ptr) : Ptr := (g2b w x - g2b w y) &&& ptrMask w

/-- What the other domain sees of a pointer: the last stage of its synchroniser, or the pointer itself when there is no
stage (43_cdc_sync R185). -/
def lastStage (chain : List Ptr) (ptr : Ptr) : Ptr := chain.getLastD ptr

/-- `WSYNC`, domain C's view of `WPTR` (43_cdc_sync R185). -/
def wsync (s : State) : Ptr := lastStage s.wq s.wptr

/-- `RSYNC`, domain P's view of `RPTR` (43_cdc_sync R185). -/
def rsync (s : State) : Ptr := lastStage s.rq s.rptr

/-- `FULL_P`, the producer's full flag (43_cdc_sync R186). -/
def fullP (s : State) : Bool := decide (Config.cap ≤ (ptrDiff s.cfg.ptrW s.wptr (rsync s)).toNat)

/-- `EMPTY_C`, the consumer's empty flag (43_cdc_sync R187). -/
def emptyC (s : State) : Bool := decide (ptrDiff s.cfg.ptrW (wsync s) s.rptr = 0#8)

/-- `P_STATUS` (10_state R37): `{WCNT, 0[2:0], P_FAULT, P_ACT, FULL_P}`. -/
def pStatus (s : State) : BitVec 16 := s.wcnt ++ 0#3 ++ s.pFault ++ BitVec.ofBool s.pAct ++ BitVec.ofBool (fullP s)

/-- `C_STATUS` (10_state R38): `{C_LEN, 0[2:0], C_FAULT, C_ACT, EMPTY_C}`. -/
def cStatus (s : State) : BitVec 16 := s.cLen ++ 0#3 ++ s.cFault ++ BitVec.ofBool s.cAct ++ BitVec.ofBool (emptyC s)

/-- A status register as the `HI` and `LO` bytes of a response (41_producer R127, 42_consumer R155). -/
def statusHi (st : BitVec 16) : Byte := st.extractLsb' 8 8

/-- The low byte of a status register. -/
def statusLo (st : BitVec 16) : Byte := st.extractLsb' 0 8

/-- `P_NOT_FULL` (10_state R39). -/
def pNotFull (s : State) : Bool := !fullP s

/-- `P_FAULTED` (10_state R39). -/
def pFaulted (s : State) : Bool := decide (s.pFault ≠ 0#3)

/-- `C_NOT_EMPTY` (10_state R39). -/
def cNotEmpty (s : State) : Bool := !emptyC s

/-- `C_FAULTED` (10_state R39). -/
def cFaulted (s : State) : Bool := decide (s.cFault ≠ 0#3)

end Sys2Proof.Machine
end

