-- ==== Sys2Proof/Machine/Consumer.lean ====
section
/-! DEFINITION. The consumer commands (42_consumer R151 to R155). Each runs on a legal word of port C: an illegal word never
reaches a meaning (`portTurn`). -/

namespace Sys2Proof.Machine

/-- `C_HASDATA` (42_consumer R151). -/
def execCHasdata (s : State) : Result :=
  unlessFaulted .c s <|
    if emptyC s then .next (respond .c .ok 0#8 0#8 s)
    else .next (respond .c .ok 0#8 1#8 s)

/-- What `C_PEEK` does with the header it decoded: the length check, then the open transaction (42_consumer R152, the check
40_codec_split R104 places here). -/
def openConsume (h : Header) (s : State) : Result :=
  if s.cfg.maxPayload < h.length.toNat then .next (respond .c .malformedLength 0#8 0#8 s)
  else .next (respond .c .ok (h.llid.setWidth 8) h.length { s with cAct := true, cLen := h.length })

/-- `C_PEEK` (42_consumer R152). -/
def execCPeek (s : State) : Result :=
  unlessFaulted .c s <|
    if s.cAct then raiseFault .c .protocol s
    else if emptyC s then .next (respond .c .endOfData 0#8 0#8 s)
    else withByte s 0 fun h0 => withByte s 1 fun h1 => openConsume (decodeHeader h0 h1) s

/-- `C_READ i` (42_consumer R153). -/
def execCRead (i : BitVec 8) (s : State) : Result :=
  unlessFaulted .c s <|
    if !s.cAct then raiseFault .c .protocol s
    else if s.cLen ≤ i then .next (respond .c .readBounds 0#8 0#8 s)
    else withByte s (payloadAddr i) fun v => .next (respond .c .ok 0#8 v s)

/-- `C_RELEASE f` (42_consumer R154). -/
def execCRelease (f : Bool) (s : State) : Result :=
  unlessFaulted .c s <|
    if !s.cAct then raiseFault .c .protocol s
    else if f && emptyC s then raiseFault .c .invDequeue s
    else if f then
      .next (respond .c .ok 0#8 1#8 { s with rptr := grayInc s.cfg.ptrW s.rptr, cAct := false, cLen := 0#8 })
    else .next (respond .c .ok 0#8 0#8 { s with cAct := false, cLen := 0#8 })

/-- `C_STAT` (42_consumer R155), which a faulted port executes too (R150). -/
def execCStat (s : State) : Result :=
  .next (respond .c .ok (statusHi (cStatus s)) (statusLo (cStatus s)) s)

end Sys2Proof.Machine
end

