-- ==== Sys2Proof/Machine/Producer.lean ====
section
/-! DEFINITION. The producer commands (41_producer R121 to R127). Each runs on a legal word of port P: an illegal word never
reaches a meaning (`portTurn`). -/

namespace Sys2Proof.Machine

/-- `P_FREE` (41_producer R121). -/
def execPFree (s : State) : Result :=
  unlessFaulted .p s <|
    if fullP s then .next (respond .p .ok 0#8 0#8 s)
    else .next (respond .p .ok 0#8 s.cfg.capacity s)

/-- `P_BEGIN n` (41_producer R122). `n` is checked and then discarded (R131). -/
def execPBegin (n : BitVec 8) (s : State) : Result :=
  unlessFaulted .p s <|
    if s.pAct then raiseFault .p .protocol s
    else if s.cfg.maxPayload < n.toNat then raiseFault .p .capExceeded s
    else if fullP s then .next (respond .p .endOfCapacity 0#8 0#8 s)
    else .next (respond .p .ok 0#8 s.cfg.capacity { s with pAct := true, wcnt := 0#8 })

/-- `P_WRITE b` (41_producer R123). -/
def execPWrite (b : BitVec 8) (s : State) : Result :=
  unlessFaulted .p s <|
    if !s.pAct then raiseFault .p .protocol s
    else if writerFull s then .next (respond .p .writerFull 0#8 0#8 s)
    else storing s (payloadAddr s.wcnt) b fun t =>
      .next (respond .p .ok 0#8 (s.cfg.capacity - (s.wcnt + 1#8)) { t with wcnt := s.wcnt + 1#8 })

/-- `P_SPACE` (41_producer R124). -/
def execPSpace (s : State) : Result :=
  unlessFaulted .p s <|
    if !s.pAct then raiseFault .p .protocol s
    else .next (respond .p .ok 0#8 (spaceLeft s) s)

/-- `P_COMMIT llid` (41_producer R125): the header bytes, the Gray increment of `WPTR` and the end of the transaction in
one step (20_memory R55). -/
def execPCommit (llid : BitVec 2) (s : State) : Result :=
  unlessFaulted .p s <|
    if !s.pAct then raiseFault .p .protocol s
    else if fullP s then raiseFault .p .invEnqueue s
    else
      storing s 0 (encodeHeader llid s.wcnt).1 fun t =>
        storing t 1 (encodeHeader llid s.wcnt).2 fun u =>
          .next (respond .p .ok 0#8 s.wcnt { u with wptr := grayInc s.cfg.ptrW s.wptr, pAct := false, wcnt := 0#8 })

/-- `P_CANCEL` (41_producer R126). -/
def execPCancel (s : State) : Result :=
  unlessFaulted .p s <|
    if !s.pAct then raiseFault .p .protocol s
    else .next (respond .p .ok 0#8 0#8 { s with pAct := false, wcnt := 0#8 })

/-- `P_STAT` (41_producer R127), which a faulted port executes too (R120). -/
def execPStat (s : State) : Result :=
  .next (respond .p .ok (statusHi (pStatus s)) (statusLo (pStatus s)) s)

end Sys2Proof.Machine
end

