-- ==== Sys2Proof/Machine/Dispatch.lean ====
section
/-! DEFINITION. One arm per command: the rule of a legal command on its port (41_producer R120, 42_consumer R150). -/

namespace Sys2Proof.Machine

def exec (i : Instr) (s : State) : Host.Outcome State Fault Refusal :=
  match i with
  | .pFree => Sys2Proof.Machine.execPFree s
  | .pBegin n => Sys2Proof.Machine.execPBegin n s
  | .pWrite b => Sys2Proof.Machine.execPWrite b s
  | .pSpace => Sys2Proof.Machine.execPSpace s
  | .pCommit llid => Sys2Proof.Machine.execPCommit llid s
  | .pCancel => Sys2Proof.Machine.execPCancel s
  | .pStat => Sys2Proof.Machine.execPStat s
  | .cHasdata => Sys2Proof.Machine.execCHasdata s
  | .cPeek => Sys2Proof.Machine.execCPeek s
  | .cRead ofs => Sys2Proof.Machine.execCRead ofs s
  | .cRelease f => Sys2Proof.Machine.execCRelease f s
  | .cStat => Sys2Proof.Machine.execCStat s

end Sys2Proof.Machine
end

