-- ==== Sys2Proof/Machine/Sync.lean ====
section
/-! DEFINITION. The two synchroniser agents (43_cdc_sync R183, R184) and when one is enabled (70_reset_and_hazards R250). -/

namespace Sys2Proof.Machine

/-- One shift of a synchroniser: stage 1 samples the pointer and every later stage takes the one before it, together. With
no stage there is nothing to shift. -/
def shiftChain (chain : List Ptr) (ptr : Ptr) : List Ptr := (ptr :: chain).dropLast

/-- One SyncW step (43_cdc_sync R183). -/
def syncW (s : State) : State := { s with wq := shiftChain s.wq s.wptr }

/-- One SyncR step (43_cdc_sync R184). -/
def syncR (s : State) : State := { s with rq := shiftChain s.rq s.rptr }

/-- A synchroniser is enabled only when its step would change a stage; a step that changes none is a stutter
(70_reset_and_hazards R250). -/
def syncEnabled (chain : List Ptr) (ptr : Ptr) : Bool := decide (shiftChain chain ptr ≠ chain)

end Sys2Proof.Machine
end

