-- ==== Sys2Proof/Machine/Turn.lean ====
section
/-! DEFINITION. One step of each agent (10_state R20): a port's turn with the word its host presents, and a synchroniser's
shift. -/

namespace Sys2Proof.Machine

/-- One step of a port (41_producer R120, 42_consumer R150): it takes the presented word, decodes it, faults `ILLEGAL` or
executes the command, and the host's index moves on by one (10_state R23). Where the host presents no word the port takes
no command and nothing changes (log 5). -/
def portTurn (port : Port) (s : State) : Result :=
  match presented port s with
  | none => .next s
  | some w =>
    match decode port w with
    | .error _ => raiseFault port .illegal (advance port s)
    | .ok i => exec i (advance port s)

/-- One step of an agent (10_state R20). -/
def agentTurn (a : Agent) (s : State) : Result :=
  match a with
  | .portP => portTurn .p s
  | .portC => portTurn .c s
  | .syncW => .next (syncW s)
  | .syncR => .next (syncR s)

/-- The agent the schedule names next takes its step (43_cdc_sync R195). With nothing scheduled no agent steps and the state
stays as it is (log 4). -/
def scheduledTurn (s : State) : Result :=
  match s.sched with
  | [] => .next s
  | a :: rest => agentTurn a { s with sched := rest }

/-- The word of a row presented at its own port, that port scheduled next. -/
def presentTableWord (s : State) (nbits w : Nat) : State :=
  let cmd : Word := BitVec.ofNat 16 (w % 2 ^ nbits)
  present (wordPort cmd) cmd s

end Sys2Proof.Machine
end

