-- ==== Sys2Proof/Machine/Step.lean ====
section
/-! DEFINITION. One step of the machine, and how the host places an instruction. -/

namespace Sys2Proof.Machine

/-- One atomic step of the agent the schedule names (00_scope R13). -/
def step (s : State) : Host.Outcome State Fault Refusal := scheduledTurn s

/-- The state with an opcode-table row's word presented on its port and that port next in the schedule, so that the very
next step runs it (log 9). -/
def State.withFetchWord (s : State) (nbits w : Nat) : State := presentTableWord s nbits w

end Sys2Proof.Machine
end

