-- ==== Sys2Proof/Machine/Asm.lean ====
section
/-! DEFINITION. The assembler syntax and the host programs of 30_encoding R84 to R86. It is how a list of words and a schedule
are written down; the block itself holds only the words. -/

namespace Sys2Proof.Machine

/-- Why a line does not assemble. -/
inductive AsmError where
  | unknownMnemonic   -- no command, pseudo-instruction or schedule line of R84 to R86
  | operandCount      -- too few or too many operands
  | operandSyntax     -- not a decimal or `0x` hexadecimal number, nor an alias where one may stand
  | operandRange      -- "An operand out of range is an assembly error, not an encoding" (R84)
  deriving DecidableEq, Repr

/-- What one line says. -/
inductive AsmLine where
  | blank                              -- nothing, or a comment
  | commands (is : List Instr)         -- a command, or a pseudo-instruction's expansion, in order
  | sync (agent : Agent)               -- `sync.w` or `sync.r`
  deriving DecidableEq, Repr

/-! ## Characters -/

/-- "A comment starts at `;`" (R84). -/
def stripComment (cs : List Char) : List Char := cs.takeWhile (fun c => c ≠ ';')

/-- A space or a tab. -/
def isBlank (c : Char) : Bool := c = ' ' || c = '\t'

/-- A text without the blanks at its two ends. -/
def trimBlanks (cs : List Char) : List Char := ((cs.dropWhile isBlank).reverse.dropWhile isBlank).reverse

/-- The parts of a text between its commas. -/
def splitCommas (cs : List Char) : List (List Char) :=
  match cs with
  | [] => [[]]
  | c :: rest =>
    match splitCommas rest with
    | [] => [[c]]
    | part :: parts => if c = ',' then [] :: part :: parts else (c :: part) :: parts

/-- The value of a digit in a base up to 16. -/
def digitValue (base : Nat) (c : Char) : Option Nat :=
  let v :=
    if '0' ≤ c ∧ c ≤ '9' then c.toNat - '0'.toNat
    else if 'a' ≤ c ∧ c ≤ 'f' then c.toNat - 'a'.toNat + 10
    else if 'A' ≤ c ∧ c ≤ 'F' then c.toNat - 'A'.toNat + 10
    else 16
  if v < base then some v else none

/-- The number a list of digits denotes, most significant first, after the digits already read. -/
def digitsValue (base : Nat) (acc : Nat) (cs : List Char) : Option Nat :=
  match cs with
  | [] => some acc
  | c :: rest =>
    match digitValue base c with
    | some d => digitsValue base (acc * base + d) rest
    | none => none

/-- "Numeric operands are decimal or `0x` hexadecimal" (R84). -/
def number (cs : List Char) : Option Nat :=
  match cs with
  | [] => none
  | ['0', 'x'] => none
  | '0' :: 'x' :: ds => digitsValue 16 0 ds
  | ds => digitsValue 10 0 ds

/-- The link-id aliases of 40_codec_split R103 and R84. -/
def llidAlias (cs : List Char) : Option Nat :=
  if cs = "rsvd".toList then some 0
  else if cs = "cont".toList then some 1
  else if cs = "start".toList then some 2
  else if cs = "ctrl".toList then some 3
  else none

/-- A link-id operand: an alias or a number (R84). -/
def llidNumber (cs : List Char) : Option Nat :=
  match llidAlias cs with
  | some v => some v
  | none => number cs

/-- Every part as a number, or none. -/
def numbers (parts : List (List Char)) : Option (List Nat) :=
  match parts with
  | [] => some []
  | part :: rest =>
    match number part, numbers rest with
    | some v, some vs => some (v :: vs)
    | _, _ => none

/-! ## Lines -/

/-- The commands of written commands, each in range. -/
def commandsOf (ts : List Term) : Except AsmError AsmLine :=
  if ts.all Term.wf then .ok (.commands (ts.map Term.cut)) else .error .operandRange

/-- A line with no operand. -/
def noOperand (ops : List (List Char)) (t : Term) : Except AsmError AsmLine :=
  match ops with
  | [] => commandsOf [t]
  | _ => .error .operandCount

/-- A line with one operand. -/
def oneOperand (ops : List (List Char)) (read : List Char → Option Nat) (t : Nat → Term) : Except AsmError AsmLine :=
  match ops with
  | [part] =>
    match read part with
    | some v => commandsOf [t v]
    | none => .error .operandSyntax
  | _ => .error .operandCount

/-- `p.send llid, b0, ..., bk-1` is `p.begin k`, the `k` writes and `p.commit llid` (R85). -/
def sendLine (ops : List (List Char)) : Except AsmError AsmLine :=
  match ops with
  | [] => .error .operandCount
  | tag :: payload =>
    match llidNumber tag, numbers payload with
    | some llid, some bytes => commandsOf (.pBegin bytes.length :: bytes.map .pWrite ++ [.pCommit llid])
    | _, _ => .error .operandSyntax

/-- A schedule line. -/
def syncLine (ops : List (List Char)) (agent : Agent) : Except AsmError AsmLine :=
  match ops with
  | [] => .ok (.sync agent)
  | _ => .error .operandCount

/-- The line a mnemonic and its operands make: the commands of R84, the pseudo-instructions of R85, the schedule lines of R86. -/
def lineOf (mnemonic : List Char) (ops : List (List Char)) : Except AsmError AsmLine :=
  if mnemonic = "p.free".toList then noOperand ops .pFree
  else if mnemonic = "p.begin".toList then oneOperand ops number .pBegin
  else if mnemonic = "p.write".toList then oneOperand ops number .pWrite
  else if mnemonic = "p.space".toList then noOperand ops .pSpace
  else if mnemonic = "p.commit".toList then oneOperand ops llidNumber .pCommit
  else if mnemonic = "p.cancel".toList then noOperand ops .pCancel
  else if mnemonic = "p.stat".toList then noOperand ops .pStat
  else if mnemonic = "c.hasdata".toList then noOperand ops .cHasdata
  else if mnemonic = "c.peek".toList then noOperand ops .cPeek
  else if mnemonic = "c.read".toList then oneOperand ops number .cRead
  else if mnemonic = "c.release".toList then oneOperand ops number .cRelease
  else if mnemonic = "c.stat".toList then noOperand ops .cStat
  else if mnemonic = "c.pop".toList then noOperand ops (.cRelease 1)
  else if mnemonic = "c.keep".toList then noOperand ops (.cRelease 0)
  else if mnemonic = "p.send".toList then sendLine ops
  else if mnemonic = "p.abort".toList then noOperand ops .pCancel
  else if mnemonic = "sync.w".toList then syncLine ops .syncW
  else if mnemonic = "sync.r".toList then syncLine ops .syncR
  else .error .unknownMnemonic

/-- One line of text: a mnemonic, then its operands separated by commas, then perhaps a comment (R84). -/
def assembleLine (text : List Char) : Except AsmError AsmLine :=
  let line := trimBlanks (stripComment text)
  let mnemonic := line.takeWhile (fun c => !isBlank c)
  let operands := trimBlanks (line.dropWhile (fun c => !isBlank c))
  if line.isEmpty then .ok .blank
  else lineOf mnemonic (if operands.isEmpty then [] else (splitCommas operands).map trimBlanks)

/-! ## Host programs -/

/-- A host program: a list of commands for port P, a list for port C, and a schedule (R86). -/
structure HostProgram where
  ps    : List Word
  cs    : List Word
  sched : List Agent
  deriving DecidableEq, Repr

/-- One more command, at the end of its port's list, with one more step of that port. -/
def HostProgram.addCommand (prog : HostProgram) (i : Instr) : HostProgram :=
  match i.port with
  | .p => { prog with ps := prog.ps ++ [encode i], sched := prog.sched ++ [.portP] }
  | .c => { prog with cs := prog.cs ++ [encode i], sched := prog.sched ++ [.portC] }

/-- One more line. -/
def HostProgram.addLine (prog : HostProgram) (line : AsmLine) : HostProgram :=
  match line with
  | .blank => prog
  | .commands is => is.foldl HostProgram.addCommand prog
  | .sync agent => { prog with sched := prog.sched ++ [agent] }

/-- The program of lines of text, after the lines already read, or the first line's error. -/
def assembleFrom (prog : HostProgram) (lines : List (List Char)) : Except AsmError HostProgram :=
  match lines with
  | [] => .ok prog
  | text :: rest =>
    match assembleLine text with
    | .ok line => assembleFrom (prog.addLine line) rest
    | .error e => .error e

/-- The program of a text's lines. -/
def assemble (lines : List (List Char)) : Except AsmError HostProgram :=
  assembleFrom { ps := [], cs := [], sched := [] } lines

end Sys2Proof.Machine
end

