-- ==== Sys2Proof/Machine/Fairness.lean ====
section
/-! DEFINITION. Infinite executions and the weak fairness of the two synchronisers (43_cdc_sync R195, R196). An execution names
an agent for each step, without end, and holds the state before each. These are terms of claims and no part of the state,
whose own schedule is a finite list (log 13). -/

namespace Sys2Proof.Machine

/-- A state with one agent scheduled to step next, and nothing after it. -/
def scheduling (a : Agent) (s : State) : State := { s with sched := [a] }

/-- `run` is an infinite execution in which `agents n` takes the step from `run n` to `run (n + 1)`: any interleaving of the
four agents (43_cdc_sync R195). -/
def Execution (agents : Nat → Agent) (run : Nat → State) : Prop :=
  ∀ n, step (scheduling (agents n) (run n)) = .next (run (n + 1))

/-- An agent whose step stays enabled from some point on takes a step from there on. -/
def WeaklyFairFor (a : Agent) (enabled : State → Bool) (agents : Nat → Agent) (run : Nat → State) : Prop :=
  ∀ n, (∀ m, n ≤ m → enabled (run m) = true) → ∃ m, n ≤ m ∧ agents m = a

/-- SyncW and SyncR are weakly fair: "a synchroniser whose step would change a stage does not stay so for ever without taking
a step" (43_cdc_sync R196). The ports are under no fairness. -/
def WeaklyFair (agents : Nat → Agent) (run : Nat → State) : Prop :=
  WeaklyFairFor .syncW (fun s => syncEnabled s.wq s.wptr) agents run ∧
  WeaklyFairFor .syncR (fun s => syncEnabled s.rq s.rptr) agents run

/-- How many of the `k` steps from step `n` on are steps of an agent. -/
def stepsOf (a : Agent) (agents : Nat → Agent) (n k : Nat) : Nat :=
  ((List.range k).filter (fun j => agents (n + j) = a)).length

end Sys2Proof.Machine
end

