-- ==== Sys2Proof/Safety.lean ====
section
/-! DEFINITION. The terms claims are stated in: what the hosts' logs say, the counts and the invariant of 43_cdc_sync R190 and
R191, first-in first-out order (R194), and a good end of run (70_reset_and_hazards R250). -/

namespace Sys2Proof.Machine

/-! ## What a host has seen -/

/-- The `RC` field of a response (30_encoding R80). -/
def rspCode (r : Response) : BitVec 4 := r.extractLsb' 28 4

/-- The `HI` field of a response (30_encoding R80). -/
def rspHi (r : Response) : Byte := r.extractLsb' 8 8

/-- The `LO` field of a response (30_encoding R80). -/
def rspLo (r : Response) : Byte := r.extractLsb' 0 8

/-- The words a host's port has taken, each with its response. -/
def served (h : HostStream) : List (Word × Response) := (h.cmds.take h.idx).zip h.rsps

/-- The command of a served word, if it was a command answered `OK`. -/
def acceptedAt (port : Port) (e : Word × Response) : Option (Instr × Response) :=
  match decode port e.1 with
  | .ok i => if rspCode e.2 = RespCode.ok.code then some (i, e.2) else none
  | .error _ => none

/-- The commands of a port answered `OK` since reset, in order, each with its response. -/
def accepted (port : Port) (h : HostStream) : List (Instr × Response) := (served h).filterMap (acceptedAt port)

/-- The last response a port gave. -/
def lastResponse (port : Port) (s : State) : Option Response := (hostOf port s).rsps.getLast?

/-- Port P's host has one more response, and nothing else differs. -/
def answerP (s : State) (r : Response) : State := { s with hostP := { s.hostP with rsps := s.hostP.rsps ++ [r] } }

/-- Port C's host has one more response, and nothing else differs. -/
def answerC (s : State) (r : Response) : State := { s with hostC := { s.hostC with rsps := s.hostC.rsps ++ [r] } }

/-- A protocol data unit: its tag and its payload bytes (00_scope R15). -/
structure Pdu where
  llid    : BitVec 2
  payload : List Byte
  deriving DecidableEq, Repr

/-- What the producer's log adds up to: the bytes written in the transaction now open, and the units committed. -/
structure ProducerView where
  writing   : List Byte
  committed : List Pdu
  deriving DecidableEq, Repr

/-- One more producer command answered `OK` (41_producer R128: the payload of a commit is the bytes of the `P_WRITE`s
answered `OK` since its `P_BEGIN`). -/
def ProducerView.see (v : ProducerView) (e : Instr × Response) : ProducerView :=
  match e.1 with
  | .pBegin _ => { v with writing := [] }
  | .pWrite b => { v with writing := v.writing ++ [b] }
  | .pCommit llid => { writing := [], committed := v.committed ++ [{ llid := llid, payload := v.writing }] }
  | .pCancel => { v with writing := [] }
  | .pFree => v
  | .pSpace => v
  | .pStat => v
  | .cHasdata => v
  | .cPeek => v
  | .cRead _ => v
  | .cRelease _ => v
  | .cStat => v

/-- The producer's log, read from reset. -/
def producerView (h : HostStream) : ProducerView :=
  (accepted .p h).foldl ProducerView.see { writing := [], committed := [] }

/-- Something port C showed its host: a header or a payload byte. -/
inductive Seen where
  | header (hi lo : Byte)   -- the `HI` and `LO` of a `C_PEEK` answered `OK`
  | byte (i v : Byte)       -- the offset and the `LO` of a `C_READ` answered `OK`
  deriving DecidableEq, Repr

/-- What the consumer's log adds up to: how many units were removed, and what was shown, each with the number of removals
before it. -/
structure ConsumerView where
  removed : Nat
  seen    : List (Nat × Seen)
  deriving DecidableEq, Repr

/-- One more consumer command answered `OK`. -/
def ConsumerView.see (v : ConsumerView) (e : Instr × Response) : ConsumerView :=
  match e.1 with
  | .cPeek => { v with seen := v.seen ++ [(v.removed, .header (rspHi e.2) (rspLo e.2))] }
  | .cRead i => { v with seen := v.seen ++ [(v.removed, .byte i (rspLo e.2))] }
  | .cRelease f => if f then { v with removed := v.removed + 1 } else v
  | .pFree => v
  | .pBegin _ => v
  | .pWrite _ => v
  | .pSpace => v
  | .pCommit _ => v
  | .pCancel => v
  | .pStat => v
  | .cHasdata => v
  | .cStat => v

/-- The consumer's log, read from reset. -/
def consumerView (h : HostStream) : ConsumerView :=
  (accepted .c h).foldl ConsumerView.see { removed := 0, seen := [] }

/-! ## The counts and the invariant of 43_cdc_sync R190, R191 -/

/-- `wc`: the number of `P_COMMIT` commands answered `OK` since reset (43_cdc_sync R190). -/
def wc (s : State) : Nat := (producerView s.hostP).committed.length

/-- `rc`: the number of `C_RELEASE 1` commands answered `OK` since reset (43_cdc_sync R190). -/
def rc (s : State) : Nat := (consumerView s.hostC).removed

/-- The pointer of a count: `b2g(n mod 2^PTR_W)` (43_cdc_sync R190). -/
def grayOf (w n : Nat) : Ptr := b2g (BitVec.ofNat 8 (n % 2 ^ w))

/-- A host's stream as its port leaves it: the index within the list, one response per word taken (10_state R23,
30_encoding R71). -/
structure HostStream.Wf (h : HostStream) : Prop where
  inRange : h.idx ≤ h.cmds.length
  answered : h.rsps.length = h.idx

/-- The ranges 10_state gives its registers, the canonical form of the storage, and the hosts' bookkeeping. Every step keeps
this, whatever the pointers say. -/
structure WellFormed (s : State) : Prop where
  cfg : s.cfg.Valid
  rqLength : s.rq.length = s.cfg.stages
  wqLength : s.wq.length = s.cfg.stages
  wptrWidth : s.wptr.toNat < 2 ^ s.cfg.ptrW
  rptrWidth : s.rptr.toNat < 2 ^ s.cfg.ptrW
  rqWidth : ∀ x ∈ s.rq, x.toNat < 2 ^ s.cfg.ptrW
  wqWidth : ∀ x ∈ s.wq, x.toNat < 2 ^ s.cfg.ptrW
  wcntRange : s.wcnt.toNat ≤ s.cfg.maxPayload                    -- R28
  cLenRange : s.cLen.toNat ≤ s.cfg.maxPayload                    -- R33
  wcntClosed : s.pAct = false → s.wcnt = 0#8                       -- R28
  cLenClosed : s.cAct = false → s.cLen = 0#8                       -- R33
  pFaultCode : s.pFault.toNat ≤ 5                                -- 60_exceptions R204
  cFaultCode : s.cFault.toNat ≤ 5
  slotForm : Memory.wf s.slot
  slotRange : ∀ e ∈ s.slot, e.1 < s.cfg.slotBytes                -- R35
  hostP : s.hostP.Wf
  hostC : s.hostC.Wf

/-- R191 (i) to (iii) for given stage counts `wq_1, ..., wq_S` and `rq_1, ..., rq_S`. -/
structure CountsHold (s : State) (wqc rqc : List Nat) : Prop where
  wptr : s.wptr = grayOf s.cfg.ptrW (wc s)
  rptr : s.rptr = grayOf s.cfg.ptrW (rc s)
  wq : s.wq = wqc.map (grayOf s.cfg.ptrW)
  rq : s.rq = rqc.map (grayOf s.cfg.ptrW)
  order : (wc s :: (wqc ++ rc s :: rqc)).Pairwise (fun x y => y ≤ x)          -- (i)
  window : wc s ≤ rqc.getLastD (rc s) + 1                                    -- (i)
  pAct : s.pAct = true → wc s = rqc.getLastD (rc s)                          -- (ii)
  cAct : s.cAct = true → wqc.getLastD (wc s) = rc s + 1                      -- (iii)

/-- The slot holds a unit: its header bytes and its payload (40_codec_split R105). -/
structure HoldsPdu (m : Memory) (u : Pdu) : Prop where
  tag : memGet m 0 = some (u.llid.setWidth 8)
  length : memGet m 1 = some (BitVec.ofNat 8 u.payload.length)
  bytes : ∀ k v, u.payload[k]? = some v → memGet m (Config.hdrBytes + k) = some v

/-- The open transaction's bytes are in the payload region, and a committed unit not yet removed is in the slot
(41_producer R128, 43_cdc_sync R191 (iii), (iv)). -/
structure StorageHolds (s : State) : Prop where
  writing : (producerView s.hostP).writing.length = s.wcnt.toNat
  written : ∀ k v, (producerView s.hostP).writing[k]? = some v → memGet s.slot (Config.hdrBytes + k) = some v
  lengths : ∀ u ∈ (producerView s.hostP).committed, u.payload.length ≤ s.cfg.maxPayload
  current : ∀ u, wc s = rc s + 1 → (producerView s.hostP).committed.getLast? = some u → HoldsPdu s.slot u   -- (iv)
  peeked : s.cAct = true → memGet s.slot 1 = some s.cLen                                                    -- (iii)

/-- What a host of port C was shown is what unit `k` of the commits holds. -/
def Seen.of (x : Seen) (u : Pdu) : Prop :=
  match x with
  | .header hi lo => hi = u.llid.setWidth 8 ∧ lo = BitVec.ofNat 8 u.payload.length
  | .byte i v => u.payload[i.toNat]? = some v

/-- First in, first out (43_cdc_sync R194): what port C shows after `k` removals is what commit `k + 1` committed. -/
def Fifo (s : State) : Prop :=
  ∀ e ∈ (consumerView s.hostC).seen, ∃ u, (producerView s.hostP).committed[e.1]? = some u ∧ e.2.of u

/-- The invariant of every run: R191 with the hosts' logs in place of the ghost counts `wc` and `rc`. -/
structure Invariant (s : State) : Prop where
  wf : WellFormed s
  counts : ∃ wqc rqc, CountsHold s wqc rqc
  storage : StorageHolds s
  fifo : Fifo s

/-- The occupancy `wc - rc` (43_cdc_sync R190). -/
def occupancy (s : State) : Nat := wc s - rc s

/-! ## Ends of runs (70_reset_and_hazards R250, 60_exceptions R222) -/

/-- Every stage equals the pointer it carries, so no synchroniser is enabled. -/
def Settled (s : State) : Prop := (∀ x ∈ s.wq, x = s.wptr) ∧ ∀ x ∈ s.rq, x = s.rptr

/-- Both command streams are exhausted and no synchroniser is enabled. -/
def EndOfRun (s : State) : Prop :=
  s.hostP.cmds.length ≤ s.hostP.idx ∧ s.hostC.cmds.length ≤ s.hostC.idx ∧ Settled s

/-- A good end of run: no fault recorded and no transaction open. An `UnwrittenRead` leaves no next state, so none occurred
in a run that ends in a state. -/
def GoodEnd (s : State) : Prop :=
  EndOfRun s ∧ s.pFault = 0#3 ∧ s.cFault = 0#3 ∧ s.pAct = false ∧ s.cAct = false

/-! ## Domains (10_state R21) -/

/-- The registers PortP writes and the stages SyncR writes. -/
structure SameDomainP (s t : State) : Prop where
  wptr : t.wptr = s.wptr
  rq : t.rq = s.rq
  pAct : t.pAct = s.pAct
  wcnt : t.wcnt = s.wcnt
  pFault : t.pFault = s.pFault

/-- The registers PortC writes and the stages SyncW writes. -/
structure SameDomainC (s t : State) : Prop where
  rptr : t.rptr = s.rptr
  wq : t.wq = s.wq
  cAct : t.cAct = s.cAct
  cLen : t.cLen = s.cLen
  cFault : t.cFault = s.cFault

/-- The build, the schedule and both hosts' words and indices: what no command touches. -/
structure SameInputs (s t : State) : Prop where
  cfg : t.cfg = s.cfg
  sched : t.sched = s.sched
  cmdsP : t.hostP.cmds = s.hostP.cmds
  idxP : t.hostP.idx = s.hostP.idx
  cmdsC : t.hostC.cmds = s.hostC.cmds
  idxC : t.hostC.idx = s.hostC.idx

/-- Every part of the block's own state: the registers of both domains and the storage. -/
structure SameBlock (s t : State) : Prop where
  domainP : SameDomainP s t
  domainC : SameDomainC s t
  slot : t.slot = s.slot

/-- Every byte of the storage reads as before. -/
def SameSlot (s t : State) : Prop := ∀ a, memGet t.slot a = memGet s.slot a

/-- A slot whose header length exceeds `MAX_PAYLOAD` stands before port C with no transaction open and both synchronisers
settled (70_reset_and_hazards R243). -/
structure Wedged (s : State) : Prop where
  full : fullP s = true
  data : emptyC s = false
  settled : Settled s
  pAct : s.pAct = false
  cAct : s.cAct = false
  tag : ∃ v, memGet s.slot 0 = some v
  length : ∃ v : Byte, memGet s.slot 1 = some v ∧ s.cfg.maxPayload < v.toNat

end Sys2Proof.Machine
end

