-- ==== Sys2Proof/Certificates/Slice0/Obligations.lean ====
section
/-! DEFINITION. The statements for the provers, in the order of the spec: encodings, the step, reset and status, Gray code and
flags, the commands, faults, frames, invariants, and the rules about the whole machine. -/

open Sys2Proof Sys2Proof.Machine

/-! ## Encodings (30_encoding) -/

/-- 30_encoding R70, R73 to R78: no bit of a command is dropped. -/
def Obligations.DecodeEncode : Prop := ∀ i : Instr, decode i.port (encode i) = .ok i

/-- 30_encoding R78, R79: a word has at most one meaning, and it is at one port. -/
def Obligations.EncodeDecode : Prop :=
  ∀ (port : Port) (w : Word) (i : Instr), decode port w = .ok i → encode i = w ∧ i.port = port

/-- Words of the opcode map of 30_encoding R78, one per command, as the worked examples of 41_producer and 42_consumer write
them. -/
def Obligations.SpecWordsDecode : Prop :=
  decode .p 0x1000#16 = .ok .pFree ∧ decode .p 0x201B#16 = .ok (.pBegin 27) ∧ decode .p 0x30FF#16 = .ok (.pWrite 255) ∧
  decode .p 0x4000#16 = .ok .pSpace ∧ decode .p 0x5200#16 = .ok (.pCommit 2) ∧ decode .p 0x6000#16 = .ok .pCancel ∧
  decode .p 0x7000#16 = .ok .pStat ∧ decode .c 0x9000#16 = .ok .cHasdata ∧ decode .c 0xA000#16 = .ok .cPeek ∧
  decode .c 0xB003#16 = .ok (.cRead 3) ∧ decode .c 0xC100#16 = .ok (.cRelease true) ∧ decode .c 0xC000#16 = .ok (.cRelease false) ∧
  decode .c 0xD000#16 = .ok .cStat

/-- 30_encoding R79 (a) to (c), with the reserved bits of each format written out (R73 to R76). -/
def Obligations.IllegalExactly : Prop :=
  ∀ (port : Port) (w : Word),
    (∃ e, decode port w = .error e) ↔
      (let op := (w.extractLsb' 12 4).toNat
       op = 0x0 ∨ op = 0x8 ∨ op = 0xE ∨ op = 0xF ∨
       (port = .p ∧ 0x9 ≤ op ∧ op ≤ 0xD) ∨ (port = .c ∧ 0x1 ≤ op ∧ op ≤ 0x7) ∨
       ((op = 0x1 ∨ op = 0x4 ∨ op = 0x6 ∨ op = 0x7 ∨ op = 0x9 ∨ op = 0xA ∨ op = 0xD) ∧ w.extractLsb' 0 12 ≠ 0#12) ∨
       ((op = 0x2 ∨ op = 0x3 ∨ op = 0xB) ∧ w.extractLsb' 8 4 ≠ 0#4) ∨
       (op = 0x5 ∧ (w.extractLsb' 10 2 ≠ 0#2 ∨ w.extractLsb' 0 8 ≠ 0#8)) ∨
       (op = 0xC ∧ (w.extractLsb' 9 3 ≠ 0#3 ∨ w.extractLsb' 0 8 ≠ 0#8)))

/-- 30_encoding R83: exactly 520 words are commands at port P and exactly 261 at port C. -/
def Obligations.LegalWordCounts : Prop :=
  (∃ l : List Word, l.Nodup ∧ l.length = 520 ∧ ∀ w, w ∈ l ↔ ∃ i, decode .p w = .ok i) ∧
  (∃ l : List Word, l.Nodup ∧ l.length = 261 ∧ ∀ w, w ∈ l ↔ ∃ i, decode .c w = .ok i)

/-- 30_encoding R84: a written command denotes a command exactly when its operand is in range, and then the one it spells. -/
def Obligations.WrittenCommands : Prop := ∀ (t : Term) (i : Instr), t.toInstr = some i ↔ i.term = t

/-! ## The step (00_scope R13, 10_state R20, R23) -/

/-- A step runs the decoded command: the agent leaves the schedule, the host's index moves on by one, and the command
runs. The order of the three within the step is log 16's choice. -/
def Obligations.StepRunsCommand : Prop :=
  (∀ (s : State) (rest : List Agent) (w : Word) (i : Instr), s.sched = .portP :: rest →
    s.hostP.cmds[s.hostP.idx]? = some w → decode .p w = .ok i →
    step s = exec i { s with sched := rest, hostP := { s.hostP with idx := s.hostP.idx + 1 } }) ∧
  (∀ (s : State) (rest : List Agent) (w : Word) (i : Instr), s.sched = .portC :: rest →
    s.hostC.cmds[s.hostC.idx]? = some w → decode .c w = .ok i →
    step s = exec i { s with sched := rest, hostC := { s.hostC with idx := s.hostC.idx + 1 } })

/-- 30_encoding R79, 60_exceptions R205: an illegal word answers `0xE0000000`, records code 5 if the port has no fault, and
changes nothing else. -/
def Obligations.IllegalWordFaults : Prop :=
  (∀ (s : State) (rest : List Agent) (w : Word) (e : Illegal), s.sched = .portP :: rest →
    s.hostP.cmds[s.hostP.idx]? = some w → decode .p w = .error e →
    step s = .next { s with
      sched := rest
      pFault := if s.pFault = 0#3 then 5#3 else s.pFault
      hostP := { s.hostP with idx := s.hostP.idx + 1, rsps := s.hostP.rsps ++ [0xE0000000#32] } }) ∧
  (∀ (s : State) (rest : List Agent) (w : Word) (e : Illegal), s.sched = .portC :: rest →
    s.hostC.cmds[s.hostC.idx]? = some w → decode .c w = .error e →
    step s = .next { s with
      sched := rest
      cFault := if s.cFault = 0#3 then 5#3 else s.cFault
      hostC := { s.hostC with idx := s.hostC.idx + 1, rsps := s.hostC.rsps ++ [0xE0000000#32] } })

/-- 43_cdc_sync R183, R184: one step of a synchroniser that has a stage moves every stage at once, gives no response, and changes nothing where
every stage already equals its pointer. -/
def Obligations.SynchronisersShift : Prop :=
  (∀ (s : State) (rest : List Agent), s.sched = .syncW :: rest → s.wq ≠ [] →
    ∃ q : List Ptr, step s = .next { s with sched := rest, wq := q } ∧ q.length = s.wq.length ∧
      (∀ k, k < s.wq.length → q[k]? = if k = 0 then some s.wptr else s.wq[k - 1]?) ∧
      ((∀ x ∈ s.wq, x = s.wptr) → q = s.wq)) ∧
  (∀ (s : State) (rest : List Agent), s.sched = .syncR :: rest → s.rq ≠ [] →
    ∃ q : List Ptr, step s = .next { s with sched := rest, rq := q } ∧ q.length = s.rq.length ∧
      (∀ k, k < s.rq.length → q[k]? = if k = 0 then some s.rptr else s.rq[k - 1]?) ∧
      ((∀ x ∈ s.rq, x = s.rptr) → q = s.rq))

/-- The model's choices of log 4 and log 5: with nothing scheduled the state stays, a port whose host presents no word takes
no command, and a synchroniser with no stage does nothing. -/
def Obligations.IdleTurns : Prop :=
  (∀ s : State, s.sched = [] → step s = .next s) ∧
  (∀ (s : State) (rest : List Agent), s.sched = .portP :: rest → s.hostP.cmds[s.hostP.idx]? = none →
    step s = .next { s with sched := rest }) ∧
  (∀ (s : State) (rest : List Agent), s.sched = .portC :: rest → s.hostC.cmds[s.hostC.idx]? = none →
    step s = .next { s with sched := rest }) ∧
  (∀ (s : State) (rest : List Agent), s.sched = .syncW :: rest → s.wq = [] → step s = .next { s with sched := rest }) ∧
  (∀ (s : State) (rest : List Agent), s.sched = .syncR :: rest → s.rq = [] → step s = .next { s with sched := rest })

/-- How the host places an instruction (log 9): the very next step runs it, on the block as it was. -/
def Obligations.PlacedWordRuns : Prop :=
  ∀ (s : State) (w : Nat) (i : Instr), decodeTableWord 16 w = some i →
    ∃ u : State, step (s.withFetchWord 16 w) = exec i u ∧ SameBlock s u ∧ u.cfg = s.cfg ∧
      u.hostP.rsps = s.hostP.rsps ∧ u.hostC.rsps = s.hostC.rsps

/-! ## Reset and status (10_state R36 to R40, 70_reset_and_hazards R230) -/

/-- The reset state of a build (10_state R40): every register 0, every stage present and 0, no byte with a value, and the
derived values; and 70_reset_and_hazards R230, R232: asserted in any state, reset gives the block that state in one event and
no response on either port. That the hosts and the schedule stay is log 10's choice. -/
def Obligations.ResetState : Prop :=
  State.reset = State.resetOf Config.default ∧
  (∀ (c : Config) (s : State), s = State.resetOf c →
    s.cfg = c ∧ s.wptr = 0#8 ∧ s.rptr = 0#8 ∧ s.pAct = false ∧ s.cAct = false ∧ s.wcnt = 0#8 ∧ s.cLen = 0#8 ∧
    s.pFault = 0#3 ∧ s.cFault = 0#3 ∧
    s.rq.length = c.stages ∧ (∀ x ∈ s.rq, x = 0#8) ∧ s.wq.length = c.stages ∧ (∀ x ∈ s.wq, x = 0#8) ∧
    (∀ a, memGet s.slot a = none) ∧
    fullP s = false ∧ emptyC s = true ∧ pStatus s = 0x0000#16 ∧ cStatus s = 0x0001#16 ∧
    pNotFull s = true ∧ pFaulted s = false ∧ cNotEmpty s = false ∧ cFaulted s = false) ∧
  ∀ s : State,
    SameBlock (State.resetOf s.cfg) (applyReset s) ∧ (applyReset s).cfg = s.cfg ∧
    (applyReset s).hostP = s.hostP ∧ (applyReset s).hostC = s.hostC ∧ (applyReset s).sched = s.sched

/-- 10_state R37, R38, 41_producer R127, 42_consumer R155: the fields of the status registers, and that the status commands
answer them whether the port is faulted or not and change nothing else. -/
def Obligations.StatusRegisters : Prop :=
  (∀ s : State,
    (pStatus s).getLsbD 0 = fullP s ∧ (pStatus s).getLsbD 1 = s.pAct ∧ (pStatus s).extractLsb' 2 3 = s.pFault ∧
    (pStatus s).extractLsb' 5 3 = 0#3 ∧ (pStatus s).extractLsb' 8 8 = s.wcnt ∧
    exec .pStat s = .next (answerP s ((pStatus s).setWidth 32)) ∧ encode .pStat = 0x7000#16) ∧
  (∀ s : State,
    (cStatus s).getLsbD 0 = emptyC s ∧ (cStatus s).getLsbD 1 = s.cAct ∧ (cStatus s).extractLsb' 2 3 = s.cFault ∧
    (cStatus s).extractLsb' 5 3 = 0#3 ∧ (cStatus s).extractLsb' 8 8 = s.cLen ∧
    exec .cStat s = .next (answerC s ((cStatus s).setWidth 32)) ∧ encode .cStat = 0xD000#16)

/-! ## Gray code, views and flags (43_cdc_sync R180 to R187, R197, R198) -/

/-- 43_cdc_sync R180, R181: the bits of both conversions at every width, and that they are inverse. -/
def Obligations.GrayInverse : Prop :=
  ∀ (w : Nat) (b : Ptr), 1 ≤ w → w ≤ 8 → b.toNat < 2 ^ w →
    (∀ k, k < 8 → (b2g b).getLsbD k = (b.getLsbD k ^^ b.getLsbD (k + 1))) ∧
    (g2b w b).getLsbD (w - 1) = b.getLsbD (w - 1) ∧
    (∀ k, k + 1 < w → (g2b w b).getLsbD k = ((g2b w b).getLsbD (k + 1) ^^ b.getLsbD k)) ∧
    g2b w (b2g b) = b ∧ b2g (g2b w b) = b ∧ (b2g b).toNat < 2 ^ w ∧ (g2b w b).toNat < 2 ^ w

/-- 43_cdc_sync R182, R188: an increment flips exactly one bit below `PTR_W`, the wrap included, and counts by one. -/
def Obligations.GrayIncOneBit : Prop :=
  ∀ (w : Nat) (g : Ptr), 1 ≤ w → w ≤ 8 → g.toNat < 2 ^ w →
    (∃ k, k < w ∧ grayInc w g = g ^^^ (1#8 <<< k)) ∧ (g2b w (grayInc w g)).toNat = ((g2b w g).toNat + 1) % 2 ^ w

/-- 43_cdc_sync R185: a view is the last stage, or the pointer where there is none; `S` steps of a synchroniser after a
pointer's last change, every stage and the view show it. -/
def Obligations.ViewsCatchUp : Prop :=
  ∀ s : State, s.wq.length = s.cfg.stages → s.rq.length = s.cfg.stages →
    (s.cfg.stages = 0 → wsync s = s.wptr ∧ rsync s = s.rptr) ∧
    (1 ≤ s.cfg.stages → s.wq[s.cfg.stages - 1]? = some (wsync s) ∧ s.rq[s.cfg.stages - 1]? = some (rsync s)) ∧
    (∀ n, s.cfg.stages ≤ n →
      (syncW^[n] s).wq = List.replicate s.cfg.stages s.wptr ∧ wsync (syncW^[n] s) = s.wptr ∧
      (syncR^[n] s).rq = List.replicate s.cfg.stages s.rptr ∧ rsync (syncR^[n] s) = s.rptr)

/-- 43_cdc_sync R196: in every weakly fair infinite execution, a committed slot that is not removed is seen by port C after
finitely many steps, and a removed one by port P where no commit follows, and from then on for good, so a host that retries
`C_HASDATA` or `P_FREE` sees it; `S` steps of the synchroniser suffice in every execution; and without fairness neither holds. -/
def Obligations.FairViewsCatchUp : Prop :=
  (∀ (agents : Nat → Agent) (run : Nat → State) (n : Nat), Execution agents run → Invariant (run n) →
    occupancy (run n) = 1 → (∀ m, n ≤ m → rc (run m) = rc (run n)) →
    (WeaklyFair agents run → ∃ k, n ≤ k ∧ ∀ m, k ≤ m → emptyC (run m) = false ∧
      ((run m).cFault = 0#3 → exec .cHasdata (run m) = .next (answerC (run m) 1#32))) ∧
    (∀ k, (run n).cfg.stages ≤ stepsOf .syncW agents n k → emptyC (run (n + k)) = false)) ∧
  (∀ (agents : Nat → Agent) (run : Nat → State) (n : Nat), Execution agents run → Invariant (run n) →
    occupancy (run n) = 0 → (∀ m, n ≤ m → wc (run m) = wc (run n)) →
    (WeaklyFair agents run → ∃ k, n ≤ k ∧ ∀ m, k ≤ m → fullP (run m) = false ∧
      ((run m).pFault = 0#3 → exec .pFree (run m) = .next (answerP (run m) (BitVec.ofNat 32 (run m).cfg.maxPayload)))) ∧
    (∀ k, (run n).cfg.stages ≤ stepsOf .syncR agents n k → fullP (run (n + k)) = false)) ∧
  (∃ (agents : Nat → Agent) (run : Nat → State), Execution agents run ∧ Invariant (run 0) ∧ occupancy (run 0) = 1 ∧
    (∀ m, rc (run m) = rc (run 0)) ∧ ∀ m, emptyC (run m) = true) ∧
  (∃ (agents : Nat → Agent) (run : Nat → State), Execution agents run ∧ Invariant (run 0) ∧ occupancy (run 0) = 0 ∧
    (∀ m, wc (run m) = wc (run 0)) ∧ ∀ m, fullP (run m) = true)

/-- 43_cdc_sync R186, R187: the flags as wrapped differences of the counts, at least `CAP` = 1 and equal to 0; which is
`WPTR ≠ RSYNC` and `WSYNC = RPTR`. -/
def Obligations.FlagFormulas : Prop :=
  ∀ s : State, WellFormed s →
    (fullP s = true ↔
      1 ≤ ((g2b s.cfg.ptrW s.wptr).toNat + 2 ^ s.cfg.ptrW - (g2b s.cfg.ptrW (rsync s)).toNat) % 2 ^ s.cfg.ptrW) ∧
    (fullP s = true ↔ s.wptr ≠ rsync s) ∧
    (emptyC s = true ↔
      ((g2b s.cfg.ptrW (wsync s)).toNat + 2 ^ s.cfg.ptrW - (g2b s.cfg.ptrW s.rptr).toNat) % 2 ^ s.cfg.ptrW = 0) ∧
    (emptyC s = true ↔ wsync s = s.rptr)

/-- 43_cdc_sync R197: the one-bit form. The pointers and views are single bits, the conversions are the identity, an increment
is a toggle, and each flag is one gate. -/
def Obligations.OneBitForm : Prop :=
  (∀ g : Ptr, g.toNat < 2 → b2g g = g ∧ g2b 1 g = g ∧ grayInc 1 g = g ^^^ 1#8) ∧
  ∀ s : State, WellFormed s → s.cfg.ptrW = 1 →
    s.wptr.toNat < 2 ∧ s.rptr.toNat < 2 ∧ (wsync s).toNat < 2 ∧ (rsync s).toNat < 2 ∧
    fullP s = (s.wptr.getLsbD 0 ^^ (rsync s).getLsbD 0) ∧ emptyC s = !((wsync s).getLsbD 0 ^^ s.rptr.getLsbD 0)

/-- 43_cdc_sync R198: with no synchroniser each flag is the occupancy. -/
def Obligations.SingleClockForm : Prop :=
  ∀ s : State, Invariant s → s.cfg.stages = 0 →
    wsync s = s.wptr ∧ rsync s = s.rptr ∧ (fullP s = true ↔ occupancy s = 1) ∧ (emptyC s = true ↔ occupancy s = 0)

/-! ## Header codec (40_codec_split R101, R102) -/

/-- 40_codec_split R101, R102: the bytes of a header, that decoding ignores bits 7:2 of the first and checks nothing, and the
round trip. -/
def Obligations.HeaderCodec : Prop :=
  (∀ (llid : BitVec 2) (len : Byte),
    (encodeHeader llid len).1.extractLsb' 0 2 = llid ∧ (encodeHeader llid len).1.extractLsb' 2 6 = 0#6 ∧
    (encodeHeader llid len).2 = len ∧
    decodeHeader (encodeHeader llid len).1 (encodeHeader llid len).2 = { llid := llid, length := len }) ∧
  (∀ h0 h1 : Byte, (decodeHeader h0 h1).llid = h0.extractLsb' 0 2 ∧ (decodeHeader h0 h1).length = h1)

/-! ## Producer commands (41_producer R121 to R126). P_STAT is in `StatusRegisters`. -/

/-- 41_producer R121. -/
def Obligations.PFreeAnswers : Prop :=
  encode .pFree = 0x1000#16 ∧
  ∀ s : State, s.cfg.Valid → s.pFault = 0#3 →
    exec .pFree s = .next (answerP s (if fullP s then 0#32 else BitVec.ofNat 32 s.cfg.maxPayload))

/-- 41_producer R122: the checks in order, `PROTOCOL`, `CAP_EXCEEDED`, `END_OF_CAPACITY`, and the open transaction, in which
`n` leaves no trace. -/
def Obligations.PBeginResult : Prop :=
  ∀ n : BitVec 8,
    encode (.pBegin n) = (0x2000#16 ||| n.setWidth 16) ∧
    ∀ s : State, s.cfg.Valid → s.pFault = 0#3 →
      exec (.pBegin n) s =
        if s.pAct then .next (answerP { s with pFault := 4#3 } 0xE0000000#32)
        else if s.cfg.maxPayload < n.toNat then .next (answerP { s with pFault := 1#3 } 0xE0000000#32)
        else if fullP s then .next (answerP s 0x10000000#32)
        else .next (answerP { s with pAct := true, wcnt := 0#8 } (BitVec.ofNat 32 s.cfg.maxPayload))

/-- 41_producer R123: `PROTOCOL`, `WRITER_FULL`, and the write of byte `2 + WCNT`, which is the only byte that changes. -/
def Obligations.PWriteResult : Prop :=
  ∀ b : BitVec 8,
    encode (.pWrite b) = (0x3000#16 ||| b.setWidth 16) ∧
    ∀ s : State, s.cfg.Valid → s.pFault = 0#3 → s.wcnt.toNat ≤ s.cfg.maxPayload →
      (s.pAct = false → exec (.pWrite b) s = .next (answerP { s with pFault := 4#3 } 0xE0000000#32)) ∧
      (s.pAct = true → s.wcnt.toNat = s.cfg.maxPayload → exec (.pWrite b) s = .next (answerP s 0x30000000#32)) ∧
      (s.pAct = true → s.wcnt.toNat < s.cfg.maxPayload →
        ∃ m : Memory,
          exec (.pWrite b) s =
            .next (answerP { s with slot := m, wcnt := BitVec.ofNat 8 (s.wcnt.toNat + 1) }
              (BitVec.ofNat 32 (s.cfg.maxPayload - (s.wcnt.toNat + 1)))) ∧
          (s.wcnt.toNat + 1 < 256) ∧
          memGet m (2 + s.wcnt.toNat) = some b ∧
          (∀ a, a ≠ 2 + s.wcnt.toNat → memGet m a = memGet s.slot a) ∧ (Memory.wf s.slot → Memory.wf m))

/-- 41_producer R124, within the range of `WCNT` (10_state R28). -/
def Obligations.PSpaceAnswers : Prop :=
  encode .pSpace = 0x4000#16 ∧
  ∀ s : State, s.cfg.Valid → s.pFault = 0#3 → s.wcnt.toNat ≤ s.cfg.maxPayload →
    exec .pSpace s =
      if s.pAct then .next (answerP s (BitVec.ofNat 32 (s.cfg.maxPayload - s.wcnt.toNat)))
      else .next (answerP { s with pFault := 4#3 } 0xE0000000#32)

/-- 41_producer R125: `PROTOCOL`, `INV_ENQUEUE`, and the commit, in one step: header byte 0 is the tag with bits 7:2 zero,
header byte 1 is `WCNT`, `WPTR` counts on by one, the transaction closes, and the length is answered. -/
def Obligations.PCommitResult : Prop :=
  ∀ llid : BitVec 2,
    encode (.pCommit llid) = (0x5000#16 ||| (llid.setWidth 16 <<< 8)) ∧
    ∀ s : State, s.cfg.Valid → s.pFault = 0#3 →
      (s.pAct = false → exec (.pCommit llid) s = .next (answerP { s with pFault := 4#3 } 0xE0000000#32)) ∧
      (s.pAct = true → fullP s = true → exec (.pCommit llid) s = .next (answerP { s with pFault := 2#3 } 0xE0000000#32)) ∧
      (s.pAct = true → fullP s = false →
        ∃ m : Memory,
          exec (.pCommit llid) s =
            .next (answerP
              { s with
                slot := m, pAct := false, wcnt := 0#8
                wptr := b2g (BitVec.ofNat 8 (((g2b s.cfg.ptrW s.wptr).toNat + 1) % 2 ^ s.cfg.ptrW)) }
              (s.wcnt.setWidth 32)) ∧
          memGet m 0 = some (0#6 ++ llid) ∧ memGet m 1 = some s.wcnt ∧
          (∀ a, a ≠ 0 → a ≠ 1 → memGet m a = memGet s.slot a) ∧ (Memory.wf s.slot → Memory.wf m))

/-- 41_producer R126: the storage and `WPTR` are untouched. -/
def Obligations.PCancelResult : Prop :=
  encode .pCancel = 0x6000#16 ∧
  ∀ s : State, s.pFault = 0#3 →
    exec .pCancel s =
      if s.pAct then .next (answerP { s with pAct := false, wcnt := 0#8 } 0#32)
      else .next (answerP { s with pFault := 4#3 } 0xE0000000#32)

/-! ## Consumer commands (42_consumer R151 to R154). C_STAT is in `StatusRegisters`. -/

/-- 42_consumer R151. -/
def Obligations.CHasdataAnswers : Prop :=
  encode .cHasdata = 0x9000#16 ∧
  ∀ s : State, s.cFault = 0#3 → exec .cHasdata s = .next (answerC s (if emptyC s then 0#32 else 1#32))

/-- 42_consumer R152: `PROTOCOL`, `END_OF_DATA`, then the header of the slot: `MALFORMED_LENGTH`, which changes nothing, or
the open transaction. -/
def Obligations.CPeekResult : Prop :=
  encode .cPeek = 0xA000#16 ∧
  ∀ s : State, s.cFault = 0#3 →
    (s.cAct = true → exec .cPeek s = .next (answerC { s with cFault := 4#3 } 0xE0000000#32)) ∧
    (s.cAct = false → emptyC s = true → exec .cPeek s = .next (answerC s 0x20000000#32)) ∧
    (∀ h0 h1 : Byte, s.cAct = false → emptyC s = false → memGet s.slot 0 = some h0 → memGet s.slot 1 = some h1 →
      exec .cPeek s =
        if s.cfg.maxPayload < h1.toNat then .next (answerC s 0x50000000#32)
        else .next (answerC { s with cAct := true, cLen := h1 } (0#16 ++ (0#6 ++ h0.extractLsb' 0 2) ++ h1)))

/-- 42_consumer R153: `PROTOCOL`, `READ_BOUNDS`, and payload byte `i`. -/
def Obligations.CReadResult : Prop :=
  ∀ i : BitVec 8,
    encode (.cRead i) = (0xB000#16 ||| i.setWidth 16) ∧
    ∀ s : State, s.cFault = 0#3 →
      (s.cAct = false → exec (.cRead i) s = .next (answerC { s with cFault := 4#3 } 0xE0000000#32)) ∧
      (s.cAct = true → s.cLen.toNat ≤ i.toNat → exec (.cRead i) s = .next (answerC s 0x40000000#32)) ∧
      (∀ v : Byte, s.cAct = true → i.toNat < s.cLen.toNat → i.toNat < s.cfg.maxPayload →
        memGet s.slot (2 + i.toNat) = some v → exec (.cRead i) s = .next (answerC s (v.setWidth 32)))

/-- 42_consumer R154: `PROTOCOL`, `INV_DEQUEUE` for `f` = 1 only, the removal and the keep. -/
def Obligations.CReleaseResult : Prop :=
  encode (.cRelease true) = 0xC100#16 ∧ encode (.cRelease false) = 0xC000#16 ∧
  ∀ s : State, s.cfg.Valid → s.cFault = 0#3 →
    (∀ f, s.cAct = false → exec (.cRelease f) s = .next (answerC { s with cFault := 4#3 } 0xE0000000#32)) ∧
    (s.cAct = true → emptyC s = true → exec (.cRelease true) s = .next (answerC { s with cFault := 3#3 } 0xE0000000#32)) ∧
    (s.cAct = true → emptyC s = false →
      exec (.cRelease true) s =
        .next (answerC
          { s with
            cAct := false, cLen := 0#8
            rptr := b2g (BitVec.ofNat 8 (((g2b s.cfg.ptrW s.rptr).toNat + 1) % 2 ^ s.cfg.ptrW)) } 1#32)) ∧
    (s.cAct = true → exec (.cRelease false) s = .next (answerC { s with cAct := false, cLen := 0#8 } 0#32))

/-- 20_memory R66: a read of a byte that holds no value is the model-only fault `UnwrittenRead`, which ends the step
(log 6). -/
def Obligations.UnwrittenReadStops : Prop :=
  (∀ s : State, s.cFault = 0#3 → s.cAct = false → emptyC s = false → (memGet s.slot 0 = none ∨ memGet s.slot 1 = none) →
    exec .cPeek s = .fault .unwrittenRead) ∧
  (∀ (s : State) (i : BitVec 8), s.cFault = 0#3 → s.cAct = true → i.toNat < s.cLen.toNat → i.toNat < s.cfg.maxPayload →
    memGet s.slot (2 + i.toNat) = none → exec (.cRead i) s = .fault .unwrittenRead)

/-! ## Faults (60_exceptions) -/

/-- 60_exceptions R207, R205: every command out of its transaction sequence, and that only these record code 4. -/
def Obligations.ProtocolFaults : Prop :=
  (∀ (s : State) (i : Instr), s.pFault = 0#3 →
    ((s.pAct = true ∧ ∃ n, i = .pBegin n) ∨
     (s.pAct = false ∧ ((∃ b, i = .pWrite b) ∨ i = .pSpace ∨ (∃ llid, i = .pCommit llid) ∨ i = .pCancel)) →
      exec i s = .next (answerP { s with pFault := 4#3 } 0xE0000000#32)) ∧
    (i = .pFree ∨ i = .pStat → ∃ t, exec i s = .next t ∧ t.pFault = 0#3)) ∧
  (∀ (s : State) (i : Instr), s.cFault = 0#3 →
    ((s.cAct = true ∧ i = .cPeek) ∨ (s.cAct = false ∧ ((∃ k, i = .cRead k) ∨ (∃ f, i = .cRelease f))) →
      exec i s = .next (answerC { s with cFault := 4#3 } 0xE0000000#32)) ∧
    (i = .cHasdata ∨ i = .cStat → ∃ t, exec i s = .next t ∧ t.cFault = 0#3))

/-- 60_exceptions R206: a faulted port answers `0xE0000000` to every command but its status command, and nothing changes. -/
def Obligations.FaultedPortAnswers : Prop :=
  (∀ (s : State) (i : Instr), i.port = .p → i ≠ .pStat → s.pFault ≠ 0#3 → exec i s = .next (answerP s 0xE0000000#32)) ∧
  (∀ (s : State) (i : Instr), i.port = .c → i ≠ .cStat → s.cFault ≠ 0#3 → exec i s = .next (answerC s 0xE0000000#32))

/-- 60_exceptions R203, R205, R212: no step clears or replaces a recorded code, and a step changes a fault field only as a
step of its own port. -/
def Obligations.FaultsSticky : Prop :=
  ∀ s t : State, step s = .next t →
    (s.pFault ≠ 0#3 → t.pFault = s.pFault) ∧ (s.cFault ≠ 0#3 → t.cFault = s.cFault) ∧
    (t.pFault ≠ s.pFault → s.sched.head? = some .portP) ∧ (t.cFault ≠ s.cFault → s.sched.head? = some .portC)

/-- 60_exceptions R203, R211: the step that records a fault changes nothing else of the block. -/
def Obligations.FaultsPrecise : Prop :=
  ∀ s t : State, step s = .next t →
    (t.pFault ≠ s.pFault →
      t.wptr = s.wptr ∧ t.rq = s.rq ∧ t.pAct = s.pAct ∧ t.wcnt = s.wcnt ∧ SameDomainC s t ∧ t.slot = s.slot) ∧
    (t.cFault ≠ s.cFault →
      t.rptr = s.rptr ∧ t.wq = s.wq ∧ t.cAct = s.cAct ∧ t.cLen = s.cLen ∧ SameDomainP s t ∧ t.slot = s.slot)

/-! ## Responses and frames -/

/-- 30_encoding R71, R80, 60_exceptions R200: a command gives exactly one response, on its own port; bits 27:16 are 0, and
`HI` = `LO` = 0 unless `RC` is `OK`. -/
def Obligations.OneResponse : Prop :=
  ∀ (i : Instr) (s t : State), exec i s = .next t →
    ∃ r : Response,
      r.extractLsb' 16 12 = 0#12 ∧
      (r.extractLsb' 28 4 = 0x0#4 ∨ (r.extractLsb' 28 4 ∈ [0x1#4, 0x2#4, 0x3#4, 0x4#4, 0x5#4, 0xE#4] ∧ r.extractLsb' 0 16 = 0#16)) ∧
      (i.port = .p → t.hostP.rsps = s.hostP.rsps ++ [r] ∧ t.hostC.rsps = s.hostC.rsps) ∧
      (i.port = .c → t.hostC.rsps = s.hostC.rsps ++ [r] ∧ t.hostP.rsps = s.hostP.rsps)

/-- The frame of the producer commands: domain C, `RQ`, the build and the inputs never change; `WPTR` only by P_COMMIT,
`P_ACT` only by P_BEGIN, P_COMMIT and P_CANCEL, `WCNT` by those and P_WRITE; of the storage P_WRITE may change byte
`2 + WCNT` and P_COMMIT bytes 0 and 1, and no other command any (10_state R25 to R29, 20_memory R50, R54). -/
def Obligations.ProducerFrame : Prop :=
  ∀ (i : Instr) (s t : State), i.port = .p → exec i s = .next t →
    SameDomainC s t ∧ SameInputs s t ∧ t.rq = s.rq ∧ (s.pFault ≠ 0#3 → t.pFault = s.pFault) ∧
    ((∀ llid, i ≠ .pCommit llid) → t.wptr = s.wptr) ∧
    ((∀ n, i ≠ .pBegin n) → (∀ llid, i ≠ .pCommit llid) → i ≠ .pCancel → t.pAct = s.pAct) ∧
    ((∀ n, i ≠ .pBegin n) → (∀ b, i ≠ .pWrite b) → (∀ llid, i ≠ .pCommit llid) → i ≠ .pCancel → t.wcnt = s.wcnt) ∧
    (∀ a, (∀ b, i = .pWrite b → a ≠ payloadAddr s.wcnt) → (∀ llid, i = .pCommit llid → a ≠ 0 ∧ a ≠ 1) →
      memGet t.slot a = memGet s.slot a)

/-- The frame of the consumer commands: domain P, `WQ`, the storage, the build and the inputs never change; `RPTR` only by
C_RELEASE 1, `C_ACT` and `C_LEN` only by C_PEEK and C_RELEASE (10_state R30 to R34, 20_memory R56). -/
def Obligations.ConsumerFrame : Prop :=
  ∀ (i : Instr) (s t : State), i.port = .c → exec i s = .next t →
    SameDomainP s t ∧ SameInputs s t ∧ t.wq = s.wq ∧ SameSlot s t ∧ t.slot = s.slot ∧
    (s.cFault ≠ 0#3 → t.cFault = s.cFault) ∧
    (i ≠ .cRelease true → t.rptr = s.rptr) ∧
    (i ≠ .cPeek → (∀ f, i ≠ .cRelease f) → t.cAct = s.cAct ∧ t.cLen = s.cLen)

/-- 20_memory R56: the queries, and C_READ answered from an open transaction, change no state of the block. -/
def Obligations.QueriesChangeNothing : Prop :=
  ∀ (i : Instr) (s t : State), exec i s = .next t →
    (i = .pFree ∨ i = .pStat ∨ i = .cHasdata ∨ i = .cStat ∨ (i = .pSpace ∧ s.pAct = true) ∨ (s.cAct = true ∧ ∃ k, i = .cRead k)) →
    SameBlock s t

/-- 10_state R21: every register has exactly one writer agent, and no agent writes the parameters (R24). -/
def Obligations.SingleWriter : Prop :=
  ∀ s t : State, step s = .next t →
    t.cfg = s.cfg ∧
    (s.sched.head? ≠ some .portP →
      t.wptr = s.wptr ∧ t.pAct = s.pAct ∧ t.wcnt = s.wcnt ∧ t.pFault = s.pFault ∧ t.slot = s.slot ∧ t.hostP = s.hostP) ∧
    (s.sched.head? ≠ some .portC →
      t.rptr = s.rptr ∧ t.cAct = s.cAct ∧ t.cLen = s.cLen ∧ t.cFault = s.cFault ∧ t.hostC = s.hostC) ∧
    (s.sched.head? ≠ some .syncW → t.wq = s.wq) ∧ (s.sched.head? ≠ some .syncR → t.rq = s.rq)

/-- 10_state R21, R42: where the synchronisers have a stage, what a producer command answers and writes depends on domain P
alone, and what a consumer command answers and writes on domain C and the storage alone. -/
def Obligations.DomainsIsolated : Prop :=
  (∀ (i : Instr) (s1 s2 t1 t2 : State), i.port = .p → s1.rq ≠ [] → s2.cfg = s1.cfg → SameDomainP s1 s2 →
    s2.hostP = s1.hostP → exec i s1 = .next t1 → exec i s2 = .next t2 → SameDomainP t1 t2 ∧ t2.hostP = t1.hostP) ∧
  (∀ (i : Instr) (s1 s2 t1 t2 : State), i.port = .c → s1.wq ≠ [] → s2.cfg = s1.cfg → SameDomainC s1 s2 → SameSlot s1 s2 →
    s2.hostC = s1.hostC → exec i s1 = .next t1 → exec i s2 = .next t2 → SameDomainC t1 t2 ∧ t2.hostC = t1.hostC)

/-! ## Invariants -/

/-- Every step keeps the ranges of the registers, the canonical form of the storage and the hosts' bookkeeping, in every state
that meets them, whatever the pointers say (10_state R25 to R35, 20_memory R53). -/
def Obligations.WellFormedKept : Prop := ∀ s t : State, WellFormed s → step s = .next t → WellFormed t

/-- 43_cdc_sync R191, 70_reset_and_hazards R251: both invariants hold after reset and at the start of every run. -/
def Obligations.InvariantAtLaunch : Prop :=
  (WellFormed State.reset ∧ Invariant State.reset) ∧
  ∀ (c : Config) (ps cs : List Word) (sched : List Agent), c.Valid →
    WellFormed (launch c ps cs sched) ∧ Invariant (launch c ps cs sched)

/-- 43_cdc_sync R191, R194: every step keeps the invariant, in every state that meets it, for any words and any schedule. -/
def Obligations.InvariantKept : Prop := ∀ s t : State, Invariant s → step s = .next t → Invariant t

/-- 20_memory R66, 70_reset_and_hazards R249: under the invariant every step completes; there is no `UnwrittenRead`
(log 6), no access outside the slot (log 7) and no refusal. -/
def Obligations.EveryStepCompletes : Prop := ∀ s : State, Invariant s → ∃ t, step s = .next t

/-! ## Rules about the whole machine -/

/-- 43_cdc_sync R192: the flags err only on the safe side. -/
def Obligations.FlagsSafeSide : Prop :=
  ∀ s : State, Invariant s →
    rc s ≤ wc s ∧ wc s ≤ rc s + 1 ∧ (fullP s = false → occupancy s = 0) ∧ (emptyC s = false → occupancy s = 1)

/-- 43_cdc_sync R193: transactions exclude each other, and the two unreachable faults are not raised. -/
def Obligations.TransactionsExclude : Prop :=
  ∀ s : State, Invariant s →
    (s.pAct = true → occupancy s = 0 ∧ fullP s = false ∧ emptyC s = true ∧ s.cAct = false) ∧
    (s.cAct = true → occupancy s = 1 ∧ emptyC s = false ∧ fullP s = true ∧ s.pAct = false) ∧
    (∀ llid t, exec (.pCommit llid) s = .next t → t.pFault = s.pFault ∨ t.pFault ≠ 2#3) ∧
    (∀ t, exec (.cRelease true) s = .next t → t.cFault = s.cFault ∨ t.cFault ≠ 3#3)

/-- 60_exceptions R208, 42_consumer R158: no run from reset records `INV_ENQUEUE` or `INV_DEQUEUE`. -/
def Obligations.UnreachableFaults : Prop :=
  ∀ (c : Config) (ps cs : List Word) (sched : List Agent) (k : Nat) (u : State), c.Valid →
    Host.Core.run core k (launch c ps cs sched) = .next u → u.pFault ≠ 2#3 ∧ u.cFault ≠ 3#3

/-- 41_producer R128, R129: a commit answered `OK` leaves in the slot a header whose length is the number of `P_WRITE`s
answered `OK` in its transaction, and exactly those bytes. -/
def Obligations.MeasuredLength : Prop :=
  ∀ (s : State) (llid : BitVec 2), Invariant s → s.pFault = 0#3 → s.pAct = true →
    ∃ t, exec (.pCommit llid) s = .next t ∧
      HoldsPdu t.slot { llid := llid, payload := (producerView s.hostP).writing } ∧
      (producerView s.hostP).writing.length ≤ s.cfg.maxPayload ∧
      (producerView s.hostP).writing.length = s.wcnt.toNat

/-- 20_memory R60: PortP changes the storage only while it is empty and port C cannot read it; while port C can, PortP
cannot write. -/
def Obligations.ExclusiveAccess : Prop :=
  ∀ s : State, Invariant s →
    (∀ t, step s = .next t → t.slot ≠ s.slot → occupancy s = 0 ∧ s.cAct = false ∧ emptyC s = true) ∧
    (emptyC s = false ∨ s.cAct = true → occupancy s = 1 ∧ s.pAct = false ∧ fullP s = true)

/-- 20_memory R60 (c), 42_consumer R156: a visible slot stays as it is, and visible, until its removal, whatever the agents do. -/
def Obligations.SlotStable : Prop :=
  ∀ (s u : State) (k : Nat), Invariant s → emptyC s = false → Host.Core.run core k s = .next u → rc u = rc s →
    u.slot = s.slot ∧ emptyC u = false ∧ wc u = wc s

/-- 42_consumer R156: until the removal, every peek answers the same `OK` header, and every read of an offset the same byte. -/
def Obligations.NonDestructivePeek : Prop :=
  ∀ (s u : State) (k : Nat), Invariant s → emptyC s = false → Host.Core.run core k s = .next u → rc u = rc s →
    s.cFault = 0#3 → u.cFault = 0#3 →
    (s.cAct = false → u.cAct = false →
      ∃ s1 u1 r, exec .cPeek s = .next s1 ∧ exec .cPeek u = .next u1 ∧ rspCode r = 0x0#4 ∧
        lastResponse .c s1 = some r ∧ lastResponse .c u1 = some r) ∧
    (s.cAct = true → u.cAct = true →
      u.cLen = s.cLen ∧
      ∀ i : BitVec 8, i.toNat < s.cLen.toNat →
        ∃ s1 u1 r, exec (.cRead i) s = .next s1 ∧ exec (.cRead i) u = .next u1 ∧ rspCode r = 0x0#4 ∧
          lastResponse .c s1 = some r ∧ lastResponse .c u1 = some r)

/-- 42_consumer R159, R158: a removal succeeds and the queue is empty in the next state, whatever the synchronisers hold. -/
def Obligations.EmptyAtOnce : Prop :=
  ∀ s : State, Invariant s → s.cFault = 0#3 → s.cAct = true →
    ∃ t, exec (.cRelease true) s = .next t ∧ lastResponse .c t = some 1#32 ∧ emptyC t = true

/-- 43_cdc_sync R194: first in, first out, with no loss and no duplication, in every run from reset, for any words on either
port and any schedule. -/
def Obligations.FirstInFirstOut : Prop :=
  ∀ (c : Config) (ps cs : List Word) (sched : List Agent) (k : Nat) (u : State), c.Valid →
    Host.Core.run core k (launch c ps cs sched) = .next u →
    Fifo u ∧ (consumerView u.hostC).removed ≤ (producerView u.hostP).committed.length

/-- 70_reset_and_hazards R240: a commit answered `OK` becomes visible to port C exactly at the `S`-th SyncW step after it. -/
def Obligations.CommitLatency : Prop :=
  ∀ (s t : State) (rest : List Agent) (llid : BitVec 2), Invariant s → s.sched = .portP :: rest →
    s.hostP.cmds[s.hostP.idx]? = some (encode (.pCommit llid)) → s.pFault = 0#3 → s.pAct = true → step s = .next t →
    ∀ (k : Nat) (u : State), Host.Core.run core k t = .next u →
      (((t.sched.take k).filter (fun a => a = .syncW)).length < s.cfg.stages → emptyC u = true) ∧
      (s.cfg.stages ≤ ((t.sched.take k).filter (fun a => a = .syncW)).length → rc u = rc t → emptyC u = false)

/-- 70_reset_and_hazards R241: a removal becomes visible to port P exactly at the `S`-th SyncR step after it. -/
def Obligations.ReleaseLatency : Prop :=
  ∀ (s t : State) (rest : List Agent), Invariant s → s.sched = .portC :: rest →
    s.hostC.cmds[s.hostC.idx]? = some (encode (.cRelease true)) → s.cFault = 0#3 → s.cAct = true → step s = .next t →
    ∀ (k : Nat) (u : State), Host.Core.run core k t = .next u →
      (((t.sched.take k).filter (fun a => a = .syncR)).length < s.cfg.stages → fullP u = true) ∧
      (s.cfg.stages ≤ ((t.sched.take k).filter (fun a => a = .syncR)).length → wc u = wc t → fullP u = false)

/-- 60_exceptions R210, 43_cdc_sync R189: with a synchroniser between them, commands on the two ports give the same states and
responses in either order, and complete in the one order exactly where they complete in the other. -/
def Obligations.PortsCommute : Prop :=
  ∀ (s b : State) (ip ic : Instr), Invariant s → 1 ≤ s.cfg.stages → ip.port = .p → ic.port = .c →
    ((∃ a, exec ip s = .next a ∧ exec ic a = .next b) ↔ ∃ a, exec ic s = .next a ∧ exec ip a = .next b)

/-- 70_reset_and_hazards R243: a slot whose length exceeds `MAX_PAYLOAD` stays, whatever the agents do; every `C_PEEK` answers
`MALFORMED_LENGTH` again and the producer sees the slot full. -/
def Obligations.MalformedStays : Prop :=
  ∀ s : State, Wedged s →
    (∃ t, step s = .next t ∧ Wedged t ∧ t.slot = s.slot) ∧
    (s.cFault = 0#3 → exec .cPeek s = .next (answerC s 0x50000000#32)) ∧
    (s.pFault = 0#3 → exec .pFree s = .next (answerP s 0#32))

/-- 70_reset_and_hazards R250: at an end of run no agent can step: a step changes nothing but the schedule (which is
log 4's), and a good end stays one. -/
def Obligations.EndOfRunStays : Prop :=
  ∀ s t : State, EndOfRun s → step s = .next t →
    t = { s with sched := s.sched.tail } ∧ EndOfRun t ∧ (GoodEnd s → GoodEnd t)
end

