-- ==== Sys2Proof/Laws/State.lean ====
section
/-! SUPPORT. What each named update of the state leaves and what it writes, one lemma per field. -/

namespace Sys2Proof.Machine

/-! ## `respond` gives a response and touches nothing else -/

@[simp] theorem respond_cfg (port : Port) (rc : RespCode) (hi lo : Byte) (s : State) : (respond port rc hi lo s).cfg = s.cfg := by cases port <;> rfl
@[simp] theorem respond_wptr (port : Port) (rc : RespCode) (hi lo : Byte) (s : State) : (respond port rc hi lo s).wptr = s.wptr := by cases port <;> rfl
@[simp] theorem respond_rq (port : Port) (rc : RespCode) (hi lo : Byte) (s : State) : (respond port rc hi lo s).rq = s.rq := by cases port <;> rfl
@[simp] theorem respond_pAct (port : Port) (rc : RespCode) (hi lo : Byte) (s : State) : (respond port rc hi lo s).pAct = s.pAct := by cases port <;> rfl
@[simp] theorem respond_wcnt (port : Port) (rc : RespCode) (hi lo : Byte) (s : State) : (respond port rc hi lo s).wcnt = s.wcnt := by cases port <;> rfl
@[simp] theorem respond_pFault (port : Port) (rc : RespCode) (hi lo : Byte) (s : State) : (respond port rc hi lo s).pFault = s.pFault := by cases port <;> rfl
@[simp] theorem respond_rptr (port : Port) (rc : RespCode) (hi lo : Byte) (s : State) : (respond port rc hi lo s).rptr = s.rptr := by cases port <;> rfl
@[simp] theorem respond_wq (port : Port) (rc : RespCode) (hi lo : Byte) (s : State) : (respond port rc hi lo s).wq = s.wq := by cases port <;> rfl
@[simp] theorem respond_cAct (port : Port) (rc : RespCode) (hi lo : Byte) (s : State) : (respond port rc hi lo s).cAct = s.cAct := by cases port <;> rfl
@[simp] theorem respond_cLen (port : Port) (rc : RespCode) (hi lo : Byte) (s : State) : (respond port rc hi lo s).cLen = s.cLen := by cases port <;> rfl
@[simp] theorem respond_cFault (port : Port) (rc : RespCode) (hi lo : Byte) (s : State) : (respond port rc hi lo s).cFault = s.cFault := by cases port <;> rfl
@[simp] theorem respond_slot (port : Port) (rc : RespCode) (hi lo : Byte) (s : State) : (respond port rc hi lo s).slot = s.slot := by cases port <;> rfl
@[simp] theorem respond_sched (port : Port) (rc : RespCode) (hi lo : Byte) (s : State) : (respond port rc hi lo s).sched = s.sched := by cases port <;> rfl
@[simp] theorem respond_p_hostC (rc : RespCode) (hi lo : Byte) (s : State) : (respond .p rc hi lo s).hostC = s.hostC := rfl
@[simp] theorem respond_p_hostP (rc : RespCode) (hi lo : Byte) (s : State) :
    (respond .p rc hi lo s).hostP = s.hostP.receive (respWord rc hi lo) := rfl
@[simp] theorem respond_c_hostP (rc : RespCode) (hi lo : Byte) (s : State) : (respond .c rc hi lo s).hostP = s.hostP := rfl
@[simp] theorem respond_c_hostC (rc : RespCode) (hi lo : Byte) (s : State) :
    (respond .c rc hi lo s).hostC = s.hostC.receive (respWord rc hi lo) := rfl

/-! ## `recordFault` writes the fault field of its port and nothing else -/

@[simp] theorem recordFault_cfg (port : Port) (code : FaultCode) (s : State) : (recordFault port code s).cfg = s.cfg := by
  unfold recordFault; split <;> cases port <;> rfl
@[simp] theorem recordFault_wptr (port : Port) (code : FaultCode) (s : State) : (recordFault port code s).wptr = s.wptr := by
  unfold recordFault; split <;> cases port <;> rfl
@[simp] theorem recordFault_rq (port : Port) (code : FaultCode) (s : State) : (recordFault port code s).rq = s.rq := by
  unfold recordFault; split <;> cases port <;> rfl
@[simp] theorem recordFault_pAct (port : Port) (code : FaultCode) (s : State) : (recordFault port code s).pAct = s.pAct := by
  unfold recordFault; split <;> cases port <;> rfl
@[simp] theorem recordFault_wcnt (port : Port) (code : FaultCode) (s : State) : (recordFault port code s).wcnt = s.wcnt := by
  unfold recordFault; split <;> cases port <;> rfl
@[simp] theorem recordFault_rptr (port : Port) (code : FaultCode) (s : State) : (recordFault port code s).rptr = s.rptr := by
  unfold recordFault; split <;> cases port <;> rfl
@[simp] theorem recordFault_wq (port : Port) (code : FaultCode) (s : State) : (recordFault port code s).wq = s.wq := by
  unfold recordFault; split <;> cases port <;> rfl
@[simp] theorem recordFault_cAct (port : Port) (code : FaultCode) (s : State) : (recordFault port code s).cAct = s.cAct := by
  unfold recordFault; split <;> cases port <;> rfl
@[simp] theorem recordFault_cLen (port : Port) (code : FaultCode) (s : State) : (recordFault port code s).cLen = s.cLen := by
  unfold recordFault; split <;> cases port <;> rfl
@[simp] theorem recordFault_slot (port : Port) (code : FaultCode) (s : State) : (recordFault port code s).slot = s.slot := by
  unfold recordFault; split <;> cases port <;> rfl
@[simp] theorem recordFault_hostP (port : Port) (code : FaultCode) (s : State) : (recordFault port code s).hostP = s.hostP := by
  unfold recordFault; split <;> cases port <;> rfl
@[simp] theorem recordFault_hostC (port : Port) (code : FaultCode) (s : State) : (recordFault port code s).hostC = s.hostC := by
  unfold recordFault; split <;> cases port <;> rfl
@[simp] theorem recordFault_sched (port : Port) (code : FaultCode) (s : State) : (recordFault port code s).sched = s.sched := by
  unfold recordFault; split <;> cases port <;> rfl
@[simp] theorem recordFault_p_cFault (code : FaultCode) (s : State) : (recordFault .p code s).cFault = s.cFault := by
  unfold recordFault; split <;> rfl
@[simp] theorem recordFault_p_pFault (code : FaultCode) (s : State) :
    (recordFault .p code s).pFault = if s.pFault = 0#3 then code.code else s.pFault := by
  by_cases h : s.pFault = 0#3 <;> simp [recordFault, portFault, h]
@[simp] theorem recordFault_c_pFault (code : FaultCode) (s : State) : (recordFault .c code s).pFault = s.pFault := by
  unfold recordFault; split <;> rfl
@[simp] theorem recordFault_c_cFault (code : FaultCode) (s : State) :
    (recordFault .c code s).cFault = if s.cFault = 0#3 then code.code else s.cFault := by
  by_cases h : s.cFault = 0#3 <;> simp [recordFault, portFault, h]

/-! ## `advance` moves its host's index and nothing else -/

@[simp] theorem advance_cfg (port : Port) (s : State) : (advance port s).cfg = s.cfg := by cases port <;> rfl
@[simp] theorem advance_wptr (port : Port) (s : State) : (advance port s).wptr = s.wptr := by cases port <;> rfl
@[simp] theorem advance_rq (port : Port) (s : State) : (advance port s).rq = s.rq := by cases port <;> rfl
@[simp] theorem advance_pAct (port : Port) (s : State) : (advance port s).pAct = s.pAct := by cases port <;> rfl
@[simp] theorem advance_wcnt (port : Port) (s : State) : (advance port s).wcnt = s.wcnt := by cases port <;> rfl
@[simp] theorem advance_pFault (port : Port) (s : State) : (advance port s).pFault = s.pFault := by cases port <;> rfl
@[simp] theorem advance_rptr (port : Port) (s : State) : (advance port s).rptr = s.rptr := by cases port <;> rfl
@[simp] theorem advance_wq (port : Port) (s : State) : (advance port s).wq = s.wq := by cases port <;> rfl
@[simp] theorem advance_cAct (port : Port) (s : State) : (advance port s).cAct = s.cAct := by cases port <;> rfl
@[simp] theorem advance_cLen (port : Port) (s : State) : (advance port s).cLen = s.cLen := by cases port <;> rfl
@[simp] theorem advance_cFault (port : Port) (s : State) : (advance port s).cFault = s.cFault := by cases port <;> rfl
@[simp] theorem advance_slot (port : Port) (s : State) : (advance port s).slot = s.slot := by cases port <;> rfl
@[simp] theorem advance_sched (port : Port) (s : State) : (advance port s).sched = s.sched := by cases port <;> rfl
@[simp] theorem advance_p_hostC (s : State) : (advance .p s).hostC = s.hostC := rfl
@[simp] theorem advance_p_hostP (s : State) :
    (advance .p s).hostP = { s.hostP with idx := s.hostP.idx + 1 } := rfl
@[simp] theorem advance_c_hostP (s : State) : (advance .c s).hostP = s.hostP := rfl
@[simp] theorem advance_c_hostC (s : State) :
    (advance .c s).hostC = { s.hostC with idx := s.hostC.idx + 1 } := rfl

/-! ## `present` touches a host's stream and the schedule -/

@[simp] theorem present_cfg (port : Port) (w : Word) (s : State) : (present port w s).cfg = s.cfg := by cases port <;> rfl
@[simp] theorem present_wptr (port : Port) (w : Word) (s : State) : (present port w s).wptr = s.wptr := by cases port <;> rfl
@[simp] theorem present_rq (port : Port) (w : Word) (s : State) : (present port w s).rq = s.rq := by cases port <;> rfl
@[simp] theorem present_pAct (port : Port) (w : Word) (s : State) : (present port w s).pAct = s.pAct := by cases port <;> rfl
@[simp] theorem present_wcnt (port : Port) (w : Word) (s : State) : (present port w s).wcnt = s.wcnt := by cases port <;> rfl
@[simp] theorem present_pFault (port : Port) (w : Word) (s : State) : (present port w s).pFault = s.pFault := by cases port <;> rfl
@[simp] theorem present_rptr (port : Port) (w : Word) (s : State) : (present port w s).rptr = s.rptr := by cases port <;> rfl
@[simp] theorem present_wq (port : Port) (w : Word) (s : State) : (present port w s).wq = s.wq := by cases port <;> rfl
@[simp] theorem present_cAct (port : Port) (w : Word) (s : State) : (present port w s).cAct = s.cAct := by cases port <;> rfl
@[simp] theorem present_cLen (port : Port) (w : Word) (s : State) : (present port w s).cLen = s.cLen := by cases port <;> rfl
@[simp] theorem present_cFault (port : Port) (w : Word) (s : State) : (present port w s).cFault = s.cFault := by cases port <;> rfl
@[simp] theorem present_slot (port : Port) (w : Word) (s : State) : (present port w s).slot = s.slot := by cases port <;> rfl
@[simp] theorem present_p_sched (w : Word) (s : State) : (present .p w s).sched = .portP :: s.sched := rfl
@[simp] theorem present_c_sched (w : Word) (s : State) : (present .c w s).sched = .portC :: s.sched := rfl

/-! ## The synchronisers write their own stages -/

@[simp] theorem syncW_cfg (s : State) : (syncW s).cfg = s.cfg := rfl
@[simp] theorem syncW_wptr (s : State) : (syncW s).wptr = s.wptr := rfl
@[simp] theorem syncW_rq (s : State) : (syncW s).rq = s.rq := rfl
@[simp] theorem syncW_pAct (s : State) : (syncW s).pAct = s.pAct := rfl
@[simp] theorem syncW_wcnt (s : State) : (syncW s).wcnt = s.wcnt := rfl
@[simp] theorem syncW_pFault (s : State) : (syncW s).pFault = s.pFault := rfl
@[simp] theorem syncW_rptr (s : State) : (syncW s).rptr = s.rptr := rfl
@[simp] theorem syncW_cAct (s : State) : (syncW s).cAct = s.cAct := rfl
@[simp] theorem syncW_cLen (s : State) : (syncW s).cLen = s.cLen := rfl
@[simp] theorem syncW_cFault (s : State) : (syncW s).cFault = s.cFault := rfl
@[simp] theorem syncW_slot (s : State) : (syncW s).slot = s.slot := rfl
@[simp] theorem syncW_hostP (s : State) : (syncW s).hostP = s.hostP := rfl
@[simp] theorem syncW_hostC (s : State) : (syncW s).hostC = s.hostC := rfl
@[simp] theorem syncW_sched (s : State) : (syncW s).sched = s.sched := rfl
@[simp] theorem syncR_cfg (s : State) : (syncR s).cfg = s.cfg := rfl
@[simp] theorem syncR_wptr (s : State) : (syncR s).wptr = s.wptr := rfl
@[simp] theorem syncR_pAct (s : State) : (syncR s).pAct = s.pAct := rfl
@[simp] theorem syncR_wcnt (s : State) : (syncR s).wcnt = s.wcnt := rfl
@[simp] theorem syncR_pFault (s : State) : (syncR s).pFault = s.pFault := rfl
@[simp] theorem syncR_rptr (s : State) : (syncR s).rptr = s.rptr := rfl
@[simp] theorem syncR_wq (s : State) : (syncR s).wq = s.wq := rfl
@[simp] theorem syncR_cAct (s : State) : (syncR s).cAct = s.cAct := rfl
@[simp] theorem syncR_cLen (s : State) : (syncR s).cLen = s.cLen := rfl
@[simp] theorem syncR_cFault (s : State) : (syncR s).cFault = s.cFault := rfl
@[simp] theorem syncR_slot (s : State) : (syncR s).slot = s.slot := rfl
@[simp] theorem syncR_hostP (s : State) : (syncR s).hostP = s.hostP := rfl
@[simp] theorem syncR_hostC (s : State) : (syncR s).hostC = s.hostC := rfl
@[simp] theorem syncR_sched (s : State) : (syncR s).sched = s.sched := rfl
@[simp] theorem syncW_wq (s : State) : (syncW s).wq = shiftChain s.wq s.wptr := rfl
@[simp] theorem syncR_rq (s : State) : (syncR s).rq = shiftChain s.rq s.rptr := rfl

/-! ## `portFault` and the flags read what they read -/

@[simp] theorem portFault_p (s : State) : portFault .p s = s.pFault := rfl
@[simp] theorem portFault_c (s : State) : portFault .c s = s.cFault := rfl
@[simp] theorem hostOf_p (s : State) : hostOf .p s = s.hostP := rfl
@[simp] theorem hostOf_c (s : State) : hostOf .c s = s.hostC := rfl
@[simp] theorem receive_cmds (h : HostStream) (r : Response) : (h.receive r).cmds = h.cmds := rfl
@[simp] theorem receive_idx (h : HostStream) (r : Response) : (h.receive r).idx = h.idx := rfl
@[simp] theorem receive_rsps (h : HostStream) (r : Response) : (h.receive r).rsps = h.rsps ++ [r] := rfl

/-- `FULL_P` depends on the registers of its own domain, and on `RPTR` only where there is no stage. -/
theorem fullP_congr (s t : State) (hc : t.cfg = s.cfg) (hw : t.wptr = s.wptr) (hr : rsync t = rsync s) : fullP t = fullP s := by
  simp only [fullP, hc, hw, hr]

/-- `EMPTY_C` depends on the registers of its own domain, and on `WPTR` only where there is no stage. -/
theorem emptyC_congr (s t : State) (hc : t.cfg = s.cfg) (hr : t.rptr = s.rptr) (hw : wsync t = wsync s) : emptyC t = emptyC s := by
  simp only [emptyC, hc, hr, hw]

@[simp] theorem fullP_respond (port : Port) (rc : RespCode) (hi lo : Byte) (s : State) : fullP (respond port rc hi lo s) = fullP s :=
  fullP_congr _ _ (by simp) (by simp) (by simp [rsync])
@[simp] theorem emptyC_respond (port : Port) (rc : RespCode) (hi lo : Byte) (s : State) : emptyC (respond port rc hi lo s) = emptyC s :=
  emptyC_congr _ _ (by simp) (by simp) (by simp [wsync])
@[simp] theorem fullP_advance (port : Port) (s : State) : fullP (advance port s) = fullP s :=
  fullP_congr _ _ (by simp) (by simp) (by simp [rsync])
@[simp] theorem emptyC_advance (port : Port) (s : State) : emptyC (advance port s) = emptyC s :=
  emptyC_congr _ _ (by simp) (by simp) (by simp [wsync])
@[simp] theorem fullP_recordFault (port : Port) (code : FaultCode) (s : State) : fullP (recordFault port code s) = fullP s :=
  fullP_congr _ _ (by simp) (by simp) (by simp [rsync])
@[simp] theorem emptyC_recordFault (port : Port) (code : FaultCode) (s : State) : emptyC (recordFault port code s) = emptyC s :=
  emptyC_congr _ _ (by simp) (by simp) (by simp [wsync])

end Sys2Proof.Machine
end

