-- ==== Sys2Proof/Laws/Ops.lean ====
section
/-! SUPPORT. What the shared operations do: the storage, the responses, the faulted-port check, fault entry and the host's
presented word. Cite these instead of unfolding the operations. -/

namespace Sys2Proof.Machine

/-! ## Storage -/

theorem memGet_memPut_same (m : Memory) (a : Nat) (v : Byte) : memGet (memPut m a v) a = some v := by
  induction m with
  | nil => simp [memPut, memGet]
  | cons x rest ih =>
    obtain ⟨b, u⟩ := x
    unfold memPut
    split
    · simp [memGet]
    · split
      · simp [memGet]
      · rename_i h; simp [memGet, ih, Ne.symm h]

theorem memGet_memPut_other (m : Memory) (a b : Nat) (v : Byte) (h : b ≠ a) : memGet (memPut m a v) b = memGet m b := by
  induction m with
  | nil => simp [memPut, memGet, Ne.symm h]
  | cons x rest ih =>
    obtain ⟨c, u⟩ := x
    unfold memPut
    split
    · simp [memGet, Ne.symm h]
    · split
      · rename_i hc; subst hc; simp [memGet, Ne.symm h]
      · simp only [memGet, ih]

@[simp] theorem memGet_memPut (m : Memory) (a b : Nat) (v : Byte) :
    memGet (memPut m a v) b = if b = a then some v else memGet m b := by
  split
  · rename_i h; subst h; exact memGet_memPut_same m b v
  · rename_i h; exact memGet_memPut_other m a b v h

/-- Every address listed after a write was listed before, or is the one written. -/
theorem mem_memPut (m : Memory) (a : Nat) (v : Byte) (e : Host.Cell) (h : e ∈ memPut m a v) : e = (a, v) ∨ e ∈ m := by
  induction m with
  | nil => simpa [memPut] using h
  | cons x rest ih =>
    obtain ⟨b, u⟩ := x
    unfold memPut at h
    split at h
    · simpa using h
    · split at h
      · rcases List.mem_cons.1 h with h | h
        · exact .inl h
        · exact .inr (List.mem_cons_of_mem _ h)
      · rcases List.mem_cons.1 h with h | h
        · exact .inr (h ▸ List.mem_cons_self)
        · exact (ih h).imp id (List.mem_cons_of_mem _)

theorem wf_nil : Memory.wf [] := List.Pairwise.nil

/-- A write keeps the canonical form. -/
theorem wf_memPut (m : Memory) (a : Nat) (v : Byte) (h : Memory.wf m) : Memory.wf (memPut m a v) := by
  induction m with
  | nil => simp [memPut, Memory.wf]
  | cons x rest ih =>
    obtain ⟨b, u⟩ := x
    obtain ⟨hb, hr⟩ := List.pairwise_cons.1 h
    unfold memPut
    split
    · rename_i hab
      exact List.pairwise_cons.2 ⟨fun e he => by
        rcases List.mem_cons.1 he with he | he
        · subst he; exact hab
        · exact lt_trans hab (hb e he), h⟩
    · split
      · rename_i hab; subst hab; exact List.pairwise_cons.2 ⟨fun e he => hb e he, hr⟩
      · rename_i hlt hne
        exact List.pairwise_cons.2 ⟨fun e he => by
          rcases mem_memPut rest a v e he with he | he
          · subst he; exact lt_of_le_of_ne (Nat.le_of_not_lt hlt) (Ne.symm hne)
          · exact hb e he, ih hr⟩

/-- In the canonical form an address reads the byte listed for it. -/
theorem memGet_of_mem (m : Memory) (a : Nat) (v : Byte) (hwf : Memory.wf m) (h : (a, v) ∈ m) : memGet m a = some v := by
  induction m with
  | nil => cases h
  | cons x rest ih =>
    obtain ⟨b, u⟩ := x
    obtain ⟨hb, hr⟩ := List.pairwise_cons.1 hwf
    rcases List.mem_cons.1 h with h | h
    · cases h; simp [memGet]
    · have := hb _ h; simp only at this
      simp [memGet, Nat.ne_of_lt this, ih hr h]

/-- Everything `withByte` can do: it continues with the byte's value, or stops with one of the two model faults. -/
theorem withByte_cases (s : State) (a : Nat) (k : Byte → Result) :
    (∃ v, a < s.cfg.slotBytes ∧ memGet s.slot a = some v ∧ withByte s a k = k v) ∨
    (a < s.cfg.slotBytes ∧ memGet s.slot a = none ∧ withByte s a k = .fault .unwrittenRead) ∨
    (s.cfg.slotBytes ≤ a ∧ withByte s a k = .fault .noSlotByte) := by
  unfold withByte
  split
  · rename_i h
    cases hg : memGet s.slot a with
    | some v => exact .inl ⟨v, h, rfl, rfl⟩
    | none => exact .inr (.inl ⟨h, rfl, rfl⟩)
  · rename_i h; exact .inr (.inr ⟨Nat.le_of_not_lt h, rfl⟩)

theorem withByte_next (s t : State) (a : Nat) (k : Byte → Result) (h : withByte s a k = .next t) :
    ∃ v, a < s.cfg.slotBytes ∧ memGet s.slot a = some v ∧ k v = .next t := by
  rcases withByte_cases s a k with ⟨v, ha, hv, e⟩ | ⟨_, _, e⟩ | ⟨_, e⟩
  · exact ⟨v, ha, hv, e ▸ h⟩
  · rw [e] at h; cases h
  · rw [e] at h; cases h

theorem withByte_of (s : State) (a : Nat) (v : Byte) (k : Byte → Result) (ha : a < s.cfg.slotBytes)
    (hv : memGet s.slot a = some v) : withByte s a k = k v := by
  simp [withByte, ha, hv]

/-- Everything `storing` can do. -/
theorem storing_cases (s : State) (a : Nat) (v : Byte) (k : State → Result) :
    (a < s.cfg.slotBytes ∧ storing s a v k = k { s with slot := memPut s.slot a v }) ∨
    (s.cfg.slotBytes ≤ a ∧ storing s a v k = .fault .noSlotByte) := by
  unfold storing
  split
  · rename_i h; exact .inl ⟨h, rfl⟩
  · rename_i h; exact .inr ⟨Nat.le_of_not_lt h, rfl⟩

theorem storing_next (s t : State) (a : Nat) (v : Byte) (k : State → Result) (h : storing s a v k = .next t) :
    a < s.cfg.slotBytes ∧ k { s with slot := memPut s.slot a v } = .next t := by
  rcases storing_cases s a v k with ⟨ha, e⟩ | ⟨_, e⟩
  · exact ⟨ha, e ▸ h⟩
  · rw [e] at h; cases h

theorem storing_of (s : State) (a : Nat) (v : Byte) (k : State → Result) (ha : a < s.cfg.slotBytes) :
    storing s a v k = k { s with slot := memPut s.slot a v } := by
  simp [storing, ha]

/-- The header bytes and every byte of the payload region exist. -/
theorem header_exists (c : Config) : 0 < c.slotBytes ∧ 1 < c.slotBytes := by
  simp [Config.slotBytes, Config.hdrBytes]; omega

theorem payloadAddr_exists (c : Config) (i : Byte) (h : i.toNat < c.maxPayload) : payloadAddr i < c.slotBytes := by
  simp [payloadAddr, Config.slotBytes, Config.hdrBytes]; omega

/-! ## Responses and faults -/

/-- Everything `unlessFaulted` can do. -/
theorem unlessFaulted_cases (port : Port) (s : State) (body : Result) :
    (portFault port s ≠ 0#3 ∧ unlessFaulted port s body = .next (respond port .fault 0#8 0#8 s)) ∨
    (portFault port s = 0#3 ∧ unlessFaulted port s body = body) := by
  unfold unlessFaulted
  split
  · rename_i h; exact .inl ⟨h, rfl⟩
  · rename_i h; exact .inr ⟨not_not.1 h, rfl⟩

@[simp] theorem unlessFaulted_of (port : Port) (s : State) (body : Result) (h : portFault port s = 0#3) :
    unlessFaulted port s body = body := by
  simp [unlessFaulted, h]

/-- `RC`, `HI` and `LO` read back from the response word. -/
theorem respWord_toNat (c : RespCode) (hi lo : Byte) :
    (respWord c hi lo).toNat = c.code.toNat * 2 ^ 28 + hi.toNat * 2 ^ 8 + lo.toNat := by
  have h1 : hi.toNat < 256 := hi.isLt
  have h2 : lo.toNat < 256 := lo.isLt
  simp only [respWord, BitVec.toNat_append]
  rw [← Nat.shiftLeft_add_eq_or_of_lt (by simpa using h2), ← Nat.shiftLeft_add_eq_or_of_lt (by simpa using h1),
    ← Nat.shiftLeft_add_eq_or_of_lt (by simp)]
  simp [Nat.shiftLeft_eq]
  omega

/-! ## Hosts -/

/-- The word placed at a host's index is the one its port takes next. -/
theorem withNext_next (h : HostStream) (w : Word) : (h.withNext w).cmds[(h.withNext w).idx]? = some w := by
  have e : (h.withNext w).idx = (h.cmds.take h.idx).length := by simp [HostStream.withNext]
  rw [e]
  simp [HostStream.withNext]

theorem presented_present (port : Port) (w : Word) (s : State) : presented port (present port w s) = some w := by
  cases port
  · exact withNext_next s.hostP w
  · exact withNext_next s.hostC w

end Sys2Proof.Machine
end

