-- ==== Sys2Proof/Laws/Exec.lean ====
section
/-! SUPPORT. Everything a command and a step can do when they answer a next state: one inversion lemma for each port's
commands, and one for the step. Derive invariants and frames from these instead of unfolding `exec`. -/

namespace Sys2Proof.Machine

/-- The ways a producer command ends in a next state. -/
inductive ProducerEffect (s : State) : Instr → State → Prop where
  | turnedAway (i : Instr) (rc : RespCode) (h : rc ≠ .ok) : ProducerEffect s i (respond .p rc 0#8 0#8 s)
  | faulted (i : Instr) (code : FaultCode) (h0 : s.pFault = 0#3)
      (h : code = .capExceeded ∨ code = .protocol ∨ (code = .invEnqueue ∧ s.pAct = true ∧ fullP s = true)) :
      ProducerEffect s i (respond .p .fault 0#8 0#8 (recordFault .p code s))
  | query (i : Instr) (h : i = .pFree ∨ i = .pSpace ∨ i = .pStat) (hi lo : Byte) : ProducerEffect s i (respond .p .ok hi lo s)
  | opened (n : Byte) (h0 : s.pFault = 0#3) (ha : s.pAct = false) (hn : n.toNat ≤ s.cfg.maxPayload) (hf : fullP s = false) :
      ProducerEffect s (.pBegin n) (respond .p .ok 0#8 s.cfg.capacity { s with pAct := true, wcnt := 0#8 })
  | wrote (b : Byte) (h0 : s.pFault = 0#3) (ha : s.pAct = true) (hw : s.wcnt.toNat < s.cfg.maxPayload) :
      ProducerEffect s (.pWrite b) (respond .p .ok 0#8 (s.cfg.capacity - (s.wcnt + 1#8))
        { s with slot := memPut s.slot (payloadAddr s.wcnt) b, wcnt := s.wcnt + 1#8 })
  | committed (llid : BitVec 2) (h0 : s.pFault = 0#3) (ha : s.pAct = true) (hf : fullP s = false) :
      ProducerEffect s (.pCommit llid) (respond .p .ok 0#8 s.wcnt
        { s with
          slot := memPut (memPut s.slot 0 (llid.setWidth 8)) 1 s.wcnt
          wptr := grayInc s.cfg.ptrW s.wptr, pAct := false, wcnt := 0#8 })
  | cancelled (h0 : s.pFault = 0#3) (ha : s.pAct = true) :
      ProducerEffect s .pCancel (respond .p .ok 0#8 0#8 { s with pAct := false, wcnt := 0#8 })

/-- Everything a producer command can do. -/
theorem exec_producer (i : Instr) (s t : State) (hp : i.port = .p) (h : exec i s = .next t) : ProducerEffect s i t := by
  have away : ∀ {body : Result}, (portFault .p s = 0#3 → body = .next t → ProducerEffect s i t) →
      unlessFaulted .p s body = .next t → ProducerEffect s i t := by
    intro body k hu
    rcases unlessFaulted_cases .p s body with ⟨_, e⟩ | ⟨h0, e⟩
    · rw [e] at hu; cases hu; exact .turnedAway i .fault (by decide)
    · exact k h0 (e ▸ hu)
  cases i with
  | pFree =>
    refine away (fun _ hb => ?_) h
    split at hb <;> cases hb <;> exact .query _ (by simp) _ _
  | pBegin n =>
    refine away (fun h0 hb => ?_) h
    split at hb
    · cases hb; exact .faulted _ _ h0 (by simp)
    · rename_i ha
      split at hb
      · cases hb; exact .faulted _ _ h0 (by simp)
      · rename_i hn
        split at hb
        · cases hb; exact .turnedAway _ _ (by decide)
        · rename_i hf
          cases hb
          exact .opened n h0 (by simpa using ha) (by omega) (by simpa using hf)
  | pWrite b =>
    refine away (fun h0 hb => ?_) h
    split at hb
    · cases hb; exact .faulted _ _ h0 (by simp)
    · rename_i ha
      split at hb
      · cases hb; exact .turnedAway _ _ (by decide)
      · rename_i hf
        obtain ⟨hr, hb⟩ := storing_next _ _ _ _ _ hb
        cases hb
        refine .wrote b h0 (by simpa using ha) ?_
        simp only [writerFull, decide_eq_true_eq] at hf
        simp only [payloadAddr, Config.slotBytes] at hr
        omega
  | pSpace =>
    refine away (fun h0 hb => ?_) h
    split at hb
    · cases hb; exact .faulted _ _ h0 (by simp)
    · cases hb; exact .query _ (by simp) _ _
  | pCommit llid =>
    refine away (fun h0 hb => ?_) h
    split at hb
    · cases hb; exact .faulted _ _ h0 (by simp)
    · rename_i ha
      split at hb
      · rename_i hf
        cases hb; exact .faulted _ _ h0 (by simpa using ⟨by simpa using ha, hf⟩)
      · rename_i hf
        obtain ⟨_, hb⟩ := storing_next _ _ _ _ _ hb
        obtain ⟨_, hb⟩ := storing_next _ _ _ _ _ hb
        cases hb
        exact .committed llid h0 (by simpa using ha) (by simpa using hf)
  | pCancel =>
    refine away (fun h0 hb => ?_) h
    split at hb
    · cases hb; exact .faulted _ _ h0 (by simp)
    · rename_i ha
      cases hb; exact .cancelled h0 (by simpa using ha)
  | pStat => cases h; exact .query _ (by simp) _ _
  | cHasdata => cases hp
  | cPeek => cases hp
  | cRead _ => cases hp
  | cRelease _ => cases hp
  | cStat => cases hp

/-- The ways a consumer command ends in a next state. -/
inductive ConsumerEffect (s : State) : Instr → State → Prop where
  | turnedAway (i : Instr) (rc : RespCode) (h : rc ≠ .ok) : ConsumerEffect s i (respond .c rc 0#8 0#8 s)
  | faulted (i : Instr) (code : FaultCode) (h0 : s.cFault = 0#3)
      (h : code = .protocol ∨ (code = .invDequeue ∧ s.cAct = true ∧ emptyC s = true)) :
      ConsumerEffect s i (respond .c .fault 0#8 0#8 (recordFault .c code s))
  | query (i : Instr) (h : i = .cHasdata ∨ i = .cStat) (hi lo : Byte) : ConsumerEffect s i (respond .c .ok hi lo s)
  | opened (h0 : s.cFault = 0#3) (ha : s.cAct = false) (he : emptyC s = false) (b0 b1 : Byte)
      (g0 : memGet s.slot 0 = some b0) (g1 : memGet s.slot 1 = some b1) (hl : b1.toNat ≤ s.cfg.maxPayload) :
      ConsumerEffect s .cPeek (respond .c .ok ((b0.setWidth 2).setWidth 8) b1 { s with cAct := true, cLen := b1 })
  | read (i v : Byte) (h0 : s.cFault = 0#3) (ha : s.cAct = true) (hl : i.toNat < s.cLen.toNat)
      (g : memGet s.slot (payloadAddr i) = some v) : ConsumerEffect s (.cRead i) (respond .c .ok 0#8 v s)
  | removed (h0 : s.cFault = 0#3) (ha : s.cAct = true) (he : emptyC s = false) :
      ConsumerEffect s (.cRelease true) (respond .c .ok 0#8 1#8
        { s with rptr := grayInc s.cfg.ptrW s.rptr, cAct := false, cLen := 0#8 })
  | kept (h0 : s.cFault = 0#3) (ha : s.cAct = true) :
      ConsumerEffect s (.cRelease false) (respond .c .ok 0#8 0#8 { s with cAct := false, cLen := 0#8 })

/-- Everything a consumer command can do. -/
theorem exec_consumer (i : Instr) (s t : State) (hp : i.port = .c) (h : exec i s = .next t) : ConsumerEffect s i t := by
  have away : ∀ {body : Result}, (portFault .c s = 0#3 → body = .next t → ConsumerEffect s i t) →
      unlessFaulted .c s body = .next t → ConsumerEffect s i t := by
    intro body k hu
    rcases unlessFaulted_cases .c s body with ⟨_, e⟩ | ⟨h0, e⟩
    · rw [e] at hu; cases hu; exact .turnedAway i .fault (by decide)
    · exact k h0 (e ▸ hu)
  cases i with
  | pFree => cases hp
  | pBegin _ => cases hp
  | pWrite _ => cases hp
  | pSpace => cases hp
  | pCommit _ => cases hp
  | pCancel => cases hp
  | pStat => cases hp
  | cHasdata =>
    refine away (fun _ hb => ?_) h
    split at hb <;> cases hb <;> exact .query _ (by simp) _ _
  | cPeek =>
    refine away (fun h0 hb => ?_) h
    split at hb
    · cases hb; exact .faulted _ _ h0 (by simp)
    · rename_i ha
      split at hb
      · cases hb; exact .turnedAway _ _ (by decide)
      · rename_i he
        obtain ⟨b0, _, g0, hb⟩ := withByte_next _ _ _ _ hb
        obtain ⟨b1, _, g1, hb⟩ := withByte_next _ _ _ _ hb
        unfold openConsume at hb
        split at hb
        · cases hb; exact .turnedAway _ _ (by decide)
        · rename_i hl
          cases hb
          exact .opened h0 (by simpa using ha) (by simpa using he) b0 b1 g0 g1 (Nat.le_of_not_lt hl)
  | cRead i =>
    refine away (fun h0 hb => ?_) h
    split at hb
    · cases hb; exact .faulted _ _ h0 (by simp)
    · rename_i ha
      split at hb
      · cases hb; exact .turnedAway _ _ (by decide)
      · rename_i hl
        obtain ⟨v, _, g, hb⟩ := withByte_next _ _ _ _ hb
        cases hb
        exact .read i v h0 (by simpa using ha) (by simpa [BitVec.le_def] using hl) g
  | cRelease f =>
    refine away (fun h0 hb => ?_) h
    split at hb
    · cases hb; exact .faulted _ _ h0 (by simp)
    · rename_i ha
      split at hb
      · rename_i he
        cases hb
        simp only [Bool.and_eq_true] at he
        exact .faulted _ _ h0 (.inr ⟨rfl, by simpa using ha, he.2⟩)
      · rename_i he
        split at hb
        · rename_i hf
          subst hf
          cases hb
          exact .removed h0 (by simpa using ha) (by simpa using he)
        · rename_i hf
          obtain rfl : f = false := by simpa using hf
          cases hb
          exact .kept h0 (by simpa using ha)
  | cStat => cases h; exact .query _ (by simp) _ _

/-- The ways a step ends in a next state; `u` is the state with the agent taken off the schedule. -/
inductive StepEffect (s : State) : State → Prop where
  | idle (h : s.sched = []) : StepEffect s s
  | noWord (port : Port) (a : Agent) (rest : List Agent) (h : s.sched = a :: rest)
      (ha : a = match port with | .p => Agent.portP | .c => Agent.portC)
      (hn : presented port s = none) : StepEffect s { s with sched := rest }
  | illegal (port : Port) (a : Agent) (rest : List Agent) (h : s.sched = a :: rest)
      (ha : a = match port with | .p => Agent.portP | .c => Agent.portC) (w : Word) (e : Illegal)
      (hw : presented port s = some w) (hd : decode port w = .error e) :
      StepEffect s (respond port .fault 0#8 0#8 (recordFault port .illegal (advance port { s with sched := rest })))
  | command (port : Port) (a : Agent) (rest : List Agent) (t : State) (h : s.sched = a :: rest)
      (ha : a = match port with | .p => Agent.portP | .c => Agent.portC) (w : Word) (i : Instr)
      (hw : presented port s = some w) (hd : decode port w = .ok i)
      (hx : exec i (advance port { s with sched := rest }) = .next t) : StepEffect s t
  | syncW (rest : List Agent) (h : s.sched = .syncW :: rest) : StepEffect s (syncW { s with sched := rest })
  | syncR (rest : List Agent) (h : s.sched = .syncR :: rest) : StepEffect s (syncR { s with sched := rest })

/-- Taking an agent off the schedule does not change what the hosts present. -/
theorem presented_sched (port : Port) (s : State) (l : List Agent) : presented port { s with sched := l } = presented port s := by
  cases port <;> rfl

/-- Everything a step can do. -/
theorem step_effect (s t : State) (h : step s = .next t) : StepEffect s t := by
  have turn : ∀ (port : Port) (a : Agent) (rest : List Agent), s.sched = a :: rest →
      (a = match port with | .p => Agent.portP | .c => Agent.portC) →
      portTurn port { s with sched := rest } = .next t → StepEffect s t := by
    intro port a rest hs ha hp
    unfold portTurn at hp
    rw [presented_sched] at hp
    split at hp
    · rename_i hn; cases hp; exact .noWord port a rest hs ha hn
    · rename_i w hw
      split at hp
      · rename_i e hd; cases hp; exact .illegal port a rest hs ha w e hw hd
      · rename_i i hd; exact .command port a rest t hs ha w i hw hd hp
  unfold step scheduledTurn at h
  split at h
  · rename_i hs; cases h; exact .idle hs
  · rename_i a rest hs
    cases a with
    | portP => exact turn .p _ rest hs rfl h
    | portC => exact turn .c _ rest hs rfl h
    | syncW => cases h; exact .syncW rest hs
    | syncR => cases h; exact .syncR rest hs

/-- A command decoded at a port belongs to that port. -/
theorem decode_port (port : Port) (w : Word) (i : Instr) (h : decode port w = .ok i) : i.port = port := by
  unfold decode at h
  split at h
  · cases h
  · rename_i o _
    split at h
    · cases h
    · rename_i hp
      split at h
      · cases h
      · cases h
        rw [← not_not.1 hp]
        cases o <;> rfl

end Sys2Proof.Machine
end

