-- ==== Sys2Proof/Laws/Flags.lean ====
section
/-! SUPPORT. The synchroniser chain, the Gray pointers of counts, and the two flags in terms of counts (43_cdc_sync R180 to
R187, R190). -/

namespace Sys2Proof.Machine

/-! ## The chain -/

@[simp] theorem shiftChain_length (chain : List Ptr) (ptr : Ptr) : (shiftChain chain ptr).length = chain.length := by
  simp [shiftChain]

theorem shiftChain_nil (ptr : Ptr) : shiftChain [] ptr = [] := rfl

theorem shiftChain_cons (x : Ptr) (chain : List Ptr) (ptr : Ptr) : shiftChain (x :: chain) ptr = ptr :: (x :: chain).dropLast := rfl

/-- A shift keeps only values that were in the chain or in the pointer. -/
theorem mem_shiftChain (chain : List Ptr) (ptr x : Ptr) (h : x ∈ shiftChain chain ptr) : x = ptr ∨ x ∈ chain := by
  simpa using List.mem_of_mem_dropLast h

/-- Shifting a chain of images is the image of the shift. -/
theorem shiftChain_map (f : Nat → Ptr) (l : List Nat) (n : Nat) : shiftChain (l.map f) (f n) = ((n :: l).dropLast).map f := by
  simp [shiftChain, List.map_dropLast]

theorem lastStage_nil (ptr : Ptr) : lastStage [] ptr = ptr := rfl

theorem lastStage_cons (x : Ptr) (chain : List Ptr) (ptr : Ptr) : lastStage (x :: chain) ptr = lastStage chain x :=
  List.getLastD_cons

theorem lastStage_map (f : Nat → Ptr) (l : List Nat) (n : Nat) : lastStage (l.map f) (f n) = f (l.getLastD n) := by
  induction l generalizing n with
  | nil => rfl
  | cons x l ih => rw [List.map_cons, lastStage_cons, List.getLastD_cons]; exact ih x

theorem lastStage_mem (chain : List Ptr) (ptr : Ptr) : lastStage chain ptr = ptr ∨ lastStage chain ptr ∈ chain := by
  induction chain generalizing ptr with
  | nil => exact .inl rfl
  | cons x l ih =>
    rw [lastStage_cons]
    rcases ih x with h | h
    · rw [h]; exact .inr List.mem_cons_self
    · exact .inr (List.mem_cons_of_mem _ h)

/-! ## Pointers of counts -/

/-- `g2b` reads the wrapped count back from its pointer (the widths of 00_scope R7). -/
theorem g2b_grayOf (w n : Nat) (h1 : 1 ≤ w) (h8 : w ≤ 8) : g2b w (grayOf w n) = BitVec.ofNat 8 (n % 2 ^ w) := by
  have key : ∀ w, w ∈ List.range 9 → ∀ b : BitVec 8, b.toNat < 2 ^ w → g2b w (b2g b) = b := by decide
  have hlt : n % 2 ^ w < 2 ^ w := Nat.mod_lt _ (by positivity)
  have h256 : 2 ^ w ≤ 256 := by simpa using Nat.pow_le_pow_right (n := 2) (by norm_num) h8
  refine key w (List.mem_range.2 (by omega)) _ ?_
  rw [BitVec.toNat_ofNat, Nat.mod_eq_of_lt (by omega)]
  exact hlt

/-- `mod 2^PTR_W` by the mask. -/
theorem and_ptrMask (w : Nat) (h8 : w ≤ 8) (x : Ptr) : (x &&& ptrMask w) = BitVec.ofNat 8 (x.toNat % 2 ^ w) := by
  have key : ∀ w, w ∈ List.range 9 → ∀ b : BitVec 8, (b &&& ptrMask w) = BitVec.ofNat 8 (b.toNat % 2 ^ w) := by decide
  exact key w (List.mem_range.2 (by omega)) x

theorem grayOf_toNat (w n : Nat) (h1 : 1 ≤ w) (h8 : w ≤ 8) : (grayOf w n).toNat < 2 ^ w := by
  have key : ∀ w, w ∈ List.range 9 → ∀ b : BitVec 8, b.toNat < 2 ^ w → (b2g b).toNat < 2 ^ w := by decide
  have hlt : n % 2 ^ w < 2 ^ w := Nat.mod_lt _ (by positivity)
  have h256 : 2 ^ w ≤ 256 := by simpa using Nat.pow_le_pow_right (n := 2) (by norm_num) h8
  refine key w (List.mem_range.2 (by omega)) _ ?_
  rw [BitVec.toNat_ofNat, Nat.mod_eq_of_lt (by omega)]
  exact hlt

/-- The Gray increment of a count's pointer is the next count's pointer. -/
theorem grayInc_grayOf (w n : Nat) (h1 : 1 ≤ w) (h8 : w ≤ 8) : grayInc w (grayOf w n) = grayOf w (n + 1) := by
  have hp : 2 ^ w ∣ 256 := by
    have := Nat.pow_dvd_pow 2 h8; simpa using this
  have h256 : 2 ^ w ≤ 256 := Nat.le_of_dvd (by norm_num) hp
  have hlt : n % 2 ^ w < 2 ^ w := Nat.mod_lt _ (by positivity)
  rw [grayInc, g2b_grayOf w n h1 h8, and_ptrMask w h8, grayOf]
  congr 2
  rw [BitVec.toNat_add, BitVec.toNat_ofNat, Nat.mod_eq_of_lt (show n % 2 ^ w < 2 ^ 8 by omega)]
  simp only [Nat.reducePow]
  rw [Nat.mod_mod_of_dvd _ hp]
  simp [Nat.add_mod]

/-- The wrapped difference of two counts' pointers is the wrapped difference of the counts. -/
theorem ptrDiff_grayOf (w a b : Nat) (h1 : 1 ≤ w) (h8 : w ≤ 8) (hba : b ≤ a) :
    ptrDiff w (grayOf w a) (grayOf w b) = BitVec.ofNat 8 ((a - b) % 2 ^ w) := by
  have hp : 2 ^ w ∣ 256 := by
    have := Nat.pow_dvd_pow 2 h8; simpa using this
  have h256 : 2 ^ w ≤ 256 := Nat.le_of_dvd (by norm_num) hp
  have hb : b % 2 ^ w < 2 ^ w := Nat.mod_lt _ (by positivity)
  have ha : a % 2 ^ w < 2 ^ w := Nat.mod_lt _ (by positivity)
  rw [ptrDiff, g2b_grayOf w a h1 h8, g2b_grayOf w b h1 h8, and_ptrMask w h8]
  congr 1
  rw [BitVec.toNat_sub, BitVec.toNat_ofNat, BitVec.toNat_ofNat, Nat.mod_eq_of_lt (show b % 2 ^ w < 2 ^ 8 by omega),
    Nat.mod_eq_of_lt (show a % 2 ^ w < 2 ^ 8 by omega)]
  simp only [Nat.reducePow]
  rw [Nat.mod_mod_of_dvd _ hp]
  obtain ⟨d, rfl⟩ := Nat.exists_eq_add_of_le hba
  obtain ⟨q, hq⟩ := hp
  rw [Nat.add_sub_cancel_left]
  have e : (2 ^ w * q - b % 2 ^ w + (b + d) % 2 ^ w + b % 2 ^ w) % 2 ^ w = (d + b % 2 ^ w) % 2 ^ w := by
    rw [show 2 ^ w * q - b % 2 ^ w + (b + d) % 2 ^ w + b % 2 ^ w = 2 ^ w * q + (b + d) % 2 ^ w by omega]
    simp [Nat.add_mod, Nat.add_comm]
  rw [hq]
  exact Nat.ModEq.add_right_cancel' (b % 2 ^ w) e

/-- A one-bit window suffices to tell the two counts apart (43_cdc_sync R191). -/
theorem ptrDiff_window (w a b : Nat) (h1 : 1 ≤ w) (h8 : w ≤ 8) (hba : b ≤ a) (hab : a ≤ b + 1) :
    ptrDiff w (grayOf w a) (grayOf w b) = if a = b then 0#8 else 1#8 := by
  rw [ptrDiff_grayOf w a b h1 h8 hba]
  have h2 : 2 ≤ 2 ^ w := by simpa using Nat.pow_le_pow_right (n := 2) (by norm_num) h1
  rcases Nat.eq_or_lt_of_le hba with h | h
  · subst h; simp
  · have : a = b + 1 := by omega
    subst this
    simp [Nat.mod_eq_of_lt (show 1 < 2 ^ w by omega)]

/-! ## The flags -/

theorem fullP_eq (s : State) : fullP s = decide (ptrDiff s.cfg.ptrW s.wptr (rsync s) ≠ 0#8) := by
  unfold fullP Config.cap
  generalize ptrDiff s.cfg.ptrW s.wptr (rsync s) = d
  have : ∀ d : BitVec 8, decide (1 ≤ d.toNat) = decide (d ≠ 0#8) := by decide
  exact this d

end Sys2Proof.Machine
end

