-- ==== Sys2Proof/Laws/Fairness.lean ====
section
/-! SUPPORT. Infinite executions: what scheduling one agent changes, what a step of an execution can do, when a synchroniser is
enabled, and how fairness makes the count of its steps grow. -/

namespace Sys2Proof.Machine

@[simp] theorem scheduling_sched (a : Agent) (s : State) : (scheduling a s).sched = [a] := rfl
@[simp] theorem scheduling_cfg (a : Agent) (s : State) : (scheduling a s).cfg = s.cfg := rfl
@[simp] theorem scheduling_wptr (a : Agent) (s : State) : (scheduling a s).wptr = s.wptr := rfl
@[simp] theorem scheduling_rq (a : Agent) (s : State) : (scheduling a s).rq = s.rq := rfl
@[simp] theorem scheduling_pAct (a : Agent) (s : State) : (scheduling a s).pAct = s.pAct := rfl
@[simp] theorem scheduling_wcnt (a : Agent) (s : State) : (scheduling a s).wcnt = s.wcnt := rfl
@[simp] theorem scheduling_pFault (a : Agent) (s : State) : (scheduling a s).pFault = s.pFault := rfl
@[simp] theorem scheduling_rptr (a : Agent) (s : State) : (scheduling a s).rptr = s.rptr := rfl
@[simp] theorem scheduling_wq (a : Agent) (s : State) : (scheduling a s).wq = s.wq := rfl
@[simp] theorem scheduling_cAct (a : Agent) (s : State) : (scheduling a s).cAct = s.cAct := rfl
@[simp] theorem scheduling_cLen (a : Agent) (s : State) : (scheduling a s).cLen = s.cLen := rfl
@[simp] theorem scheduling_cFault (a : Agent) (s : State) : (scheduling a s).cFault = s.cFault := rfl
@[simp] theorem scheduling_slot (a : Agent) (s : State) : (scheduling a s).slot = s.slot := rfl
@[simp] theorem scheduling_hostP (a : Agent) (s : State) : (scheduling a s).hostP = s.hostP := rfl
@[simp] theorem scheduling_hostC (a : Agent) (s : State) : (scheduling a s).hostC = s.hostC := rfl

/-- A step of an execution is its agent's turn. -/
theorem step_scheduling (a : Agent) (s : State) : step (scheduling a s) = agentTurn a { s with sched := [] } := rfl

/-- Everything a step of an execution can do. -/
theorem execution_effect (agents : Nat → Agent) (run : Nat → State) (h : Execution agents run) (n : Nat) :
    StepEffect (scheduling (agents n) (run n)) (run (n + 1)) := step_effect _ _ (h n)

/-- A shift changes nothing exactly where every stage already equals the pointer. -/
theorem shiftChain_eq_self (chain : List Ptr) (ptr : Ptr) : shiftChain chain ptr = chain ↔ ∀ x ∈ chain, x = ptr := by
  induction chain generalizing ptr with
  | nil => simp [shiftChain_nil]
  | cons x l ih =>
    rw [shiftChain_cons, List.cons_eq_cons, List.forall_mem_cons]
    change ptr = x ∧ shiftChain l x = l ↔ _
    rw [ih]
    constructor
    · rintro ⟨rfl, h⟩; exact ⟨rfl, h⟩
    · rintro ⟨rfl, h⟩; exact ⟨rfl, h⟩

/-- A synchroniser is not enabled exactly where every stage already equals the pointer. -/
theorem syncEnabled_eq_false (chain : List Ptr) (ptr : Ptr) : syncEnabled chain ptr = false ↔ ∀ x ∈ chain, x = ptr := by
  rw [syncEnabled, decide_eq_false_iff_not, not_not, shiftChain_eq_self]

@[simp] theorem stepsOf_zero (a : Agent) (agents : Nat → Agent) (n : Nat) : stepsOf a agents n 0 = 0 := rfl

theorem stepsOf_succ (a : Agent) (agents : Nat → Agent) (n k : Nat) :
    stepsOf a agents n (k + 1) = stepsOf a agents n k + if agents (n + k) = a then 1 else 0 := by
  unfold stepsOf
  rw [List.range_succ, List.filter_append, List.length_append]
  congr 1
  split <;> simp [*]

/-- The count of an agent's steps never falls. -/
theorem stepsOf_mono (a : Agent) (agents : Nat → Agent) (n k l : Nat) (h : k ≤ l) :
    stepsOf a agents n k ≤ stepsOf a agents n l := by
  induction h with
  | refl => exact le_rfl
  | step _ ih => rw [stepsOf_succ]; omega

/-- An agent that is weakly fair and stays enabled takes any number of steps. -/
theorem fair_steps (a : Agent) (enabled : State → Bool) (agents : Nat → Agent) (run : Nat → State)
    (hf : WeaklyFairFor a enabled agents run) (n : Nat) (he : ∀ m, n ≤ m → enabled (run m) = true) (c : Nat) :
    ∃ k, c ≤ stepsOf a agents n k := by
  induction c with
  | zero => exact ⟨0, Nat.zero_le _⟩
  | succ c ih =>
    obtain ⟨k, hk⟩ := ih
    obtain ⟨m, hm, ha⟩ := hf (n + k) (fun m hm => he m (by omega))
    refine ⟨m - n + 1, ?_⟩
    rw [stepsOf_succ, Nat.add_sub_cancel' (by omega : n ≤ m), if_pos ha]
    have := stepsOf_mono a agents n k (m - n) (by omega)
    omega

end Sys2Proof.Machine
end

