-- ==== Sys2Proof/Laws/Logs.lean ====
section
/-! SUPPORT. How a host's log grows by one port step: the word taken and its response at the end. -/

namespace Sys2Proof.Machine

/-! ## Reading a response word -/

theorem rspCode_respWord (c : RespCode) (hi lo : Byte) : rspCode (respWord c hi lo) = c.code := by
  have h1 : hi.toNat < 256 := hi.isLt
  have h2 : lo.toNat < 256 := lo.isLt
  have h3 : c.code.toNat < 16 := c.code.isLt
  apply BitVec.eq_of_toNat_eq
  rw [rspCode, BitVec.extractLsb'_toNat, respWord_toNat, Nat.shiftRight_eq_div_pow]
  simp only [Nat.reducePow]
  omega

theorem rspHi_respWord (c : RespCode) (hi lo : Byte) : rspHi (respWord c hi lo) = hi := by
  have h1 : hi.toNat < 256 := hi.isLt
  have h2 : lo.toNat < 256 := lo.isLt
  apply BitVec.eq_of_toNat_eq
  rw [rspHi, BitVec.extractLsb'_toNat, respWord_toNat, Nat.shiftRight_eq_div_pow]
  simp only [Nat.reducePow]
  omega

theorem rspLo_respWord (c : RespCode) (hi lo : Byte) : rspLo (respWord c hi lo) = lo := by
  have h2 : lo.toNat < 256 := lo.isLt
  apply BitVec.eq_of_toNat_eq
  rw [rspLo, BitVec.extractLsb'_toNat, respWord_toNat, Nat.shiftRight_zero]
  simp only [Nat.reducePow]
  omega

/-- Only `OK` has the code 0. -/
theorem code_eq_ok (c : RespCode) : c.code = RespCode.ok.code ↔ c = .ok := by
  cases c <;> decide

/-! ## The log after one more word -/

/-- A well-formed stream whose port took its next word and answered `r`. -/
theorem served_push (h : HostStream) (w : Word) (r : Response) (hwf : h.Wf) (hw : h.cmds[h.idx]? = some w) :
    served { h with idx := h.idx + 1, rsps := h.rsps ++ [r] } = served h ++ [(w, r)] := by
  obtain ⟨hlt, rfl⟩ := List.getElem?_eq_some_iff.1 hw
  have hr : (h.cmds.take h.idx).length = h.rsps.length := by
    rw [List.length_take, Nat.min_eq_left hwf.inRange, hwf.answered]
  simp only [served]
  rw [List.take_succ_eq_append_getElem hlt, List.zip_append hr]
  rfl

theorem wf_push (h : HostStream) (w : Word) (r : Response) (hwf : h.Wf) (hw : h.cmds[h.idx]? = some w) :
    HostStream.Wf { h with idx := h.idx + 1, rsps := h.rsps ++ [r] } := by
  obtain ⟨hlt, -⟩ := List.getElem?_eq_some_iff.1 hw
  exact ⟨hlt, by simp [hwf.answered]⟩

theorem accepted_push (port : Port) (h : HostStream) (w : Word) (r : Response) (hwf : h.Wf) (hw : h.cmds[h.idx]? = some w) :
    accepted port { h with idx := h.idx + 1, rsps := h.rsps ++ [r] } = accepted port h ++ (acceptedAt port (w, r)).toList := by
  unfold accepted
  rw [served_push h w r hwf hw, List.filterMap_append, List.filterMap_cons, List.filterMap_nil]
  cases acceptedAt port (w, r) <;> rfl

/-- A word that was no command, or was not answered `OK`, leaves the producer's log as it was. -/
theorem producerView_push_none (h : HostStream) (w : Word) (r : Response) (hwf : h.Wf) (hw : h.cmds[h.idx]? = some w)
    (hn : acceptedAt .p (w, r) = none) :
    producerView { h with idx := h.idx + 1, rsps := h.rsps ++ [r] } = producerView h := by
  unfold producerView
  rw [accepted_push .p h w r hwf hw, hn]
  simp

/-- A command answered `OK` is the last thing in the producer's log. -/
theorem producerView_push_some (h : HostStream) (w : Word) (r : Response) (hwf : h.Wf) (hw : h.cmds[h.idx]? = some w)
    (e : Instr × Response) (he : acceptedAt .p (w, r) = some e) :
    producerView { h with idx := h.idx + 1, rsps := h.rsps ++ [r] } = (producerView h).see e := by
  unfold producerView
  rw [accepted_push .p h w r hwf hw, he]
  simp

theorem consumerView_push_none (h : HostStream) (w : Word) (r : Response) (hwf : h.Wf) (hw : h.cmds[h.idx]? = some w)
    (hn : acceptedAt .c (w, r) = none) :
    consumerView { h with idx := h.idx + 1, rsps := h.rsps ++ [r] } = consumerView h := by
  unfold consumerView
  rw [accepted_push .c h w r hwf hw, hn]
  simp

theorem consumerView_push_some (h : HostStream) (w : Word) (r : Response) (hwf : h.Wf) (hw : h.cmds[h.idx]? = some w)
    (e : Instr × Response) (he : acceptedAt .c (w, r) = some e) :
    consumerView { h with idx := h.idx + 1, rsps := h.rsps ++ [r] } = (consumerView h).see e := by
  unfold consumerView
  rw [accepted_push .c h w r hwf hw, he]
  simp

/-- Which served words count as accepted, by the response code given. -/
theorem acceptedAt_respWord (port : Port) (w : Word) (i : Instr) (c : RespCode) (hi lo : Byte) (hd : decode port w = .ok i) :
    acceptedAt port (w, respWord c hi lo) = if c = .ok then some (i, respWord c hi lo) else none := by
  simp only [acceptedAt, hd, rspCode_respWord, code_eq_ok]

theorem acceptedAt_illegal (port : Port) (w : Word) (e : Illegal) (r : Response) (hd : decode port w = .error e) :
    acceptedAt port (w, r) = none := by
  simp only [acceptedAt, hd]

end Sys2Proof.Machine
end

