-- ==== Sys2Proof/Laws/PerInstr.lean ====
section
/-! SUPPORT. One statement per command about its encoding, and that every command is well formed. -/

namespace Sys2Proof.Laws

/-- What the opcode map says of a command's word (30_encoding R73 to R78): it has its row's match under its row's mask, its
`OP` is its opcode's, its port is its opcode's, and its operands are in range. -/
def Encoding.Statement (i : Instr) : Prop :=
  encode i &&& i.opcode.mask = i.opcode.pattern ∧ opcodeOf (opField (encode i)) = some i.opcode ∧
  i.opcode.port = i.port ∧ i.wf = true

theorem Encoding.pFree : Encoding.Statement .pFree := by unfold Encoding.Statement; decide

theorem Encoding.pBegin (n : BitVec 8) : Encoding.Statement (.pBegin n) := by
  unfold Encoding.Statement; revert n; decide

theorem Encoding.pWrite (b : BitVec 8) : Encoding.Statement (.pWrite b) := by
  unfold Encoding.Statement; revert b; decide

theorem Encoding.pSpace : Encoding.Statement .pSpace := by unfold Encoding.Statement; decide

theorem Encoding.pCommit (llid : BitVec 2) : Encoding.Statement (.pCommit llid) := by
  unfold Encoding.Statement; revert llid; decide

theorem Encoding.pCancel : Encoding.Statement .pCancel := by unfold Encoding.Statement; decide

theorem Encoding.pStat : Encoding.Statement .pStat := by unfold Encoding.Statement; decide

theorem Encoding.cHasdata : Encoding.Statement .cHasdata := by unfold Encoding.Statement; decide

theorem Encoding.cPeek : Encoding.Statement .cPeek := by unfold Encoding.Statement; decide

theorem Encoding.cRead (i : BitVec 8) : Encoding.Statement (.cRead i) := by
  unfold Encoding.Statement; revert i; decide

theorem Encoding.cRelease (f : Bool) : Encoding.Statement (.cRelease f) := by
  unfold Encoding.Statement; revert f; decide

theorem Encoding.cStat : Encoding.Statement .cStat := by unfold Encoding.Statement; decide

/-- Every command is well formed: its operands have exactly the widths of 30_encoding R77. -/
theorem instr_wf (i : Instr) : i.wf = true := by
  cases i <;> first | rfl | (rename_i x; revert x; decide)

/-- The storage after reset is in canonical form. -/
theorem reset_slot_wf : Machine.Memory.wf Machine.State.reset.slot := Machine.wf_nil

end Sys2Proof.Laws
end

