-- ==== Sys2Proof/Tests/Slice0.lean ====
section
/-! SUPPORT. Tests: the range checks, the encodings, one step of each command against the spec's worked examples, the
assembler, and a witness for the hypotheses of every obligation that has some. -/

namespace Sys2Proof.Tests

open Sys2Proof Sys2Proof.Machine

/-! ## Range checks (30_encoding R84, 00_scope R7, 70_reset_and_hazards R251) -/

theorem test_operand_ranges_refuse :
    (Term.pBegin 256).wf = false ∧ (Term.pWrite 256).wf = false ∧ (Term.pCommit 4).wf = false ∧
    (Term.cRead 256).wf = false ∧ (Term.cRelease 2).wf = false ∧ (Term.pCommit 4).toInstr = none := by decide

theorem test_operand_ranges_accept :
    (Term.pBegin 255).toInstr = some (.pBegin 255) ∧ (Term.pCommit 3).toInstr = some (.pCommit 3) ∧
    (Term.cRelease 1).toInstr = some (.cRelease true) ∧ (Term.cRelease 0).toInstr = some (.cRelease false) := by decide

theorem test_builds_refused :
    ¬ Config.Valid { Config.default with maxPayload := 0 } ∧ ¬ Config.Valid { Config.default with maxPayload := 256 } ∧
    ¬ Config.Valid { Config.default with ptrW := 0 } ∧ ¬ Config.Valid { Config.default with ptrW := 9 } ∧
    ¬ Config.Valid { Config.default with stages := 1 } := by decide

theorem test_builds_accepted :
    Config.Valid Config.default ∧ Config.Valid { Config.default with stages := 0, clocking := .oneClock } ∧
    Config.Valid { Config.default with maxPayload := 255, ptrW := 8 } := by decide

/-! ## Encodings: words written bit by bit from the encoding column of 30_encoding R78 -/

theorem test_decode_producer_words :
    decode .p 0b0001000000000000#16 = .ok .pFree ∧ decode .p 0b0010000000000100#16 = .ok (.pBegin 4) ∧
    decode .p 0b0011000010000001#16 = .ok (.pWrite 0x81) ∧ decode .p 0b0100000000000000#16 = .ok .pSpace ∧
    decode .p 0b0101001000000000#16 = .ok (.pCommit 2) ∧ decode .p 0b0110000000000000#16 = .ok .pCancel ∧
    decode .p 0b0111000000000000#16 = .ok .pStat := ⟨rfl, rfl, rfl, rfl, rfl, rfl, rfl⟩

theorem test_decode_consumer_words :
    decode .c 0b1001000000000000#16 = .ok .cHasdata ∧ decode .c 0b1010000000000000#16 = .ok .cPeek ∧
    decode .c 0b1011000000000011#16 = .ok (.cRead 3) ∧ decode .c 0b1100000100000000#16 = .ok (.cRelease true) ∧
    decode .c 0b1100000000000000#16 = .ok (.cRelease false) ∧ decode .c 0b1101000000000000#16 = .ok .cStat :=
  ⟨rfl, rfl, rfl, rfl, rfl, rfl⟩

/-- 30_encoding R79 (a), (b) and (c), one reserved bit of each format at a time. -/
theorem test_illegal_words :
    decode .p 0x0000#16 = .error .reservedOp ∧ decode .c 0x8000#16 = .error .reservedOp ∧
    decode .p 0xE000#16 = .error .reservedOp ∧ decode .c 0xFFFF#16 = .error .reservedOp ∧
    decode .p 0xD000#16 = .error .wrongPort ∧ decode .c 0x7000#16 = .error .wrongPort ∧
    decode .p 0x1001#16 = .error .reservedBits ∧ decode .p 0x2104#16 = .error .reservedBits ∧
    decode .p 0x5600#16 = .error .reservedBits ∧ decode .p 0x5201#16 = .error .reservedBits ∧
    decode .c 0xC300#16 = .error .reservedBits ∧ decode .c 0xC180#16 = .error .reservedBits :=
  ⟨rfl, rfl, rfl, rfl, rfl, rfl, rfl, rfl, rfl, rfl, rfl, rfl⟩

/-- The decoder through the host's own entry: the port is the one of the word's half. -/
theorem test_decode_table_words :
    decodeTableWord 16 0x5200 = some (.pCommit 2) ∧ decodeTableWord 16 0xB003 = some (.cRead 3) ∧
    decodeTableWord 16 0x8000 = none := by decide

/-! ## States of the worked examples -/

/-- A host whose port has answered each of its first words with one of the responses, with `more` still to come. -/
def host (done more : List Word) (rsps : List Response) : HostStream :=
  { cmds := done ++ more, idx := rsps.length, rsps := rsps }

/-- After reset, `P_BEGIN 4` and `P_WRITE`s of 1 to 4 (41_producer R125). -/
def written : State :=
  { State.reset with pAct := true, wcnt := 4, slot := [(2, 1), (3, 2), (4, 3), (5, 4)] }

/-- The starting state of the examples of 42_consumer: that transaction committed with tag 2, and `WSYNC` = 1. -/
def committed : State :=
  { State.reset with wptr := 1, wq := [1, 1], slot := [(0, 2), (1, 4), (2, 1), (3, 2), (4, 3), (5, 4)] }

/-- That state with the slot peeked (42_consumer R152). -/
def inspecting : State := { committed with cAct := true, cLen := 4 }

/-- What a command answers, and what it leaves of the state. -/
def answer {α : Type} (i : Instr) (s : State) (f : State → α) : Option (Option Response × α) :=
  match exec i s with
  | .next t => some (lastResponse i.port t, f t)
  | .fault _ => none
  | .refused _ => none

/-- Why a command stopped. -/
def stopped (i : Instr) (s : State) : Option Fault :=
  match exec i s with
  | .next _ => none
  | .fault e => some e
  | .refused _ => none

/-! ## Producer commands: the examples and corner cases of 41_producer -/

theorem test_pfree_after_reset : answer .pFree State.reset State.wcnt = some (some 0x0000001B, 0) := by decide

theorem test_pfree_slot_full : answer .pFree committed State.pAct = some (some 0x00000000, false) := by decide

theorem test_pbegin_opens :
    answer (.pBegin 4) State.reset (fun t => (t.pAct, t.wcnt)) = some (some 0x0000001B, true, 0) := by decide

/-- Too large, and on a full slot: the fault comes first (60_exceptions R209). -/
theorem test_pbegin_over_capacity :
    answer (.pBegin 28) State.reset State.pFault = some (some 0xE0000000, 1) ∧
    answer (.pBegin 28) committed State.pFault = some (some 0xE0000000, 1) ∧
    answer (.pBegin 27) committed State.pFault = some (some 0x10000000, 0) := by decide

theorem test_pwrite_first_byte :
    answer (.pWrite 1) { State.reset with pAct := true } (fun t => (t.slot, t.wcnt)) =
      some (some 0x0000001A, [(2, 1)], 1) := by decide

/-- The last byte leaves no space, and the next write is refused and writes nothing. -/
theorem test_pwrite_at_bound :
    answer (.pWrite 9) { State.reset with pAct := true, wcnt := 26 } (fun t => (t.slot, t.wcnt)) =
      some (some 0x00000000, [(28, 9)], 27) ∧
    answer (.pWrite 9) { State.reset with pAct := true, wcnt := 27 } (fun t => (t.slot, t.pAct)) =
      some (some 0x30000000, [], true) := by decide

theorem test_pspace_after_two_writes :
    answer .pSpace { State.reset with pAct := true, wcnt := 2 } State.wcnt = some (some 0x00000019, 2) := by decide

theorem test_pspace_outside : answer .pSpace State.reset State.pFault = some (some 0xE0000000, 4) := by decide

theorem test_pcommit_publishes :
    answer (.pCommit 2) written (fun t => (t.slot, t.wptr, t.pAct, t.wcnt)) =
      some (some 0x00000004, [(0, 2), (1, 4), (2, 1), (3, 2), (4, 3), (5, 4)], 1, false, 0) := by decide

/-- The pointer wraps: with two bits the Gray sequence is 00, 01, 11, 10 and then 00 again (43_cdc_sync R182). An empty
payload is legal. -/
theorem test_pcommit_pointer_wraps :
    answer (.pCommit 3)
      { State.reset with cfg := { Config.default with ptrW := 2 }, pAct := true, wptr := 0b10, rq := [0b10, 0b10] }
      (fun t => (t.wptr, t.slot)) = some (some 0x00000000, 0b00, [(0, 3), (1, 0)]) := by decide

theorem test_pcancel_keeps_bytes :
    answer .pCancel written (fun t => (t.slot, t.pAct, t.wcnt, t.wptr)) =
      some (some 0x00000000, [(2, 1), (3, 2), (4, 3), (5, 4)], false, 0, 0) := by decide

theorem test_pcancel_outside : answer .pCancel committed State.pFault = some (some 0xE0000000, 4) := by decide

theorem test_pstat_after_reset : answer .pStat State.reset State.pFault = some (some 0x00000000, 0) := by decide

/-- A faulted port still executes P_STAT, and nothing else. -/
theorem test_pstat_faulted :
    answer .pStat { State.reset with pFault := 1 } State.pFault = some (some 0x00000004, 1) ∧
    answer .pFree { State.reset with pFault := 1 } State.pFault = some (some 0xE0000000, 1) := by decide

/-! ## Consumer commands: the examples and corner cases of 42_consumer -/

theorem test_chasdata :
    answer .cHasdata State.reset State.cAct = some (some 0x00000000, false) ∧
    answer .cHasdata committed State.cAct = some (some 0x00000001, false) := by decide

theorem test_cpeek_opens :
    answer .cPeek committed (fun t => (t.cAct, t.cLen, t.rptr)) = some (some 0x00000204, true, 4, 0) := by decide

/-- No slot, a length over the capacity, and bits 7:2 of the first byte, which are ignored. -/
theorem test_cpeek_other_ways :
    answer .cPeek State.reset State.cAct = some (some 0x20000000, false) ∧
    answer .cPeek { committed with slot := [(0, 2), (1, 28)] } State.cAct = some (some 0x50000000, false) ∧
    answer .cPeek { committed with slot := [(0, 0xFF), (1, 0)] } State.cAct = some (some 0x00000300, true) := by decide

theorem test_cread :
    answer (.cRead 0) inspecting State.cLen = some (some 0x00000001, 4) ∧
    answer (.cRead 3) inspecting State.cLen = some (some 0x00000004, 4) ∧
    answer (.cRead 4) inspecting State.cLen = some (some 0x40000000, 4) := by decide

theorem test_cread_outside : answer (.cRead 0) committed State.cFault = some (some 0xE0000000, 4) := by decide

theorem test_crelease_removes :
    answer (.cRelease true) inspecting (fun t => (t.rptr, t.cAct, t.cLen, emptyC t)) =
      some (some 0x00000001, 1, false, 0, true) := by decide

theorem test_crelease_keeps :
    answer (.cRelease false) inspecting (fun t => (t.rptr, t.cAct, emptyC t)) =
      some (some 0x00000000, 0, false, false) := by decide

theorem test_cstat :
    answer .cStat State.reset State.cAct = some (some 0x00000001, false) ∧
    answer .cStat inspecting State.cAct = some (some 0x00000402, true) ∧
    answer .cStat { State.reset with cFault := 4 } State.cFault = some (some 0x00000011, 4) := by decide

/-! ## Model faults, synchronisers, reset, the step -/

/-- 20_memory R66: the header of a slot nothing has written. -/
theorem test_unwritten_read : stopped .cPeek { committed with slot := [] } = some .unwrittenRead := by decide

/-- 20_memory R53: an address beyond the slot, from a register out of its range. -/
theorem test_beyond_slot :
    stopped (.pWrite 1) { State.reset with pAct := true, wcnt := 200 } = some .noSlotByte ∧
    stopped (.cRead 100) { committed with cAct := true, cLen := 200 } = some .noSlotByte := by decide

/-- 43_cdc_sync R183, R185: after one step the view is still the old one, after `S` = 2 it is the new one. -/
theorem test_syncw_two_stages :
    (syncW { State.reset with wptr := 1 }).wq = [1, 0] ∧ wsync (syncW { State.reset with wptr := 1 }) = 0 ∧
    wsync (syncW (syncW { State.reset with wptr := 1 })) = 1 := by decide

theorem test_syncr_two_stages :
    (syncR { committed with rptr := 1 }).rq = [1, 0] ∧ fullP (syncR { committed with rptr := 1 }) = true ∧
    fullP (syncR (syncR { committed with rptr := 1 })) = false := by decide

/-- The four values of 43_cdc_sync R180 at two bits, and the sequence of R182. -/
theorem test_gray_two_bits :
    b2g 0 = 0b00 ∧ b2g 1 = 0b01 ∧ b2g 2 = 0b11 ∧ b2g 3 = 0b10 ∧ g2b 2 0b10 = 3 ∧
    grayInc 2 0b00 = 0b01 ∧ grayInc 2 0b01 = 0b11 ∧ grayInc 2 0b11 = 0b10 ∧ grayInc 2 0b10 = 0b00 := by decide

/-- 70_reset_and_hazards R230, from inside a transaction on each port. -/
theorem test_reset_again :
    pStatus (applyReset written) = 0x0000 ∧ cStatus (applyReset inspecting) = 0x0001 ∧
    pNotFull (applyReset inspecting) = true ∧ cNotEmpty (applyReset inspecting) = false := by decide

/-- What a step leaves of the state. -/
def after {α : Type} (s : State) (f : State → α) : Option α :=
  match step s with
  | .next t => some (f t)
  | .fault _ => none
  | .refused _ => none

/-- A placed word runs as the first instruction after reset (41_producer R122, 42_consumer R152). -/
theorem test_placed_words_run :
    after (State.reset.withFetchWord 16 0x2004) (fun t => (t.hostP.rsps, t.pAct, t.hostP.idx)) =
      some ([0x0000001B], true, 1) ∧
    after (State.reset.withFetchWord 16 0xA000) (fun t => (t.hostC.rsps, t.hostC.idx)) = some ([0x20000000], 1) := by decide

/-- An illegal word on a port without a fault, and on a faulted port, whose first code is kept (60_exceptions R205). -/
theorem test_illegal_word_steps :
    after (State.reset.withFetchWord 16 0x1001) (fun t => (t.hostP.rsps, t.pFault)) = some ([0xE0000000], 5) ∧
    after (({ State.reset with pFault := 1 } : State).withFetchWord 16 0x1001) (fun t => (t.hostP.rsps, t.pFault)) =
      some ([0xE0000000], 1) := by decide

/-! ## Assembler (30_encoding R84 to R86) -/

theorem test_asm_commands :
    assembleLine "p.commit start ; publish".toList = .ok (.commands [.pCommit 2]) ∧
    assembleLine "  p.write 0xFf".toList = .ok (.commands [.pWrite 255]) ∧
    assembleLine "c.read 3".toList = .ok (.commands [.cRead 3]) := ⟨rfl, rfl, rfl⟩

theorem test_asm_pseudo :
    assembleLine "p.send 1, 7, 8".toList = .ok (.commands [.pBegin 2, .pWrite 7, .pWrite 8, .pCommit 1]) ∧
    assembleLine "p.send ctrl".toList = .ok (.commands [.pBegin 0, .pCommit 3]) ∧
    assembleLine "c.pop".toList = .ok (.commands [.cRelease true]) ∧
    assembleLine "c.keep".toList = .ok (.commands [.cRelease false]) ∧
    assembleLine "p.abort".toList = .ok (.commands [.pCancel]) := ⟨rfl, rfl, rfl, rfl, rfl⟩

theorem test_asm_errors :
    assembleLine "p.begin 256".toList = .error .operandRange ∧ assembleLine "p.commit 4".toList = .error .operandRange ∧
    assembleLine "c.release 2".toList = .error .operandRange ∧ assembleLine "p.free 1".toList = .error .operandCount ∧
    assembleLine "p.write x".toList = .error .operandSyntax ∧ assembleLine "p.halt".toList = .error .unknownMnemonic :=
  ⟨rfl, rfl, rfl, rfl, rfl, rfl⟩

/-- A host program: the two command lists and the schedule. -/
theorem test_asm_program :
    assemble ["p.free".toList, "sync.w".toList, "c.pop".toList] =
      .ok { ps := [0x1000], cs := [0xC100], sched := [.portP, .syncW, .portC] } := rfl


/-! ## Witnesses: states of the invariant -/

/-- One byte written in an open transaction, as `P_BEGIN 1` and `P_WRITE 7` leave it. Its commit and two SyncW steps come next. -/
def opened : State :=
  { State.reset with
    pAct := true, wcnt := 1, slot := [(2, 7)]
    hostP := host [0x2001, 0x3007] [0x5200] [0x1B, 0x1A], sched := [.portP, .syncW, .syncW] }

/-- That transaction committed with tag 2, and visible to port C, whose host peeks next. -/
def visible : State :=
  { State.reset with
    wptr := 1, wq := [1, 1], slot := [(0, 2), (1, 1), (2, 7)]
    hostP := host [0x2001, 0x3007, 0x5200] [] [0x1B, 0x1A, 0x01], hostC := host [] [0xA000] [], sched := [.portC] }

/-- That slot peeked. Its removal and two SyncR steps come next. -/
def peeked : State :=
  { visible with
    cAct := true, cLen := 1
    hostC := host [0xA000] [0xC100] [0x201], sched := [.portC, .syncR, .syncR] }

/-- After reset, in a build on one clock with no synchroniser. -/
def oneClock : State := State.resetOf { Config.default with stages := 0, clocking := .oneClock }

theorem test_oneClock_invariant : Invariant oneClock where
  wf := by
    constructor
    all_goals first | decide | exact ⟨by decide, by decide⟩
  counts := ⟨[], [], by constructor <;> decide⟩
  storage := by
    constructor
    · rfl
    · intro k v h; cases k <;> cases h
    · intro u h; cases h
    · intro u h; cases h
    · intro h; cases h
  fifo := by intro e h; cases h

theorem test_reset_invariant : Invariant State.reset where
  wf := by
    constructor
    all_goals first | decide | exact ⟨by decide, by decide⟩
  counts := ⟨[0, 0], [0, 0], by constructor <;> decide⟩
  storage := by
    constructor
    · rfl
    · intro k v h; cases k <;> cases h
    · intro u h; cases h
    · intro u h; cases h
    · intro h; cases h
  fifo := by intro e h; cases h

theorem opened_view :
    producerView opened.hostP = { writing := [7], committed := [] } := rfl

theorem test_opened_invariant : Invariant opened where
  wf := by
    constructor
    all_goals first | decide | exact ⟨by decide, by decide⟩
  counts := ⟨[0, 0], [0, 0], by constructor <;> decide⟩
  storage := by
    constructor
    · rfl
    · intro k v h
      rw [opened_view] at h
      match k with
      | 0 => cases h; rfl
      | k + 1 => cases h
    · intro u h; rw [opened_view] at h; cases h
    · intro u h; cases h
    · intro h; cases h
  fifo := by intro e h; cases h

theorem visible_holds :
    HoldsPdu visible.slot { llid := 2, payload := [7] } where
  tag := rfl
  length := rfl
  bytes := by
    intro k v h
    match k with
    | 0 => cases h; rfl
    | k + 1 => cases h

theorem test_visible_invariant : Invariant visible where
  wf := by
    constructor
    all_goals first | decide | exact ⟨by decide, by decide⟩
  counts := ⟨[1, 1], [0, 0], by constructor <;> decide⟩
  storage := by
    constructor
    · rfl
    · intro k v h; cases k <;> cases h
    · intro u h
      rcases List.mem_singleton.1 h with rfl
      decide
    · intro u _ h
      cases h
      exact visible_holds
    · intro h; cases h
  fifo := by intro e h; cases h

theorem test_peeked_invariant : Invariant peeked where
  wf := by
    constructor
    all_goals first | decide | exact ⟨by decide, by decide⟩
  counts := ⟨[1, 1], [0, 0], by constructor <;> decide⟩
  storage := by
    constructor
    · rfl
    · intro k v h; cases k <;> cases h
    · intro u h
      rcases List.mem_singleton.1 h with rfl
      decide
    · intro u _ h
      cases h
      exact visible_holds
    · intro _; rfl
  fifo := by
    intro e h
    rcases List.mem_singleton.1 h with rfl
    exact ⟨{ llid := 2, payload := [7] }, rfl, rfl, rfl⟩


/-! ## Witnesses: the hypotheses of each obligation, clause by clause -/

/-- `EncodeDecode`. -/
theorem test_witness_EncodeDecode : decode .p 0x53#16 ≠ .ok .pStat ∧ decode .c 0xC100#16 = .ok (.cRelease true) := by
  constructor
  · intro h; cases h
  · rfl

/-- Port P's turn with a word presented. -/
def turnP (w : Word) : State := { State.reset with hostP := host [] [w] [], sched := [.portP] }

/-- Port C's turn with a word presented. -/
def turnC (w : Word) : State := { State.reset with hostC := host [] [w] [], sched := [.portC] }

/-- `StepRunsCommand`, both ports. -/
theorem test_witness_StepRunsCommand :
    (turnP 0x5300).sched = [.portP] ∧ (turnP 0x5300).hostP.cmds[(turnP 0x5300).hostP.idx]? = some 0x5300 ∧
    decode .p 0x5300 = .ok (.pCommit 3) ∧
    (turnC 0xB0FF).sched = [.portC] ∧ (turnC 0xB0FF).hostC.cmds[(turnC 0xB0FF).hostC.idx]? = some 0xB0FF ∧
    decode .c 0xB0FF = .ok (.cRead 255) := ⟨rfl, rfl, rfl, rfl, rfl, rfl⟩

/-- `IllegalWordFaults`, both ports. -/
theorem test_witness_IllegalWordFaults :
    (turnP 0xF000).sched = [.portP] ∧ (turnP 0xF000).hostP.cmds[(turnP 0xF000).hostP.idx]? = some 0xF000 ∧
    decode .p 0xF000 = .error .reservedOp ∧
    (turnC 0x7000).sched = [.portC] ∧ (turnC 0x7000).hostC.cmds[(turnC 0x7000).hostC.idx]? = some 0x7000 ∧
    decode .c 0x7000 = .error .wrongPort := ⟨rfl, rfl, rfl, rfl, rfl, rfl⟩

/-- `SynchronisersShift`: the first and the last stage, and stages that already equal their pointer. -/
theorem test_witness_SynchronisersShift :
    ({ State.reset with wptr := 1, sched := [.syncW] } : State).sched = [.syncW] ∧ State.reset.wq ≠ [] ∧
    0 < State.reset.wq.length ∧ 1 < State.reset.wq.length ∧ (∀ x ∈ visible.wq, x = visible.wptr) ∧
    ({ State.reset with rptr := 1, sched := [.syncR] } : State).sched = [.syncR] ∧ State.reset.rq ≠ [] ∧
    0 < State.reset.rq.length ∧ 1 < State.reset.rq.length ∧ (∀ x ∈ State.reset.rq, x = State.reset.rptr) := by decide

/-- `IdleTurns`: an empty schedule, a stream with no word at its end, and no stage. -/
theorem test_witness_IdleTurns :
    State.reset.sched = [] ∧
    ({ State.reset with sched := [.portP] } : State).hostP.cmds[State.reset.hostP.idx]? = none ∧
    ({ State.reset with sched := [.portC] } : State).hostC.cmds[State.reset.hostC.idx]? = none ∧
    ({ oneClock with sched := [.syncW] } : State).wq = [] ∧ ({ oneClock with sched := [.syncR] } : State).rq = [] := by
  decide

/-- `PlacedWordRuns`, one word of each port. -/
theorem test_witness_PlacedWordRuns :
    decodeTableWord 16 0x7000 = some .pStat ∧ decodeTableWord 16 0xD000 = some .cStat := by decide

/-- `ResetState`: the builds at the two ends of the synchroniser depth. -/
theorem test_witness_ResetState : oneClock = State.resetOf oneClock.cfg ∧ State.reset = State.resetOf Config.default := by
  decide

/-- `GrayInverse` and `GrayIncOneBit`: the widths 1 and 8 and the largest value of each. -/
theorem test_witness_GrayInverse :
    1 ≤ 1 ∧ 1 ≤ 8 ∧ (1#8).toNat < 2 ^ 1 ∧ 8 ≤ 8 ∧ (255#8).toNat < 2 ^ 8 ∧ 0 < 8 ∧ 7 < 8 ∧ 0 + 1 < 8 ∧ 6 + 1 < 8 := by decide

/-- `ViewsCatchUp`: no stage, and two with exactly two steps. -/
theorem test_witness_ViewsCatchUp :
    oneClock.wq.length = oneClock.cfg.stages ∧ oneClock.rq.length = oneClock.cfg.stages ∧ oneClock.cfg.stages = 0 ∧
    opened.wq.length = opened.cfg.stages ∧ opened.rq.length = opened.cfg.stages ∧ 1 ≤ opened.cfg.stages ∧
    opened.cfg.stages ≤ 2 := by decide

/-- The committed unit of `visible` before any SyncW step. -/
def unseen : State := { visible with wq := [0, 0], hostC := HostStream.silent, sched := [] }

/-- That unit peeked and removed, before any SyncR step. -/
def freed : State :=
  { visible with rptr := 1, hostC := host [0xA000, 0xC100] [] [0x201, 0x001], sched := [] }

theorem test_unseen_invariant : Invariant unseen where
  wf := by
    constructor
    all_goals first | decide | exact ⟨by decide, by decide⟩
  counts := ⟨[0, 0], [0, 0], by constructor <;> decide⟩
  storage := by
    constructor
    · rfl
    · intro k v h; cases k <;> cases h
    · intro u h
      rcases List.mem_singleton.1 h with rfl
      decide
    · intro u _ h
      cases h
      exact visible_holds
    · intro h; cases h
  fifo := by intro e h; cases h

theorem test_freed_invariant : Invariant freed where
  wf := by
    constructor
    all_goals first | decide | exact ⟨by decide, by decide⟩
  counts := ⟨[1, 1], [0, 0], by constructor <;> decide⟩
  storage := by
    constructor
    · rfl
    · intro k v h; cases k <;> cases h
    · intro u h
      rcases List.mem_singleton.1 h with rfl
      decide
    · intro u h _; exact absurd h (by decide)
    · intro h; cases h
  fifo := by
    intro e h
    rcases List.mem_singleton.1 h with rfl
    exact ⟨{ llid := 2, payload := [7] }, rfl, rfl, rfl⟩

/-- `SyncW` alone steps from `unseen` on. -/
def seeing (n : Nat) : State :=
  match n with
  | 0 => unseen
  | 1 => { unseen with wq := [1, 0] }
  | _ + 2 => { unseen with wq := [1, 1] }

/-- `SyncR` alone steps from `freed` on. -/
def freeing (n : Nat) : State :=
  match n with
  | 0 => freed
  | 1 => { freed with rq := [1, 0] }
  | _ + 2 => { freed with rq := [1, 1] }

/-- The other synchroniser of `seeing` and of `freeing` is settled in every state. -/
theorem other_settled (n : Nat) :
    syncEnabled (seeing n).rq (seeing n).rptr = false ∧ syncEnabled (freeing n).wq (freeing n).wptr = false :=
  match n with
  | 0 => by decide
  | 1 => by decide
  | _ + 2 => ⟨rfl, rfl⟩

/-- `FairViewsCatchUp`, both directions: weakly fair infinite executions of the invariant, with a unit committed and never
removed, and with a unit removed and no further commit, and the two steps that suffice. -/
theorem test_witness_FairViewsCatchUp :
    (Execution (fun _ => .syncW) seeing ∧ WeaklyFair (fun _ => .syncW) seeing ∧ Invariant (seeing 0) ∧
      occupancy (seeing 0) = 1 ∧ (∀ m, 0 ≤ m → rc (seeing m) = rc (seeing 0)) ∧
      (seeing 0).cfg.stages ≤ stepsOf .syncW (fun _ => .syncW) 0 2) ∧
    (Execution (fun _ => .syncR) freeing ∧ WeaklyFair (fun _ => .syncR) freeing ∧ Invariant (freeing 0) ∧
      occupancy (freeing 0) = 0 ∧ (∀ m, 0 ≤ m → wc (freeing m) = wc (freeing 0)) ∧
      (freeing 0).cfg.stages ≤ stepsOf .syncR (fun _ => .syncR) 0 2) := by
  refine ⟨⟨?_, ⟨fun n _ => ⟨n, le_rfl, rfl⟩, fun n h => ?_⟩, test_unseen_invariant, by decide, ?_, by decide⟩,
    ⟨?_, ⟨fun n h => ?_, fun n _ => ⟨n, le_rfl, rfl⟩⟩, test_freed_invariant, by decide, ?_, by decide⟩⟩
  · intro n
    match n with
    | 0 => rfl
    | 1 => rfl
    | _ + 2 => rfl
  · exact absurd (h n le_rfl) (by simp [(other_settled n).1])
  · intro m _
    match m with
    | 0 => rfl
    | 1 => rfl
    | _ + 2 => rfl
  · intro n
    match n with
    | 0 => rfl
    | 1 => rfl
    | _ + 2 => rfl
  · exact absurd (h n le_rfl) (by simp [(other_settled n).2])
  · intro m _
    match m with
    | 0 => rfl
    | 1 => rfl
    | _ + 2 => rfl

/-- The enabled synchroniser of an execution in which only the other one steps is not weakly fair: fairness rules it out. -/
theorem test_unfair_execution : ¬ WeaklyFair (fun _ => .syncR) (fun _ => unseen) := by
  rintro ⟨h, -⟩
  obtain ⟨m, -, hm⟩ := h 0 (fun _ _ => rfl)
  cases hm

/-- `FlagFormulas` and `OneBitForm`, where both flags are set and where both are clear. -/
theorem test_witness_OneBitForm :
    WellFormed State.reset ∧ State.reset.cfg.ptrW = 1 ∧ fullP State.reset = false ∧ emptyC State.reset = true ∧
    WellFormed visible ∧ visible.cfg.ptrW = 1 ∧ fullP visible = true ∧ emptyC visible = false :=
  ⟨test_reset_invariant.wf, rfl, by decide, by decide, test_visible_invariant.wf, rfl, by decide, by decide⟩

/-- `SingleClockForm`. -/
theorem test_witness_SingleClockForm : Invariant oneClock ∧ oneClock.cfg.stages = 0 := ⟨test_oneClock_invariant, rfl⟩

/-- `PFreeAnswers`, `PBeginResult`: every branch of the chain, `n` at the bound and one above it. -/
theorem test_witness_PBeginResult :
    State.reset.cfg.Valid ∧ State.reset.pFault = 0#3 ∧ opened.pFault = 0#3 ∧ opened.pAct = true ∧
    State.reset.pAct = false ∧ State.reset.cfg.maxPayload < (28#8).toNat ∧ ¬ State.reset.cfg.maxPayload < (27#8).toNat ∧
    committed.pAct = false ∧ fullP committed = true ∧ fullP State.reset = false := by decide

/-- `PWriteResult` and `PSpaceAnswers`: outside a transaction, at the bound, and one below it. -/
theorem test_witness_PWriteResult :
    State.reset.cfg.Valid ∧ State.reset.pFault = 0#3 ∧ State.reset.wcnt.toNat ≤ State.reset.cfg.maxPayload ∧
    State.reset.pAct = false ∧
    ({ State.reset with pAct := true, wcnt := 27 } : State).wcnt.toNat = State.reset.cfg.maxPayload ∧
    ({ State.reset with pAct := true, wcnt := 26 } : State).wcnt.toNat < State.reset.cfg.maxPayload := by decide

/-- `PCommitResult` and `PCancelResult`: no transaction, the unreachable full slot, and the commit. -/
theorem test_witness_PCommitResult :
    State.reset.cfg.Valid ∧ State.reset.pFault = 0#3 ∧ State.reset.pAct = false ∧
    ({ committed with pAct := true } : State).pAct = true ∧ fullP { committed with pAct := true } = true ∧
    opened.pFault = 0#3 ∧ opened.pAct = true ∧ fullP opened = false := by decide

/-- `CHasdataAnswers` and `CPeekResult`: an open transaction, no slot, a legal length at the bound and one above it. -/
theorem test_witness_CPeekResult :
    inspecting.cFault = 0#3 ∧ inspecting.cAct = true ∧ State.reset.cAct = false ∧ emptyC State.reset = true ∧
    committed.cFault = 0#3 ∧ committed.cAct = false ∧ emptyC committed = false ∧
    memGet [(0, 0xFE#8), (1, 27#8)] 0 = some 0xFE ∧ memGet [(0, 0xFE#8), (1, 27#8)] 1 = some 27 ∧
    ¬ committed.cfg.maxPayload < (27#8).toNat ∧ committed.cfg.maxPayload < (28#8).toNat := by decide

/-- `CReadResult`: outside a transaction, the last legal offset, and the first offset past it. -/
theorem test_witness_CReadResult :
    committed.cFault = 0#3 ∧ committed.cAct = false ∧ inspecting.cAct = true ∧
    inspecting.cLen.toNat ≤ (4#8).toNat ∧ (3#8).toNat < inspecting.cLen.toNat ∧
    (3#8).toNat < inspecting.cfg.maxPayload ∧ memGet inspecting.slot (2 + (3#8).toNat) = some 4 := by decide

/-- `CReleaseResult`: no transaction, the unreachable empty queue, and the removal. -/
theorem test_witness_CReleaseResult :
    committed.cfg.Valid ∧ committed.cFault = 0#3 ∧ committed.cAct = false ∧
    ({ State.reset with cAct := true } : State).cAct = true ∧ emptyC { State.reset with cAct := true } = true ∧
    inspecting.cFault = 0#3 ∧ inspecting.cAct = true ∧ emptyC inspecting = false := by decide

/-- `UnwrittenReadStops`: no header byte 0, no header byte 1, and no payload byte. -/
theorem test_witness_UnwrittenReadStops :
    committed.cFault = 0#3 ∧ committed.cAct = false ∧ emptyC committed = false ∧
    memGet [(1, 4#8)] 0 = none ∧ memGet [(0, 2#8)] 1 = none ∧
    inspecting.cFault = 0#3 ∧ inspecting.cAct = true ∧ (0#8).toNat < inspecting.cLen.toNat ∧
    (0#8).toNat < inspecting.cfg.maxPayload ∧ memGet [(0, 2#8), (1, 4#8)] (2 + (0#8).toNat) = none := by decide

/-- `ProtocolFaults`: a transaction open and none, on each port. -/
theorem test_witness_ProtocolFaults :
    opened.pFault = 0#3 ∧ opened.pAct = true ∧ State.reset.pFault = 0#3 ∧ State.reset.pAct = false ∧
    peeked.cFault = 0#3 ∧ peeked.cAct = true ∧ State.reset.cFault = 0#3 ∧ State.reset.cAct = false := by decide

/-- `FaultedPortAnswers`, both ports. -/
theorem test_witness_FaultedPortAnswers :
    (Instr.pCancel).port = .p ∧ Instr.pCancel ≠ .pStat ∧ ({ State.reset with pFault := 5 } : State).pFault ≠ 0#3 ∧
    (Instr.cPeek).port = .c ∧ Instr.cPeek ≠ .cStat ∧ ({ State.reset with cFault := 5 } : State).cFault ≠ 0#3 := by decide

/-- `FaultsSticky`, `FaultsPrecise` and `SingleWriter`: a step that records a fault on each port, and a step with a fault
already recorded on each. -/
theorem test_witness_FaultsPrecise :
    (∃ t, step (turnP 0x201C) = .next t ∧ t.pFault ≠ (turnP 0x201C).pFault) ∧
    (∃ t, step (turnC 0xC000) = .next t ∧ t.cFault ≠ (turnC 0xC000).cFault) ∧
    (∃ t, step { turnP 0x201C with pFault := 5, cFault := 4 } = .next t) ∧
    (turnP 0x201C).sched.head? ≠ some .portC ∧ (turnC 0xC000).sched.head? ≠ some .portP ∧
    (turnC 0xC000).sched.head? ≠ some .syncW ∧ (turnC 0xC000).sched.head? ≠ some .syncR :=
  ⟨⟨_, rfl, by decide⟩, ⟨_, rfl, by decide⟩, ⟨_, rfl⟩, by decide, by decide, by decide, by decide⟩

/-- `OneResponse`, `ProducerFrame`, `ConsumerFrame` and `QueriesChangeNothing`: a storing command of port P with a byte it
leaves alone, a command of port C that reads, and the queries named. -/
theorem test_witness_ProducerFrame :
    (∃ t, exec (.pWrite 1) opened = .next t) ∧ (Instr.pWrite 1).port = .p ∧ 2 ≠ payloadAddr opened.wcnt ∧
    (∃ t, exec (.pCommit 0) opened = .next t) ∧ (Instr.pCommit 0).port = .p ∧
    (∃ t, exec (.cRead 0) peeked = .next t) ∧ (Instr.cRead 0).port = .c ∧ peeked.cAct = true ∧
    (∃ t, exec .pSpace opened = .next t) ∧ opened.pAct = true :=
  ⟨⟨_, rfl⟩, rfl, by decide, ⟨_, rfl⟩, rfl, ⟨_, rfl⟩, rfl, rfl, ⟨_, rfl⟩, rfl⟩

/-- `DomainsIsolated`: for a producer command two states that differ in domain C and in the storage, and for a consumer
command two that differ in domain P. -/
theorem test_witness_DomainsIsolated :
    opened.rq ≠ [] ∧ SameDomainP opened { opened with rptr := 1, slot := [] } ∧
    (∃ t, exec (.pWrite 1) opened = .next t) ∧ (∃ t, exec (.pWrite 1) { opened with rptr := 1, slot := [] } = .next t) ∧
    peeked.wq ≠ [] ∧ SameDomainC peeked { peeked with wptr := 0 } ∧ SameSlot peeked { peeked with wptr := 0 } ∧
    (∃ t, exec (.cRead 0) peeked = .next t) ∧ (∃ t, exec (.cRead 0) { peeked with wptr := 0 } = .next t) :=
  ⟨by decide, ⟨rfl, rfl, rfl, rfl, rfl⟩, ⟨_, rfl⟩, ⟨_, rfl⟩, by decide, ⟨rfl, rfl, rfl, rfl, rfl⟩, fun _ => rfl,
    ⟨_, rfl⟩, ⟨_, rfl⟩⟩

/-- `WellFormedKept`, `InvariantKept` and `EveryStepCompletes`: states of the invariant with a command or a shift to come. -/
theorem test_witness_InvariantKept :
    (WellFormed opened ∧ Invariant opened ∧ ∃ t, step opened = .next t) ∧
    (WellFormed visible ∧ Invariant visible ∧ ∃ t, step visible = .next t) ∧
    (WellFormed peeked ∧ Invariant peeked ∧ ∃ t, step peeked = .next t) :=
  ⟨⟨test_opened_invariant.wf, test_opened_invariant, _, rfl⟩, ⟨test_visible_invariant.wf, test_visible_invariant, _, rfl⟩,
    ⟨test_peeked_invariant.wf, test_peeked_invariant, _, rfl⟩⟩

/-- `InvariantAtLaunch`: the builds at the ends of the ranges. -/
theorem test_witness_InvariantAtLaunch :
    Config.Valid { maxPayload := 1, ptrW := 1, stages := 0, clocking := .oneClock } ∧
    Config.Valid { maxPayload := 255, ptrW := 8, stages := 2, clocking := .asynchronous } := by decide

/-- `FlagsSafeSide` and `TransactionsExclude`: a clear flag of each kind, and a transaction on each port. -/
theorem test_witness_TransactionsExclude :
    Invariant State.reset ∧ fullP State.reset = false ∧ Invariant visible ∧ emptyC visible = false ∧
    Invariant opened ∧ opened.pAct = true ∧ (∃ t, exec (.pCommit 2) opened = .next t) ∧
    Invariant peeked ∧ peeked.cAct = true ∧ ∃ t, exec (.cRelease true) peeked = .next t :=
  ⟨test_reset_invariant, by decide, test_visible_invariant, by decide, test_opened_invariant, rfl, ⟨_, rfl⟩,
    test_peeked_invariant, rfl, _, rfl⟩

/-- `UnreachableFaults` and `FirstInFirstOut`: a run of one step. -/
theorem test_witness_UnreachableFaults :
    Config.default.Valid ∧
    ∃ u, Host.Core.run core 1 (launch Config.default [0x2001] [0xA000] [.portC, .portP]) = .next u := ⟨by decide, _, rfl⟩

/-- `MeasuredLength`. -/
theorem test_witness_MeasuredLength : Invariant opened ∧ opened.pFault = 0#3 ∧ opened.pAct = true :=
  ⟨test_opened_invariant, rfl, rfl⟩

/-- `ExclusiveAccess`: a step that writes the storage, and the two ways the consumer can read it. -/
theorem test_witness_ExclusiveAccess :
    (Invariant opened ∧ ∃ t, step opened = .next t ∧ t.slot ≠ opened.slot) ∧
    (Invariant visible ∧ emptyC visible = false) ∧ (Invariant peeked ∧ peeked.cAct = true) :=
  ⟨⟨test_opened_invariant, _, rfl, by decide⟩, ⟨test_visible_invariant, by decide⟩, test_peeked_invariant, rfl⟩

/-- `SlotStable` and `NonDestructivePeek`: no step, and one that does not remove the slot, with no transaction open and with
one. -/
theorem test_witness_NonDestructivePeek :
    (Invariant visible ∧ emptyC visible = false ∧ ∃ u, Host.Core.run core 1 visible = .next u ∧ rc u = rc visible) ∧
    (Host.Core.run core 0 visible = .next visible ∧ visible.cFault = 0#3 ∧ visible.cAct = false) ∧
    (Invariant peeked ∧ emptyC peeked = false ∧ Host.Core.run core 0 peeked = .next peeked ∧ peeked.cFault = 0#3 ∧
      peeked.cAct = true ∧ (0#8).toNat < peeked.cLen.toNat) :=
  ⟨⟨test_visible_invariant, by decide, _, rfl, rfl⟩, ⟨rfl, rfl, rfl⟩, test_peeked_invariant, by decide, rfl, rfl, rfl,
    by decide⟩

/-- `EmptyAtOnce`. -/
theorem test_witness_EmptyAtOnce : Invariant peeked ∧ peeked.cFault = 0#3 ∧ peeked.cAct = true :=
  ⟨test_peeked_invariant, rfl, rfl⟩

/-- `CommitLatency`: the commit, then one SyncW step, which is one too few, and two, which are enough. -/
theorem test_witness_CommitLatency :
    Invariant opened ∧ opened.sched = [.portP, .syncW, .syncW] ∧
    opened.hostP.cmds[opened.hostP.idx]? = some (encode (.pCommit 2)) ∧ opened.pFault = 0#3 ∧ opened.pAct = true ∧
    ∃ t, step opened = .next t ∧
      (∃ u, Host.Core.run core 1 t = .next u) ∧
      ((t.sched.take 1).filter (fun a => a = .syncW)).length < opened.cfg.stages ∧
      (∃ u, Host.Core.run core 2 t = .next u ∧ rc u = rc t) ∧
      opened.cfg.stages ≤ ((t.sched.take 2).filter (fun a => a = .syncW)).length :=
  ⟨test_opened_invariant, rfl, by decide, rfl, rfl, _, rfl, ⟨_, rfl⟩, by decide, ⟨_, rfl, rfl⟩, by decide⟩

/-- `ReleaseLatency`: the removal, then one SyncR step, and two. -/
theorem test_witness_ReleaseLatency :
    Invariant peeked ∧ peeked.sched = [.portC, .syncR, .syncR] ∧
    peeked.hostC.cmds[peeked.hostC.idx]? = some (encode (.cRelease true)) ∧ peeked.cFault = 0#3 ∧ peeked.cAct = true ∧
    ∃ t, step peeked = .next t ∧
      (∃ u, Host.Core.run core 1 t = .next u) ∧
      ((t.sched.take 1).filter (fun a => a = .syncR)).length < peeked.cfg.stages ∧
      (∃ u, Host.Core.run core 2 t = .next u ∧ wc u = wc t) ∧
      peeked.cfg.stages ≤ ((t.sched.take 2).filter (fun a => a = .syncR)).length :=
  ⟨test_peeked_invariant, rfl, by decide, rfl, rfl, _, rfl, ⟨_, rfl⟩, by decide, ⟨_, rfl, rfl⟩, by decide⟩

/-- `PortsCommute`: a commit and a query of the port that does not see it yet. -/
theorem test_witness_PortsCommute :
    Invariant opened ∧ 1 ≤ opened.cfg.stages ∧ (Instr.pCommit 2).port = .p ∧ (Instr.cHasdata).port = .c ∧
    ∃ a, exec (.pCommit 2) opened = .next a ∧ ∃ b, exec .cHasdata a = .next b :=
  ⟨test_opened_invariant, by decide, rfl, rfl, _, rfl, _, rfl⟩

/-- `MalformedStays`: the smallest length over `MAX_PAYLOAD`. -/
theorem test_witness_MalformedStays :
    Wedged { committed with slot := [(0, 2), (1, 28)] } ∧ committed.cFault = 0#3 ∧ committed.pFault = 0#3 :=
  ⟨⟨by decide, by decide, ⟨by decide, by decide⟩, rfl, rfl, ⟨2, rfl⟩, 28, rfl, by decide⟩, rfl, rfl⟩

/-- `EndOfRunStays`: a good end and one that is not. -/
theorem test_witness_EndOfRunStays :
    GoodEnd State.reset ∧ EndOfRun { State.reset with pFault := 5 } ∧ ∃ t, step State.reset = .next t :=
  ⟨⟨⟨by decide, by decide, by decide, by decide⟩, rfl, rfl, rfl, rfl⟩, ⟨by decide, by decide, by decide, by decide⟩, _, rfl⟩

end Sys2Proof.Tests
end

section
/-! PROOFS. What a step is when an agent is scheduled and a port decodes the presented word (00_scope R13, 10_state R20, R23). -/

namespace Sys2Proof.Machine

/-- 10_state R20: a step is the turn of the agent that leads the schedule, which has left the schedule by then. -/
theorem step_of_sched (s : State) (a : Agent) (rest : List Agent) (h : s.sched = a :: rest) :
    step s = agentTurn a { s with sched := rest } := by
  simp only [step, scheduledTurn, h]

/-- 41_producer R120, 42_consumer R150: a port that decodes the presented word executes it. -/
theorem portTurn_of_decoded (port : Port) (s : State) (w : Word) (i : Instr)
    (hw : presented port s = some w) (hd : decode port w = .ok i) :
    portTurn port s = exec i (advance port s) := by
  simp only [portTurn, hw, hd]

/-- The step of an agent `a` that is a port's (`ha`): leaving the schedule does not change the word presented, so the turn
executes the command, past the word taken. -/
theorem step_of_decoded (port : Port) (a : Agent) (ha : ∀ t, agentTurn a t = portTurn port t) (s : State) (rest : List Agent)
    (w : Word) (i : Instr) (hs : s.sched = a :: rest) (hw : presented port s = some w) (hd : decode port w = .ok i) :
    step s = exec i (advance port { s with sched := rest }) := by
  have hpres : presented port { s with sched := rest } = some w := (presented_sched port s rest).trans hw
  calc step s
      = agentTurn a { s with sched := rest } := step_of_sched s a rest hs
    _ = portTurn port { s with sched := rest } := ha _
    _ = exec i (advance port { s with sched := rest }) := portTurn_of_decoded port _ w i hpres hd

/-- Settles O7: `step_of_decoded` at each port. -/
theorem stepRunsCommand : Obligations.StepRunsCommand := by
  unfold Obligations.StepRunsCommand
  constructor
  · intro s rest w i hs hw hd
    exact step_of_decoded .p .portP (fun _ => rfl) s rest w i hs hw hd
  · intro s rest w i hs hw hd
    exact step_of_decoded .c .portC (fun _ => rfl) s rest w i hs hw hd

end Sys2Proof.Machine
end

section
/-! PROOFS. What each port's commands leave unchanged, and who writes each register (10_state R21, R24, 20_memory R50, R56).
`ProducerKeeps` and `ConsumerKeeps` name the frame of a port; every command, every illegal word and every idle turn of the
port keeps it. -/

namespace Sys2Proof.Machine

/-! ## The two frames -/

/-- What PortP leaves: the build, domain C, the stages of `RQ` and host C. -/
structure ProducerKeeps (s t : State) : Prop where
  cfg : t.cfg = s.cfg
  domainC : SameDomainC s t
  rq : t.rq = s.rq
  hostC : t.hostC = s.hostC

/-- What PortC leaves: the build, domain P, the stages of `WQ`, the storage and host P. -/
structure ConsumerKeeps (s t : State) : Prop where
  cfg : t.cfg = s.cfg
  domainP : SameDomainP s t
  wq : t.wq = s.wq
  slot : t.slot = s.slot
  hostP : t.hostP = s.hostP

theorem SameDomainP.trans {s t u : State} (h : SameDomainP s t) (k : SameDomainP t u) : SameDomainP s u :=
  ⟨k.wptr.trans h.wptr, k.rq.trans h.rq, k.pAct.trans h.pAct, k.wcnt.trans h.wcnt, k.pFault.trans h.pFault⟩

theorem SameDomainC.trans {s t u : State} (h : SameDomainC s t) (k : SameDomainC t u) : SameDomainC s u :=
  ⟨k.rptr.trans h.rptr, k.wq.trans h.wq, k.cAct.trans h.cAct, k.cLen.trans h.cLen, k.cFault.trans h.cFault⟩

theorem ProducerKeeps.trans {s t u : State} (h : ProducerKeeps s t) (k : ProducerKeeps t u) : ProducerKeeps s u :=
  ⟨k.cfg.trans h.cfg, h.domainC.trans k.domainC, k.rq.trans h.rq, k.hostC.trans h.hostC⟩

theorem ConsumerKeeps.trans {s t u : State} (h : ConsumerKeeps s t) (k : ConsumerKeeps t u) : ConsumerKeeps s u :=
  ⟨k.cfg.trans h.cfg, h.domainP.trans k.domainP, k.wq.trans h.wq, k.slot.trans h.slot, k.hostP.trans h.hostP⟩

/-- Host P's index and the schedule are outside the frame of PortP. -/
theorem producerKeeps_advance (s : State) (l : List Agent) : ProducerKeeps s (advance .p { s with sched := l }) :=
  ⟨rfl, ⟨rfl, rfl, rfl, rfl, rfl⟩, rfl, rfl⟩

/-- Host C's index and the schedule are outside the frame of PortC. -/
theorem consumerKeeps_advance (s : State) (l : List Agent) : ConsumerKeeps s (advance .c { s with sched := l }) :=
  ⟨rfl, ⟨rfl, rfl, rfl, rfl, rfl⟩, rfl, rfl, rfl⟩

theorem producerKeeps_fault (s : State) (code : FaultCode) :
    ProducerKeeps s (respond .p .fault 0#8 0#8 (recordFault .p code s)) :=
  ⟨by simp, ⟨by simp, by simp, by simp, by simp, by simp⟩, by simp, by simp⟩

theorem consumerKeeps_fault (s : State) (code : FaultCode) :
    ConsumerKeeps s (respond .c .fault 0#8 0#8 (recordFault .c code s)) :=
  ⟨by simp, ⟨by simp, by simp, by simp, by simp, by simp⟩, by simp, by simp, by simp⟩

section Producer

variable {s t : State} {i : Instr}

/-- No way a producer command ends writes outside domain P, the storage and host P. -/
theorem ProducerEffect.keeps (e : ProducerEffect s i t) : ProducerKeeps s t := by
  cases e with
  | faulted => exact producerKeeps_fault s _
  | _ => exact ⟨rfl, ⟨rfl, rfl, rfl, rfl, rfl⟩, rfl, rfl⟩

/-- Of host P a producer command adds one response and nothing else (30_encoding R71). -/
theorem ProducerEffect.hostP_receive (e : ProducerEffect s i t) : ∃ r, t.hostP = s.hostP.receive r := by
  cases e with
  | faulted i code h0 h => exact ⟨respWord .fault 0#8 0#8, by simp⟩
  | _ => exact ⟨_, rfl⟩

theorem ProducerEffect.sched_frame (e : ProducerEffect s i t) : t.sched = s.sched := by
  cases e <;> simp

theorem ProducerEffect.sameInputs (e : ProducerEffect s i t) : SameInputs s t := by
  obtain ⟨hcfg, -, -, hostC⟩ := e.keeps
  obtain ⟨r, hostP⟩ := e.hostP_receive
  exact ⟨hcfg, e.sched_frame, by simp [hostP], by simp [hostP], by simp [hostC], by simp [hostC]⟩

/-- A faulted port P is turned away or asks a query, and neither touches `P_FAULT`. -/
theorem ProducerEffect.pFault_sticky (e : ProducerEffect s i t) (h : s.pFault ≠ 0#3) : t.pFault = s.pFault := by
  cases e with
  | turnedAway => simp
  | query => simp
  | faulted _ _ h0 => exact absurd h0 h
  | opened _ h0 => exact absurd h0 h
  | wrote _ h0 => exact absurd h0 h
  | committed _ h0 => exact absurd h0 h
  | cancelled h0 => exact absurd h0 h

/-- `WPTR` moves by P_COMMIT alone (10_state R25). -/
theorem ProducerEffect.wptr_frame (e : ProducerEffect s i t) (hc : ∀ llid, i ≠ .pCommit llid) : t.wptr = s.wptr := by
  cases e with
  | committed llid => exact absurd rfl (hc llid)
  | _ => simp

/-- `P_ACT` changes where a transaction opens or closes (10_state R27). -/
theorem ProducerEffect.pAct_frame (e : ProducerEffect s i t) (hb : ∀ n, i ≠ .pBegin n) (hc : ∀ llid, i ≠ .pCommit llid)
    (hx : i ≠ .pCancel) : t.pAct = s.pAct := by
  cases e with
  | opened n => exact absurd rfl (hb n)
  | committed llid => exact absurd rfl (hc llid)
  | cancelled => exact absurd rfl hx
  | _ => simp

/-- `WCNT` changes where a transaction opens or closes and by P_WRITE (10_state R28). -/
theorem ProducerEffect.wcnt_frame (e : ProducerEffect s i t) (hb : ∀ n, i ≠ .pBegin n) (hw : ∀ b, i ≠ .pWrite b)
    (hc : ∀ llid, i ≠ .pCommit llid) (hx : i ≠ .pCancel) : t.wcnt = s.wcnt := by
  cases e with
  | opened n => exact absurd rfl (hb n)
  | wrote b => exact absurd rfl (hw b)
  | committed llid => exact absurd rfl (hc llid)
  | cancelled => exact absurd rfl hx
  | _ => simp

/-- A byte of the storage stays unless P_WRITE's address or a header byte of P_COMMIT is its own (20_memory R54). -/
theorem ProducerEffect.memGet_frame (e : ProducerEffect s i t) (a : Nat) (hw : ∀ b, i = .pWrite b → a ≠ payloadAddr s.wcnt)
    (hc : ∀ llid, i = .pCommit llid → a ≠ 0 ∧ a ≠ 1) : memGet t.slot a = memGet s.slot a := by
  cases e with
  | wrote b => simp [hw b rfl]
  | committed llid => simp [hc llid rfl]
  | _ => simp

end Producer

section Consumer

variable {s t : State} {i : Instr}

/-- No way a consumer command ends writes outside domain C and host C. -/
theorem ConsumerEffect.keeps (e : ConsumerEffect s i t) : ConsumerKeeps s t := by
  cases e with
  | faulted => exact consumerKeeps_fault s _
  | _ => exact ⟨rfl, ⟨rfl, rfl, rfl, rfl, rfl⟩, rfl, rfl, rfl⟩

/-- Of host C a consumer command adds one response and nothing else (30_encoding R71). -/
theorem ConsumerEffect.hostC_receive (e : ConsumerEffect s i t) : ∃ r, t.hostC = s.hostC.receive r := by
  cases e with
  | faulted i code h0 h => exact ⟨respWord .fault 0#8 0#8, by simp⟩
  | _ => exact ⟨_, rfl⟩

theorem ConsumerEffect.sched_frame (e : ConsumerEffect s i t) : t.sched = s.sched := by
  cases e <;> simp

theorem ConsumerEffect.sameInputs (e : ConsumerEffect s i t) : SameInputs s t := by
  obtain ⟨hcfg, -, -, -, hostP⟩ := e.keeps
  obtain ⟨r, hostC⟩ := e.hostC_receive
  exact ⟨hcfg, e.sched_frame, by simp [hostP], by simp [hostP], by simp [hostC], by simp [hostC]⟩

/-- A faulted port C is turned away or asks a query, and neither touches `C_FAULT`. -/
theorem ConsumerEffect.cFault_sticky (e : ConsumerEffect s i t) (h : s.cFault ≠ 0#3) : t.cFault = s.cFault := by
  cases e with
  | turnedAway => simp
  | query => simp
  | faulted _ _ h0 => exact absurd h0 h
  | opened h0 => exact absurd h0 h
  | read _ _ h0 => exact absurd h0 h
  | removed h0 => exact absurd h0 h
  | kept h0 => exact absurd h0 h

/-- `RPTR` moves by C_RELEASE 1 alone (10_state R30). -/
theorem ConsumerEffect.rptr_frame (e : ConsumerEffect s i t) (hr : i ≠ .cRelease true) : t.rptr = s.rptr := by
  cases e with
  | removed => exact absurd rfl hr
  | _ => simp

/-- `C_ACT` and `C_LEN` change where a transaction opens or closes (10_state R32, R33). -/
theorem ConsumerEffect.transaction_frame (e : ConsumerEffect s i t) (hp : i ≠ .cPeek) (hr : ∀ f, i ≠ .cRelease f) :
    t.cAct = s.cAct ∧ t.cLen = s.cLen := by
  cases e with
  | opened => exact absurd rfl hp
  | removed => exact absurd rfl (hr true)
  | kept => exact absurd rfl (hr false)
  | _ => simp

end Consumer

/-- Settles O38: each part of the frame is a lemma about `ProducerEffect`, everything a producer command can do. -/
theorem producerFrame : Obligations.ProducerFrame := by
  unfold Obligations.ProducerFrame
  intro i s t hp hx
  have e := exec_producer i s t hp hx
  exact ⟨e.keeps.domainC, e.sameInputs, e.keeps.rq, e.pFault_sticky, e.wptr_frame, e.pAct_frame, e.wcnt_frame, e.memGet_frame⟩

/-- Settles O39: each part of the frame is a lemma about `ConsumerEffect`, everything a consumer command can do. -/
theorem consumerFrame : Obligations.ConsumerFrame := by
  unfold Obligations.ConsumerFrame
  intro i s t hp hx
  have e := exec_consumer i s t hp hx
  have hslot : t.slot = s.slot := e.keeps.slot
  exact ⟨e.keeps.domainP, e.sameInputs, e.keeps.wq, fun a => by rw [hslot], hslot, e.cFault_sticky, e.rptr_frame, e.transaction_frame⟩

/-! ## The writer of a step -/

/-- A step changes nothing, or it is the turn of one agent, which leaves what that agent does not write. -/
theorem StepEffect.writer {s t : State} (e : StepEffect s t) :
    t = s ∨ (s.sched.head? = some .portP ∧ ProducerKeeps s t) ∨ (s.sched.head? = some .portC ∧ ConsumerKeeps s t) ∨
    (∃ rest, s.sched = .syncW :: rest ∧ t = Machine.syncW { s with sched := rest }) ∨
    (∃ rest, s.sched = .syncR :: rest ∧ t = Machine.syncR { s with sched := rest }) := by
  cases e with
  | idle => exact .inl rfl
  | noWord port a rest hs ha hn =>
    cases port with
    | p => exact .inr (.inl ⟨by simp [hs, ha], rfl, ⟨rfl, rfl, rfl, rfl, rfl⟩, rfl, rfl⟩)
    | c => exact .inr (.inr (.inl ⟨by simp [hs, ha], rfl, ⟨rfl, rfl, rfl, rfl, rfl⟩, rfl, rfl, rfl⟩))
  | illegal port a rest hs ha w e hw hd =>
    cases port with
    | p => exact .inr (.inl ⟨by simp [hs, ha], (producerKeeps_advance s rest).trans (producerKeeps_fault _ _)⟩)
    | c => exact .inr (.inr (.inl ⟨by simp [hs, ha], (consumerKeeps_advance s rest).trans (consumerKeeps_fault _ _)⟩))
  | command port a rest t hs ha w i hw hd hx =>
    have hp := decode_port port w i hd
    cases port with
    | p => exact .inr (.inl ⟨by simp [hs, ha], (producerKeeps_advance s rest).trans (exec_producer i _ t hp hx).keeps⟩)
    | c => exact .inr (.inr (.inl ⟨by simp [hs, ha], (consumerKeeps_advance s rest).trans (exec_consumer i _ t hp hx).keeps⟩))
  | syncW rest hs => exact .inr (.inr (.inr (.inl ⟨rest, hs, rfl⟩)))
  | syncR rest hs => exact .inr (.inr (.inr (.inr ⟨rest, hs, rfl⟩)))

/-- Settles O41: by the agent whose turn the step is. -/
theorem singleWriter : Obligations.SingleWriter := by
  unfold Obligations.SingleWriter
  intro s t h
  rcases (step_effect s t h).writer with rfl | ⟨hs, k⟩ | ⟨hs, k⟩ | ⟨rest, hs, rfl⟩ | ⟨rest, hs, rfl⟩
  · simp
  · obtain ⟨hcfg, ⟨rptr, wq, cAct, cLen, cFault⟩, rq, hostC⟩ := k
    exact ⟨hcfg, fun hp => absurd hs hp, fun _ => ⟨rptr, cAct, cLen, cFault, hostC⟩, fun _ => wq, fun _ => rq⟩
  · obtain ⟨hcfg, ⟨wptr, rq, pAct, wcnt, pFault⟩, wq, slot, hostP⟩ := k
    exact ⟨hcfg, fun _ => ⟨wptr, pAct, wcnt, pFault, slot, hostP⟩, fun hc => absurd hs hc, fun _ => wq, fun _ => rq⟩
  · simp [hs]
  · simp [hs]

end Sys2Proof.Machine
end

section
/-! PROOFS. Every step keeps the ranges of the registers, the canonical form of the storage and the hosts' bookkeeping
(10_state R25 to R35, 20_memory R53). `WellFormed` falls apart by domain, so that a port's turn owes only what it writes and
the frames give the rest. -/

namespace Sys2Proof.Machine

/-! ## Well-formedness by domain -/

/-- The part of `WellFormed` about domain P. -/
structure DomainPWf (s : State) : Prop where
  rqLength : s.rq.length = s.cfg.stages
  wptrWidth : s.wptr.toNat < 2 ^ s.cfg.ptrW
  rqWidth : ∀ x ∈ s.rq, x.toNat < 2 ^ s.cfg.ptrW
  wcntRange : s.wcnt.toNat ≤ s.cfg.maxPayload
  wcntClosed : s.pAct = false → s.wcnt = 0#8
  pFaultCode : s.pFault.toNat ≤ 5

/-- The part of `WellFormed` about domain C. -/
structure DomainCWf (s : State) : Prop where
  wqLength : s.wq.length = s.cfg.stages
  rptrWidth : s.rptr.toNat < 2 ^ s.cfg.ptrW
  wqWidth : ∀ x ∈ s.wq, x.toNat < 2 ^ s.cfg.ptrW
  cLenRange : s.cLen.toNat ≤ s.cfg.maxPayload
  cLenClosed : s.cAct = false → s.cLen = 0#8
  cFaultCode : s.cFault.toNat ≤ 5

/-- The part of `WellFormed` about the storage. -/
structure SlotWf (s : State) : Prop where
  form : Memory.wf s.slot
  range : ∀ e ∈ s.slot, e.1 < s.cfg.slotBytes

theorem wellFormed_iff (s : State) :
    WellFormed s ↔ s.cfg.Valid ∧ DomainPWf s ∧ DomainCWf s ∧ SlotWf s ∧ s.hostP.Wf ∧ s.hostC.Wf := by
  constructor
  · intro h
    exact ⟨h.cfg, ⟨h.rqLength, h.wptrWidth, h.rqWidth, h.wcntRange, h.wcntClosed, h.pFaultCode⟩,
      ⟨h.wqLength, h.rptrWidth, h.wqWidth, h.cLenRange, h.cLenClosed, h.cFaultCode⟩, ⟨h.slotForm, h.slotRange⟩, h.hostP, h.hostC⟩
  · rintro ⟨hv, hp, hc, hs, hostP, hostC⟩
    exact ⟨hv, hp.rqLength, hc.wqLength, hp.wptrWidth, hc.rptrWidth, hp.rqWidth, hc.wqWidth, hp.wcntRange, hc.cLenRange,
      hp.wcntClosed, hc.cLenClosed, hp.pFaultCode, hc.cFaultCode, hs.form, hs.range, hostP, hostC⟩

section Congruence

variable {s t : State}

theorem DomainPWf.of_same (h : DomainPWf s) (hcfg : t.cfg = s.cfg) (hd : SameDomainP s t) : DomainPWf t := by
  obtain ⟨wptr, rq, pAct, wcnt, pFault⟩ := hd
  obtain ⟨rqLength, wptrWidth, rqWidth, wcntRange, wcntClosed, pFaultCode⟩ := h
  constructor <;> simpa only [hcfg, wptr, rq, pAct, wcnt, pFault]

theorem DomainCWf.of_same (h : DomainCWf s) (hcfg : t.cfg = s.cfg) (hd : SameDomainC s t) : DomainCWf t := by
  obtain ⟨rptr, wq, cAct, cLen, cFault⟩ := hd
  obtain ⟨wqLength, rptrWidth, wqWidth, cLenRange, cLenClosed, cFaultCode⟩ := h
  constructor <;> simpa only [hcfg, rptr, wq, cAct, cLen, cFault]

theorem SlotWf.of_same (h : SlotWf s) (hcfg : t.cfg = s.cfg) (hslot : t.slot = s.slot) : SlotWf t := by
  obtain ⟨form, range⟩ := h
  constructor <;> simpa only [hcfg, hslot]

/-- A turn of PortP owes domain P, the storage and its host. -/
theorem wellFormed_of_producerKeeps (h : WellFormed s) (k : ProducerKeeps s t) (hp : DomainPWf t) (hs : SlotWf t)
    (hh : t.hostP.Wf) : WellFormed t := by
  obtain ⟨hv, -, hc, -, -, hostC⟩ := (wellFormed_iff s).1 h
  exact (wellFormed_iff t).2 ⟨k.cfg ▸ hv, hp, hc.of_same k.cfg k.domainC, hs, hh, k.hostC ▸ hostC⟩

/-- A turn of PortC owes domain C and its host. -/
theorem wellFormed_of_consumerKeeps (h : WellFormed s) (k : ConsumerKeeps s t) (hc : DomainCWf t) (hh : t.hostC.Wf) :
    WellFormed t := by
  obtain ⟨hv, hp, -, hs, hostP, -⟩ := (wellFormed_iff s).1 h
  exact (wellFormed_iff t).2
    ⟨k.cfg ▸ hv, hp.of_same k.cfg k.domainP, hc, hs.of_same k.cfg k.slot, k.hostP ▸ hostP, hh⟩

end Congruence

/-! ## What the shared operations keep -/

/-- An increment is the pointer of some count, so it fits `PTR_W` bits (43_cdc_sync R182). -/
theorem grayInc_width (w : Nat) (h1 : 1 ≤ w) (h8 : w ≤ 8) (x : Ptr) : (grayInc w x).toNat < 2 ^ w := by
  have count : grayInc w x = grayOf w (g2b w x + 1#8).toNat := by
    rw [grayInc, grayOf, and_ptrMask w h8]
  rw [count]
  exact grayOf_toNat w _ h1 h8

theorem shiftChain_width (w : Nat) (chain : List Ptr) (ptr : Ptr) (hc : ∀ x ∈ chain, x.toNat < 2 ^ w)
    (hp : ptr.toNat < 2 ^ w) : ∀ x ∈ shiftChain chain ptr, x.toNat < 2 ^ w := by
  intro x hx
  rcases mem_shiftChain chain ptr x hx with rfl | hx
  · exact hp
  · exact hc x hx

/-- The codes of 60_exceptions R204 end at 5. -/
theorem faultCode_le (code : FaultCode) : code.code.toNat ≤ 5 := by
  cases code <;> decide

/-- Recording a fault keeps domain P in range. -/
theorem domainPWf_fault (s : State) (code : FaultCode) (h : DomainPWf s) :
    DomainPWf (respond .p .fault 0#8 0#8 (recordFault .p code s)) := by
  obtain ⟨rqLength, wptrWidth, rqWidth, wcntRange, wcntClosed, pFaultCode⟩ := h
  refine ⟨by simpa, by simpa, by simpa, by simpa, by simpa, ?_⟩
  simp only [respond_pFault, recordFault_p_pFault]
  split
  · exact faultCode_le code
  · exact pFaultCode

/-- Recording a fault keeps domain C in range. -/
theorem domainCWf_fault (s : State) (code : FaultCode) (h : DomainCWf s) :
    DomainCWf (respond .c .fault 0#8 0#8 (recordFault .c code s)) := by
  obtain ⟨wqLength, rptrWidth, wqWidth, cLenRange, cLenClosed, cFaultCode⟩ := h
  refine ⟨by simpa, by simpa, by simpa, by simpa, by simpa, ?_⟩
  simp only [respond_cFault, recordFault_c_cFault]
  split
  · exact faultCode_le code
  · exact cFaultCode

/-- A write inside the slot keeps the storage canonical and inside the slot (20_memory R53). -/
theorem SlotWf.of_memPut {s t : State} (h : SlotWf s) (a : Nat) (v : Byte) (ha : a < s.cfg.slotBytes) (hcfg : t.cfg = s.cfg)
    (hslot : t.slot = memPut s.slot a v) : SlotWf t where
  form := hslot ▸ wf_memPut s.slot a v h.form
  range := by
    rw [hslot, hcfg]
    intro e he
    rcases mem_memPut s.slot a v e he with rfl | he
    · exact ha
    · exact h.range e he

/-! ## What the commands keep -/

/-- A producer command keeps domain P in range: P_WRITE counts up below `MAX_PAYLOAD` only, and every command that closes the
transaction zeroes `WCNT`. -/
theorem ProducerEffect.domainPWf {s t : State} {i : Instr} (e : ProducerEffect s i t) (hv : s.cfg.Valid) (h : DomainPWf s) :
    DomainPWf t := by
  have same : ∀ rc hi lo, DomainPWf (respond .p rc hi lo s) := fun _ _ _ => h.of_same rfl ⟨rfl, rfl, rfl, rfl, rfl⟩
  cases e with
  | turnedAway => exact same _ _ _
  | faulted _ code => exact domainPWf_fault s code h
  | query => exact same _ _ _
  | opened => exact ⟨h.rqLength, h.wptrWidth, h.rqWidth, by simp, by simp, h.pFaultCode⟩
  | wrote b h0 ha hw =>
    have count : (s.wcnt + 1#8).toNat ≤ s.cfg.maxPayload := by bv_omega
    exact ⟨h.rqLength, h.wptrWidth, h.rqWidth, count, by simp [ha], h.pFaultCode⟩
  | committed =>
    obtain ⟨-, -, h1, h8, -⟩ := hv
    exact ⟨h.rqLength, grayInc_width _ h1 h8 _, h.rqWidth, by simp, by simp, h.pFaultCode⟩
  | cancelled => exact ⟨h.rqLength, h.wptrWidth, h.rqWidth, by simp, by simp, h.pFaultCode⟩

/-- A producer command stores inside the slot only: a payload byte below `MAX_PAYLOAD` or a header byte. -/
theorem ProducerEffect.slotWf {s t : State} {i : Instr} (e : ProducerEffect s i t) (h : SlotWf s) : SlotWf t := by
  cases e with
  | wrote b h0 ha hw => exact h.of_memPut _ b (payloadAddr_exists s.cfg _ hw) rfl rfl
  | committed llid =>
    obtain ⟨h0, h1⟩ := header_exists s.cfg
    have tagged : SlotWf { s with slot := memPut s.slot 0 (llid.setWidth 8) } := h.of_memPut 0 _ h0 rfl rfl
    exact tagged.of_memPut 1 s.wcnt h1 rfl rfl
  | _ => exact h.of_same (by simp) (by simp)

/-- A consumer command keeps domain C in range: C_PEEK opens only on a length within `MAX_PAYLOAD`, and C_RELEASE zeroes
`C_LEN`. -/
theorem ConsumerEffect.domainCWf {s t : State} {i : Instr} (e : ConsumerEffect s i t) (hv : s.cfg.Valid) (h : DomainCWf s) :
    DomainCWf t := by
  have same : ∀ rc hi lo, DomainCWf (respond .c rc hi lo s) := fun _ _ _ => h.of_same rfl ⟨rfl, rfl, rfl, rfl, rfl⟩
  cases e with
  | turnedAway => exact same _ _ _
  | faulted _ code => exact domainCWf_fault s code h
  | query => exact same _ _ _
  | opened h0 ha he b0 b1 g0 g1 hl => exact ⟨h.wqLength, h.rptrWidth, h.wqWidth, hl, by simp, h.cFaultCode⟩
  | read => exact same _ _ _
  | removed =>
    obtain ⟨-, -, h1, h8, -⟩ := hv
    exact ⟨h.wqLength, grayInc_width _ h1 h8 _, h.wqWidth, by simp, by simp, h.cFaultCode⟩
  | kept => exact ⟨h.wqLength, h.rptrWidth, h.wqWidth, by simp, by simp, h.cFaultCode⟩

/-! ## What each agent's step keeps -/

/-- A synchroniser's shift takes its values from the chain and the pointer it samples. -/
theorem wellFormed_syncW (s : State) (h : WellFormed s) : WellFormed (syncW s) :=
  { h with
    wqLength := by simp [h.wqLength]
    wqWidth := shiftChain_width _ _ _ h.wqWidth h.wptrWidth }

theorem wellFormed_syncR (s : State) (h : WellFormed s) : WellFormed (syncR s) :=
  { h with
    rqLength := by simp [h.rqLength]
    rqWidth := shiftChain_width _ _ _ h.rqWidth h.rptrWidth }

/-- The schedule is outside `WellFormed`. -/
theorem wellFormed_sched (s : State) (l : List Agent) (h : WellFormed s) : WellFormed { s with sched := l } := { h with }

/-- A turn of PortP that takes a word and answers it, whether it executes the word or faults it. -/
theorem wellFormed_turn_p (s t : State) (w : Word) (h : WellFormed s) (hw : presented .p s = some w)
    (k : ProducerKeeps (advance .p s) t) (hr : ∃ r, t.hostP = (advance .p s).hostP.receive r)
    (hp : DomainPWf (advance .p s) → DomainPWf t) (hs : SlotWf (advance .p s) → SlotWf t) : WellFormed t := by
  obtain ⟨-, domP, -, slot, hostP, -⟩ := (wellFormed_iff s).1 h
  obtain ⟨r, hr⟩ := hr
  have answered : t.hostP.Wf := hr ▸ wf_push s.hostP w r hostP hw
  exact wellFormed_of_producerKeeps h ((producerKeeps_advance s s.sched).trans k)
    (hp (domP.of_same rfl ⟨rfl, rfl, rfl, rfl, rfl⟩)) (hs (slot.of_same rfl rfl)) answered

/-- A turn of PortC that takes a word and answers it, whether it executes the word or faults it. -/
theorem wellFormed_turn_c (s t : State) (w : Word) (h : WellFormed s) (hw : presented .c s = some w)
    (k : ConsumerKeeps (advance .c s) t) (hr : ∃ r, t.hostC = (advance .c s).hostC.receive r)
    (hc : DomainCWf (advance .c s) → DomainCWf t) : WellFormed t := by
  obtain ⟨-, -, domC, -, -, hostC⟩ := (wellFormed_iff s).1 h
  obtain ⟨r, hr⟩ := hr
  have answered : t.hostC.Wf := hr ▸ wf_push s.hostC w r hostC hw
  exact wellFormed_of_consumerKeeps h ((consumerKeeps_advance s s.sched).trans k)
    (hc (domC.of_same rfl ⟨rfl, rfl, rfl, rfl, rfl⟩)) answered

/-- Settles O43: each way a step can end keeps `WellFormed`. -/
theorem wellFormedKept : Obligations.WellFormedKept := by
  unfold Obligations.WellFormedKept
  intro s t h hx
  have hs : ∀ rest, WellFormed { s with sched := rest } := fun rest => wellFormed_sched s rest h
  cases step_effect s t hx with
  | idle => exact h
  | noWord port a rest => exact hs rest
  | illegal port a rest _ _ w _ hw _ =>
    rw [← presented_sched port s rest] at hw
    cases port with
    | p =>
      exact wellFormed_turn_p _ _ w (hs rest) hw (producerKeeps_fault _ _) ⟨respWord .fault 0#8 0#8, by simp⟩
        (domainPWf_fault _ _) (fun h => h.of_same (by simp) (by simp))
    | c =>
      exact wellFormed_turn_c _ _ w (hs rest) hw (consumerKeeps_fault _ _) ⟨respWord .fault 0#8 0#8, by simp⟩
        (domainCWf_fault _ _)
  | command port a rest _ _ _ w i hw hd hx =>
    rw [← presented_sched port s rest] at hw
    have hp := decode_port port w i hd
    have hv : s.cfg.Valid := h.cfg
    cases port with
    | p =>
      have e := exec_producer i _ t hp hx
      exact wellFormed_turn_p _ t w (hs rest) hw e.keeps e.hostP_receive (e.domainPWf hv) e.slotWf
    | c =>
      have e := exec_consumer i _ t hp hx
      exact wellFormed_turn_c _ t w (hs rest) hw e.keeps e.hostC_receive (e.domainCWf hv)
  | syncW rest => exact wellFormed_syncW _ (hs rest)
  | syncR rest => exact wellFormed_syncR _ (hs rest)

end Sys2Proof.Machine
end

section
/-! PROOFS. With a stage between the domains a command sees its own domain only (10_state R21, R42): two runs of one command
from states that agree on what the command reads agree on what it writes. `Agree` relates the two results, with one rule for
each operation the commands are built from. -/

namespace Sys2Proof.Machine

/-! ## Two results that agree where both complete -/

/-- Where both results are next states, the states are related. -/
def Agree (R : State → State → Prop) (x y : Result) : Prop := ∀ t u, x = .next t → y = .next u → R t u

section Rules

variable {R : State → State → Prop}

theorem Agree.next {t u : State} (h : R t u) : Agree R (.next t) (.next u) := by
  intro t' u' ht hu
  cases ht
  cases hu
  exact h

theorem Agree.ite {c d : Prop} [Decidable c] [Decidable d] {x x' y y' : Result} (hcd : c ↔ d) (hx : Agree R x y)
    (hx' : Agree R x' y') : Agree R (if c then x else x') (if d then y else y') := by
  by_cases hc : c
  · rwa [if_pos hc, if_pos (hcd.1 hc)]
  · rwa [if_neg hc, if_neg (mt hcd.2 hc)]

theorem Agree.unlessFaulted (port : Port) {s u : State} {x y : Result} (hf : portFault port u = portFault port s)
    (ha : R (respond port .fault 0#8 0#8 s) (respond port .fault 0#8 0#8 u)) (hb : Agree R x y) :
    Agree R (unlessFaulted port s x) (unlessFaulted port u y) :=
  Agree.ite (by rw [hf]) (.next ha) hb

/-- Both reads give the byte the two storages share. -/
theorem Agree.withByte {s u : State} {k l : Byte → Result} (a : Nat) (hslot : SameSlot s u)
    (hk : ∀ v, Agree R (k v) (l v)) : Agree R (withByte s a k) (withByte u a l) := by
  intro t t' ht hu
  obtain ⟨v, -, hv, ht⟩ := withByte_next _ _ _ _ ht
  obtain ⟨v', -, hv', hu⟩ := withByte_next _ _ _ _ hu
  rw [hslot a, hv] at hv'
  cases hv'
  exact hk v t t' ht hu

/-- The two storages may differ: a write ignores what they hold. -/
theorem Agree.storing {s u : State} {k l : State → Result} (a : Nat) (v : Byte)
    (hk : Agree R (k { s with slot := memPut s.slot a v }) (l { u with slot := memPut u.slot a v })) :
    Agree R (storing s a v k) (storing u a v l) := by
  intro t t' ht hu
  exact hk t t' (storing_next _ _ _ _ _ ht).2 (storing_next _ _ _ _ _ hu).2

end Rules

/-! ## The producer's side -/

/-- Two states of one build that agree on domain P and host P. -/
structure AgreeP (s u : State) : Prop where
  cfg : u.cfg = s.cfg
  domain : SameDomainP s u
  host : u.hostP = s.hostP

section Producer

variable {s u : State}

theorem AgreeP.respond (h : AgreeP s u) (rc : RespCode) (hi lo : Byte) :
    AgreeP (respond .p rc hi lo s) (respond .p rc hi lo u) := by
  obtain ⟨hcfg, ⟨wptr, rq, pAct, wcnt, pFault⟩, host⟩ := h
  exact ⟨by simpa, ⟨by simpa, by simpa, by simpa, by simpa, by simpa⟩, by simp [host]⟩

theorem AgreeP.recordFault (h : AgreeP s u) (code : FaultCode) : AgreeP (recordFault .p code s) (recordFault .p code u) := by
  obtain ⟨hcfg, ⟨wptr, rq, pAct, wcnt, pFault⟩, host⟩ := h
  exact ⟨by simpa, ⟨by simpa, by simpa, by simpa, by simpa, by simp [pFault]⟩, by simpa⟩

theorem AgreeP.raiseFault (h : AgreeP s u) (code : FaultCode) : Agree AgreeP (raiseFault .p code s) (raiseFault .p code u) :=
  .next ((h.recordFault code).respond _ _ _)

theorem AgreeP.unlessFaulted (h : AgreeP s u) {x y : Result} (hb : Agree AgreeP x y) :
    Agree AgreeP (unlessFaulted .p s x) (unlessFaulted .p u y) :=
  Agree.unlessFaulted .p h.domain.pFault (h.respond _ _ _) hb

/-- The same answer with the same registers of domain P, whatever the storages hold. -/
theorem AgreeP.answer {s' u' : State} (h : AgreeP s' u') (rc : RespCode) {hi hi' lo lo' : Byte} (hhi : hi' = hi) (hlo : lo' = lo) :
    Agree AgreeP (.next (Machine.respond .p rc hi lo s')) (.next (Machine.respond .p rc hi' lo' u')) := by
  subst hhi hlo
  exact .next (h.respond _ _ _)

/-- A producer command reads of the other domain nothing but `FULL_P`. -/
theorem AgreeP.exec (h : AgreeP s u) (hf : fullP u = fullP s) (i : Instr) (hp : i.port = .p) :
    Agree AgreeP (exec i s) (exec i u) := by
  have ⟨hcfg, ⟨wptr, rq, pAct, wcnt, pFault⟩, host⟩ := h
  have closed : (!s.pAct) = true ↔ (!u.pAct) = true := by rw [pAct]
  have full : fullP s = true ↔ fullP u = true := by rw [hf]
  cases i with
  | pFree =>
    exact h.unlessFaulted (.ite full (h.answer _ rfl rfl) (h.answer _ rfl (by rw [hcfg])))
  | pBegin n =>
    refine h.unlessFaulted (.ite (by rw [pAct]) (h.raiseFault _) (.ite (by rw [hcfg]) (h.raiseFault _)
      (.ite full (h.answer _ rfl rfl) (AgreeP.answer ?_ _ rfl (by rw [hcfg])))))
    exact ⟨hcfg, ⟨wptr, rq, rfl, rfl, pFault⟩, host⟩
  | pWrite b =>
    refine h.unlessFaulted (.ite closed (h.raiseFault _) (.ite (by rw [writerFull, writerFull, wcnt, hcfg]) (h.answer _ rfl rfl) ?_))
    rw [wcnt, hcfg]
    refine Agree.storing _ _ (AgreeP.answer ?_ _ rfl rfl)
    exact ⟨hcfg, ⟨wptr, rq, pAct, rfl, pFault⟩, host⟩
  | pSpace =>
    exact h.unlessFaulted (.ite closed (h.raiseFault _) (h.answer _ rfl (by rw [spaceLeft, spaceLeft, wcnt, hcfg])))
  | pCommit llid =>
    refine h.unlessFaulted (.ite closed (h.raiseFault _) (.ite full (h.raiseFault _) ?_))
    rw [wcnt, hcfg, wptr]
    refine Agree.storing _ _ (Agree.storing _ _ (AgreeP.answer ?_ _ rfl rfl))
    exact ⟨hcfg, ⟨rfl, rq, rfl, rfl, pFault⟩, host⟩
  | pCancel =>
    refine h.unlessFaulted (.ite closed (h.raiseFault _) (AgreeP.answer ?_ _ rfl rfl))
    exact ⟨hcfg, ⟨wptr, rq, rfl, rfl, pFault⟩, host⟩
  | pStat =>
    have status : pStatus u = pStatus s := by rw [pStatus, pStatus, wcnt, pFault, pAct, hf]
    exact h.answer _ (by rw [status]) (by rw [status])
  | cHasdata => cases hp
  | cPeek => cases hp
  | cRead _ => cases hp
  | cRelease _ => cases hp
  | cStat => cases hp

end Producer

/-! ## The consumer's side -/

/-- Two states of one build that agree on domain C and host C. -/
structure AgreeC (s u : State) : Prop where
  cfg : u.cfg = s.cfg
  domain : SameDomainC s u
  host : u.hostC = s.hostC

section Consumer

variable {s u : State}

theorem AgreeC.respond (h : AgreeC s u) (rc : RespCode) (hi lo : Byte) :
    AgreeC (respond .c rc hi lo s) (respond .c rc hi lo u) := by
  obtain ⟨hcfg, ⟨rptr, wq, cAct, cLen, cFault⟩, host⟩ := h
  exact ⟨by simpa, ⟨by simpa, by simpa, by simpa, by simpa, by simpa⟩, by simp [host]⟩

theorem AgreeC.recordFault (h : AgreeC s u) (code : FaultCode) : AgreeC (recordFault .c code s) (recordFault .c code u) := by
  obtain ⟨hcfg, ⟨rptr, wq, cAct, cLen, cFault⟩, host⟩ := h
  exact ⟨by simpa, ⟨by simpa, by simpa, by simpa, by simpa, by simp [cFault]⟩, by simpa⟩

theorem AgreeC.raiseFault (h : AgreeC s u) (code : FaultCode) : Agree AgreeC (raiseFault .c code s) (raiseFault .c code u) :=
  .next ((h.recordFault code).respond _ _ _)

theorem AgreeC.unlessFaulted (h : AgreeC s u) {x y : Result} (hb : Agree AgreeC x y) :
    Agree AgreeC (unlessFaulted .c s x) (unlessFaulted .c u y) :=
  Agree.unlessFaulted .c h.domain.cFault (h.respond _ _ _) hb

/-- The length check and the opening read the build and the header alone. -/
theorem AgreeC.openConsume (h : AgreeC s u) (hdr : Header) : Agree AgreeC (openConsume hdr s) (openConsume hdr u) := by
  refine .ite (by rw [h.cfg]) (.next (h.respond _ _ _)) (.next (AgreeC.respond ?_ _ _ _))
  exact ⟨h.cfg, ⟨h.domain.rptr, h.domain.wq, rfl, rfl, h.domain.cFault⟩, h.host⟩

/-- A consumer command reads outside domain C nothing but `EMPTY_C` and the bytes of the storage. -/
theorem AgreeC.exec (h : AgreeC s u) (he : emptyC u = emptyC s) (hslot : SameSlot s u) (i : Instr) (hp : i.port = .c) :
    Agree AgreeC (exec i s) (exec i u) := by
  have ⟨hcfg, ⟨rptr, wq, cAct, cLen, cFault⟩, host⟩ := h
  have closed : (!s.cAct) = true ↔ (!u.cAct) = true := by rw [cAct]
  have empty : emptyC s = true ↔ emptyC u = true := by rw [he]
  cases i with
  | pFree => cases hp
  | pBegin _ => cases hp
  | pWrite _ => cases hp
  | pSpace => cases hp
  | pCommit _ => cases hp
  | pCancel => cases hp
  | pStat => cases hp
  | cHasdata => exact h.unlessFaulted (.ite empty (.next (h.respond _ _ _)) (.next (h.respond _ _ _)))
  | cPeek =>
    exact h.unlessFaulted (.ite (by rw [cAct]) (h.raiseFault _) (.ite empty (.next (h.respond _ _ _))
      (.withByte 0 hslot fun h0 => .withByte 1 hslot fun h1 => h.openConsume (decodeHeader h0 h1))))
  | cRead ofs =>
    exact h.unlessFaulted (.ite closed (h.raiseFault _) (.ite (by rw [cLen]) (.next (h.respond _ _ _))
      (.withByte _ hslot fun v => .next (h.respond _ _ _))))
  | cRelease f =>
    refine h.unlessFaulted (.ite closed (h.raiseFault _) (.ite (by rw [he]) (h.raiseFault _)
      (.ite Iff.rfl (.next (AgreeC.respond ?_ _ _ _)) (.next (AgreeC.respond ?_ _ _ _)))))
    · exact ⟨hcfg, ⟨by rw [hcfg, rptr], wq, rfl, rfl, cFault⟩, host⟩
    · exact ⟨hcfg, ⟨rptr, wq, rfl, rfl, cFault⟩, host⟩
  | cStat =>
    have status : cStatus u = cStatus s := by rw [cStatus, cStatus, cLen, cFault, cAct, he]
    show Agree AgreeC (execCStat s) (execCStat u)
    rw [execCStat, execCStat, status]
    exact .next (h.respond _ _ _)

end Consumer

/-! ## The view through a stage -/

/-- Where there is a stage, the view does not read the pointer behind it (43_cdc_sync R185). -/
theorem lastStage_of_ne_nil (chain : List Ptr) (p q : Ptr) (h : chain ≠ []) : lastStage chain p = lastStage chain q := by
  cases chain with
  | nil => exact absurd rfl h
  | cons x rest => rw [lastStage_cons, lastStage_cons]

theorem fullP_of_sameDomainP (s u : State) (hrq : s.rq ≠ []) (hcfg : u.cfg = s.cfg) (hd : SameDomainP s u) :
    fullP u = fullP s := by
  refine fullP_congr s u hcfg hd.wptr ?_
  rw [rsync, rsync, hd.rq]
  exact lastStage_of_ne_nil _ _ _ hrq

theorem emptyC_of_sameDomainC (s u : State) (hwq : s.wq ≠ []) (hcfg : u.cfg = s.cfg) (hd : SameDomainC s u) :
    emptyC u = emptyC s := by
  refine emptyC_congr s u hcfg hd.rptr ?_
  rw [wsync, wsync, hd.wq]
  exact lastStage_of_ne_nil _ _ _ hwq

/-- Settles O42: each port's commands agree where its flag does, and through a stage the flag is the domain's own. -/
theorem domainsIsolated : Obligations.DomainsIsolated := by
  unfold Obligations.DomainsIsolated
  constructor
  · intro i s1 s2 t1 t2 hp hrq hcfg hd hh hx1 hx2
    have flag := fullP_of_sameDomainP s1 s2 hrq hcfg hd
    have agree : AgreeP t1 t2 := AgreeP.exec ⟨hcfg, hd, hh⟩ flag i hp t1 t2 hx1 hx2
    exact ⟨agree.domain, agree.host⟩
  · intro i s1 s2 t1 t2 hp hwq hcfg hd hslot hh hx1 hx2
    have flag := emptyC_of_sameDomainC s1 s2 hwq hcfg hd
    have agree : AgreeC t1 t2 := AgreeC.exec ⟨hcfg, hd, hh⟩ flag hslot i hp t1 t2 hx1 hx2
    exact ⟨agree.domain, agree.host⟩

end Sys2Proof.Machine
end

section
/-! PROOFS. The reset state of a build and the reset of any state (10_state R36 to R40, 70_reset_and_hazards R230, R232). -/

namespace Sys2Proof.Machine

/-- A pointer is no distance from itself. -/
theorem ptrDiff_self (w : Nat) (x : Ptr) : ptrDiff w x x = 0#8 := by
  simp [ptrDiff]

/-- Stages that all hold the pointer show the pointer, so the view of a fresh synchroniser is right at any depth. -/
theorem lastStage_of_forall_eq (chain : List Ptr) (ptr : Ptr) (h : ∀ x ∈ chain, x = ptr) : lastStage chain ptr = ptr :=
  (lastStage_mem chain ptr).elim id (h _)

/-- Every stage of a reset synchroniser is 0 (10_state R40). -/
theorem resetOf_stages (c : Config) : ∀ x ∈ List.replicate c.stages (0#8 : Ptr), x = 0#8 :=
  fun _ => List.eq_of_mem_replicate

/-- 10_state R36: after reset port P may write. -/
theorem fullP_resetOf (c : Config) : fullP (State.resetOf c) = false := by
  have view : rsync (State.resetOf c) = (State.resetOf c).wptr := lastStage_of_forall_eq _ _ (resetOf_stages c)
  simp [fullP_eq, view, ptrDiff_self]

/-- 10_state R36: after reset port C finds nothing. -/
theorem emptyC_resetOf (c : Config) : emptyC (State.resetOf c) = true := by
  have view : wsync (State.resetOf c) = (State.resetOf c).rptr := lastStage_of_forall_eq _ _ (resetOf_stages c)
  simp [emptyC, view, ptrDiff_self]

theorem pStatus_resetOf (c : Config) : pStatus (State.resetOf c) = 0x0000#16 := by
  rw [pStatus, fullP_resetOf]
  show 0#8 ++ 0#3 ++ 0#3 ++ BitVec.ofBool false ++ BitVec.ofBool false = 0x0000#16
  decide

theorem cStatus_resetOf (c : Config) : cStatus (State.resetOf c) = 0x0001#16 := by
  rw [cStatus, emptyC_resetOf]
  show 0#8 ++ 0#3 ++ 0#3 ++ BitVec.ofBool false ++ BitVec.ofBool true = 0x0001#16
  decide

/-- 70_reset_and_hazards R230, R232: reset gives the block the reset state of its own build. -/
theorem applyReset_sameBlock (s : State) : SameBlock (State.resetOf s.cfg) (applyReset s) :=
  ⟨⟨rfl, rfl, rfl, rfl, rfl⟩, ⟨rfl, rfl, rfl, rfl, rfl⟩, rfl⟩

/-- Settles O12: the registers as `State.resetOf` lists them, the derived values by the flags at reset. -/
theorem resetState : Obligations.ResetState := by
  unfold Obligations.ResetState
  refine ⟨rfl, ?_, fun s => ⟨applyReset_sameBlock s, rfl, rfl, rfl, rfl⟩⟩
  rintro c s rfl
  have depth : (List.replicate c.stages (0#8 : Ptr)).length = c.stages := List.length_replicate
  have notFull : pNotFull (State.resetOf c) = true := by rw [pNotFull, fullP_resetOf]; rfl
  have noData : cNotEmpty (State.resetOf c) = false := by rw [cNotEmpty, emptyC_resetOf]; rfl
  exact ⟨rfl, rfl, rfl, rfl, rfl, rfl, rfl, rfl, rfl, depth, resetOf_stages c, depth, resetOf_stages c, fun _ => rfl,
    fullP_resetOf c, emptyC_resetOf c, pStatus_resetOf c, cStatus_resetOf c, notFull, rfl, noData, rfl⟩

end Sys2Proof.Machine
end

section
/-! PROOFS. The flags and the transactions in terms of the counts `wc` and `rc` (43_cdc_sync R190 to R193). -/

namespace Sys2Proof.Machine

/-- The last of a falling list of counts is the least. -/
theorem getLastD_le_of_mem (l : List Nat) (n : Nat) (h : (n :: l).Pairwise (fun x y => y ≤ x)) : ∀ x ∈ n :: l, l.getLastD n ≤ x := by
  induction l generalizing n with
  | nil => simp
  | cons y l ih =>
    obtain ⟨first, rest⟩ := List.pairwise_cons.1 h
    rw [List.getLastD_cons]
    intro x hx
    rcases List.mem_cons.1 hx with rfl | hx
    · exact (ih y rest y List.mem_cons_self).trans (first y List.mem_cons_self)
    · exact ih y rest x hx

section Counts

variable {s : State} {wqc rqc : List Nat}

/-- R191 (i) falls apart at `rc`: the commits as port C comes to see them, the removals as port P does, and no stage of the
first behind the removals. -/
theorem CountsHold.order_split (h : CountsHold s wqc rqc) :
    (wc s :: wqc).Pairwise (fun x y => y ≤ x) ∧ (rc s :: rqc).Pairwise (fun x y => y ≤ x) ∧
    ∀ x ∈ wc s :: wqc, ∀ y ∈ rc s :: rqc, y ≤ x :=
  (List.pairwise_append (l₁ := wc s :: wqc)).1 h.order

/-- R191 (i) along the two views: `RSYNC`'s count, `rc`, `WSYNC`'s count and `wc`, with at most one unit from end to end. -/
theorem CountsHold.views (h : CountsHold s wqc rqc) :
    rqc.getLastD (rc s) ≤ rc s ∧ rc s ≤ wqc.getLastD (wc s) ∧ wqc.getLastD (wc s) ≤ wc s ∧ wc s ≤ rqc.getLastD (rc s) + 1 := by
  obtain ⟨commits, removals, across⟩ := h.order_split
  exact ⟨getLastD_le_of_mem _ _ removals _ List.mem_cons_self, across _ List.getLastD_mem_cons _ List.mem_cons_self,
    getLastD_le_of_mem _ _ commits _ List.mem_cons_self, h.window⟩

theorem CountsHold.wsync_eq (h : CountsHold s wqc rqc) : wsync s = grayOf s.cfg.ptrW (wqc.getLastD (wc s)) := by
  rw [wsync, h.wptr, h.wq, lastStage_map]

theorem CountsHold.rsync_eq (h : CountsHold s wqc rqc) : rsync s = grayOf s.cfg.ptrW (rqc.getLastD (rc s)) := by
  rw [rsync, h.rptr, h.rq, lastStage_map]

/-- `EMPTY_C` says that every commit port C sees is removed. -/
theorem CountsHold.emptyC_iff (h : CountsHold s wqc rqc) (hv : s.cfg.Valid) : emptyC s = true ↔ wqc.getLastD (wc s) = rc s := by
  obtain ⟨-, -, h1, h8, -⟩ := hv
  obtain ⟨hr, hrw, hw, hwin⟩ := h.views
  rw [emptyC, h.wsync_eq, h.rptr, ptrDiff_window _ _ _ h1 h8 hrw (by omega), decide_eq_true_eq]
  split
  · exact iff_of_true rfl ‹_›
  · exact iff_of_false (by decide) ‹_›

/-- `FULL_P` says that port P has not seen the last commit removed. -/
theorem CountsHold.fullP_iff (h : CountsHold s wqc rqc) (hv : s.cfg.Valid) : fullP s = true ↔ wc s ≠ rqc.getLastD (rc s) := by
  obtain ⟨-, -, h1, h8, -⟩ := hv
  obtain ⟨hr, hrw, hw, hwin⟩ := h.views
  rw [fullP_eq, h.rsync_eq, h.wptr, ptrDiff_window _ _ _ h1 h8 (by omega) hwin, decide_eq_true_eq]
  split
  · exact iff_of_false (by decide) (not_not.2 ‹_›)
  · exact iff_of_true (by decide) ‹_›

/-- Where port C sees every commit, every stage of `WQ` does, and where port P sees every removal, every stage of `RQ` does. -/
theorem CountsHold.settled (h : CountsHold s wqc rqc) (hw : wqc.getLastD (wc s) = wc s) (hr : rqc.getLastD (rc s) = rc s) :
    Settled s := by
  obtain ⟨commits, removals, -⟩ := h.order_split
  constructor
  · rw [h.wq, List.forall_mem_map, h.wptr]
    intro n hn
    have low := getLastD_le_of_mem _ _ commits n (List.mem_cons_of_mem _ hn)
    have high := (List.pairwise_cons.1 commits).1 n hn
    rw [show n = wc s by omega]
  · rw [h.rq, List.forall_mem_map, h.rptr]
    intro n hn
    have low := getLastD_le_of_mem _ _ removals n (List.mem_cons_of_mem _ hn)
    have high := (List.pairwise_cons.1 removals).1 n hn
    rw [show n = rc s by omega]

end Counts

/-- While port P has a transaction open there is no unit and port C sees none (43_cdc_sync R193). -/
theorem Invariant.producing {s : State} (h : Invariant s) (ha : s.pAct = true) :
    wc s = rc s ∧ s.cAct = false ∧ emptyC s = true := by
  obtain ⟨wqc, rqc, counts⟩ := h.counts
  obtain ⟨hr, hrw, hw, -⟩ := counts.views
  have noUnit : wc s = rqc.getLastD (rc s) := counts.pAct ha
  refine ⟨by omega, ?_, (counts.emptyC_iff h.wf.cfg).2 (by omega)⟩
  by_contra hc
  have := counts.cAct (by simpa using hc)
  omega

/-- While port C sees the unit or has it open there is one, every stage holds its pointer, and port P is closed and sees the
slot full (43_cdc_sync R192, R193). -/
theorem Invariant.consuming {s : State} (h : Invariant s) (hc : emptyC s = false ∨ s.cAct = true) :
    wc s = rc s + 1 ∧ s.pAct = false ∧ fullP s = true ∧ emptyC s = false ∧ Settled s := by
  obtain ⟨wqc, rqc, counts⟩ := h.counts
  obtain ⟨hr, hrw, hw, hwin⟩ := counts.views
  have empty := counts.emptyC_iff h.wf.cfg
  have seen : wqc.getLastD (wc s) = rc s + 1 := by
    rcases hc with he | ha
    · have := mt empty.2 (by simp [he])
      omega
    · exact counts.cAct ha
  refine ⟨by omega, ?_, (counts.fullP_iff h.wf.cfg).2 (by omega), ?_, counts.settled (by omega) (by omega)⟩
  · by_contra ha
    have := counts.pAct (by simpa using ha)
    omega
  · simpa using mt empty.1 (by omega)

end Sys2Proof.Machine
end

section
/-! PROOFS. What a step does to each port's registers and log (10_state R21, 43_cdc_sync R190): it leaves them as they are, or
it runs a command of that port. -/

namespace Sys2Proof.Machine

/-! ## The state a port's command runs in -/

/-- The port takes a word of `s` that decodes to `i`, and `u` is the state past the word, in which the command runs. -/
def TakesCommand (port : Port) (s : State) (i : Instr) (u : State) : Prop :=
  ∃ (rest : List Agent) (w : Word), presented port s = some w ∧ decode port w = .ok i ∧ u = advance port { s with sched := rest }

/-- What a command answered on port P adds to the producer's log. -/
theorem TakesCommand.producerView {s u : State} {i : Instr} (h : TakesCommand .p s i u) (hwf : s.hostP.Wf) (c : RespCode)
    (hi lo : Byte) : producerView (u.hostP.receive (respWord c hi lo)) =
      if c = .ok then (producerView s.hostP).see (i, respWord c hi lo) else producerView s.hostP := by
  obtain ⟨rest, w, hw, hd, rfl⟩ := h
  have seen := acceptedAt_respWord .p w i c hi lo hd
  split
  · exact producerView_push_some s.hostP w _ hwf hw _ (seen.trans (if_pos ‹_›))
  · exact producerView_push_none s.hostP w _ hwf hw (seen.trans (if_neg ‹_›))

/-- What a command answered on port C adds to the consumer's log. -/
theorem TakesCommand.consumerView {s u : State} {i : Instr} (h : TakesCommand .c s i u) (hwf : s.hostC.Wf) (c : RespCode)
    (hi lo : Byte) : consumerView (u.hostC.receive (respWord c hi lo)) =
      if c = .ok then (consumerView s.hostC).see (i, respWord c hi lo) else consumerView s.hostC := by
  obtain ⟨rest, w, hw, hd, rfl⟩ := h
  have seen := acceptedAt_respWord .c w i c hi lo hd
  split
  · exact consumerView_push_some s.hostC w _ hwf hw _ (seen.trans (if_pos ‹_›))
  · exact consumerView_push_none s.hostC w _ hwf hw (seen.trans (if_neg ‹_›))

/-- Taking a word moves no pointer and no stage. -/
theorem TakesCommand.fullP {port : Port} {s u : State} {i : Instr} (h : TakesCommand port s i u) : fullP u = fullP s := by
  obtain ⟨rest, w, -, -, rfl⟩ := h
  exact fullP_congr s _ (by simp) (by simp) (by simp [rsync])

theorem TakesCommand.emptyC {port : Port} {s u : State} {i : Instr} (h : TakesCommand port s i u) : emptyC u = emptyC s := by
  obtain ⟨rest, w, -, -, rfl⟩ := h
  exact emptyC_congr s _ (by simp) (by simp) (by simp [wsync])

/-! ## The producer's side of a step -/

/-- `WPTR`, the transaction, the storage and the producer's log are as they were; a fault may have been recorded. -/
structure ProducerStays (s t : State) : Prop where
  wptr : t.wptr = s.wptr
  pAct : t.pAct = s.pAct
  wcnt : t.wcnt = s.wcnt
  slot : t.slot = s.slot
  view : s.hostP.Wf → producerView t.hostP = producerView s.hostP

/-- A step leaves the producer's side, or it runs a command of port P. -/
theorem StepEffect.producerSide {s t : State} (e : StepEffect s t) :
    ProducerStays s t ∨ ∃ u i, TakesCommand .p s i u ∧ ProducerEffect u i t := by
  cases e with
  | illegal port a rest hs ha w e hw hd =>
    cases port with
    | p => exact .inl ⟨by simp, by simp, by simp, by simp, fun hwf => by
        simp only [respond_p_hostP, recordFault_hostP]
        exact producerView_push_none s.hostP w _ hwf hw (acceptedAt_illegal .p w e _ hd)⟩
    | c => exact .inl ⟨by simp, by simp, by simp, by simp, fun _ => by simp⟩
  | command port a rest t hs ha w i hw hd hx =>
    have hp := decode_port port w i hd
    cases port with
    | p => exact .inr ⟨_, i, ⟨rest, w, hw, hd, rfl⟩, exec_producer i _ t hp hx⟩
    | c =>
      obtain ⟨-, ⟨wptr, -, pAct, wcnt, -⟩, -, slot, hostP⟩ := (exec_consumer i _ t hp hx).keeps
      exact .inl ⟨wptr, pAct, wcnt, slot, fun _ => by rw [hostP]; rfl⟩
  | _ => exact .inl ⟨rfl, rfl, rfl, rfl, fun _ => rfl⟩

/-- The storage changes only while port P has a transaction open (20_memory R54). -/
theorem ProducerEffect.slot_of_closed {s t : State} {i : Instr} (e : ProducerEffect s i t) (ha : s.pAct = false) :
    t.slot = s.slot := by
  cases e with
  | wrote _ _ opened => exact absurd opened (by simp [ha])
  | committed _ _ opened => exact absurd opened (by simp [ha])
  | _ => simp

theorem step_slot_of_closed (s t : State) (h : step s = .next t) (ha : s.pAct = false) : t.slot = s.slot := by
  rcases (step_effect s t h).producerSide with stays | ⟨u, i, ⟨rest, w, -, -, rfl⟩, e⟩
  · exact stays.slot
  · exact e.slot_of_closed ha

/-- A query shows the host something and adds nothing to what the log adds up to. -/
theorem ProducerView.see_query (v : ProducerView) (i : Instr) (r : Response) (h : i = .pFree ∨ i = .pSpace ∨ i = .pStat) :
    v.see (i, r) = v := by
  rcases h with rfl | rfl | rfl <;> rfl

/-- With no transaction open and the slot seen full, a command of port P is a query or is answered other than `OK`. -/
theorem ProducerEffect.stays_of_full {s u t : State} {i : Instr} (e : ProducerEffect u i t) (hc : TakesCommand .p s i u)
    (ha : s.pAct = false) (hf : fullP s = true) : ProducerStays s t := by
  have answer := hc.producerView
  have full := hc.fullP.trans hf
  obtain ⟨rest, w, -, -, rfl⟩ := hc
  cases e with
  | turnedAway i c hrc => exact ⟨rfl, rfl, rfl, rfl, fun hwf => (answer hwf c 0#8 0#8).trans (if_neg hrc)⟩
  | faulted i code => exact ⟨by simp, by simp, by simp, by simp, fun hwf => by simpa using answer hwf .fault 0#8 0#8⟩
  | query i hq hi lo => exact ⟨rfl, rfl, rfl, rfl, fun hwf => (answer hwf .ok hi lo).trans (ProducerView.see_query _ i _ hq)⟩
  | opened _ _ _ _ free => exact absurd (full.symm.trans free) (by decide)
  | wrote _ _ opened => exact absurd opened (by simp [ha])
  | committed _ _ opened => exact absurd opened (by simp [ha])
  | cancelled _ opened => exact absurd opened (by simp [ha])

theorem step_producerStays_of_full (s t : State) (h : step s = .next t) (ha : s.pAct = false) (hf : fullP s = true) :
    ProducerStays s t := by
  rcases (step_effect s t h).producerSide with stays | ⟨u, i, hc, e⟩
  · exact stays
  · exact e.stays_of_full hc ha hf

/-! ## The consumer's side of a step -/

/-- A command of port C leaves `RPTR` and the count of removals, or it removes one unit. -/
theorem ConsumerEffect.removal {s u t : State} {i : Instr} (e : ConsumerEffect u i t) (hc : TakesCommand .c s i u)
    (hwf : s.hostC.Wf) : (t.rptr = s.rptr ∧ rc t = rc s) ∨ rc t = rc s + 1 := by
  have answer (c : RespCode) (hi lo : Byte) := congrArg ConsumerView.removed (hc.consumerView hwf c hi lo)
  obtain ⟨rest, w, -, -, rfl⟩ := hc
  cases e with
  | turnedAway i c hrc => exact .inl ⟨rfl, (answer c 0#8 0#8).trans (by rw [if_neg hrc]; rfl)⟩
  | faulted i code => exact .inl ⟨by simp, by simpa [rc] using answer .fault 0#8 0#8⟩
  | query i hq hi lo => exact .inl ⟨rfl, (answer .ok hi lo).trans (by rcases hq with rfl | rfl <;> rfl)⟩
  | opened => exact .inl ⟨rfl, answer .ok _ _⟩
  | read i v => exact .inl ⟨rfl, answer .ok _ _⟩
  | removed => exact .inr (answer .ok _ _)
  | kept => exact .inl ⟨rfl, answer .ok _ _⟩

/-- A step leaves `RPTR` and the count of removals, or it removes one unit. -/
theorem step_removal (s t : State) (h : step s = .next t) (hwf : s.hostC.Wf) :
    (t.rptr = s.rptr ∧ rc t = rc s) ∨ rc t = rc s + 1 := by
  cases step_effect s t h with
  | illegal port a rest hs ha w e hw hd =>
    cases port with
    | p => exact .inl ⟨by simp, by simp [rc]⟩
    | c =>
      refine .inl ⟨by simp, congrArg ConsumerView.removed ?_⟩
      simp only [respond_c_hostC, recordFault_hostC]
      exact consumerView_push_none s.hostC w _ hwf hw (acceptedAt_illegal .c w e _ hd)
  | command port a rest _ hs ha w i hw hd hx =>
    have hp := decode_port port w i hd
    cases port with
    | p =>
      obtain ⟨-, ⟨rptr, -⟩, -, hostC⟩ := (exec_producer i _ t hp hx).keeps
      exact .inl ⟨rptr, by rw [rc, hostC]; rfl⟩
    | c => exact (exec_consumer i _ t hp hx).removal ⟨rest, w, hw, hd, rfl⟩ hwf
  | _ => exact .inl ⟨rfl, rfl⟩

end Sys2Proof.Machine
end

section
/-! PROOFS. Access to the storage: it is written only while port C cannot read it, and a unit port C can see stays until it is
removed (20_memory R60, 42_consumer R156). -/

namespace Sys2Proof.Machine

/-- Settles O51: a change of the storage needs port P's transaction open, and then there is no unit; what port C can read is the
one unit, with port P closed. -/
theorem exclusiveAccess : Obligations.ExclusiveAccess := by
  unfold Obligations.ExclusiveAccess
  intro s inv
  constructor
  · intro t h changed
    have opened : s.pAct = true := by
      by_contra ha
      exact changed (step_slot_of_closed s t h (by simpa using ha))
    obtain ⟨noUnit, hc, he⟩ := inv.producing opened
    exact ⟨by rw [occupancy, noUnit, Nat.sub_self], hc, he⟩
  · intro readable
    obtain ⟨one, hp, hf, -, -⟩ := inv.consuming readable
    exact ⟨by rw [occupancy, one, Nat.add_sub_cancel_left], hp, hf⟩

/-! ## A visible unit -/

/-- A unit stands before port C, both ports see it, and port P is closed. Both synchronisers are settled, so until the removal no
agent can change what either port sees. -/
structure Visible (s : State) : Prop where
  full : fullP s = true
  data : emptyC s = false
  settled : Settled s
  pAct : s.pAct = false

theorem Invariant.visible {s : State} (h : Invariant s) (he : emptyC s = false) : Visible s := by
  obtain ⟨-, hp, hf, -, hs⟩ := h.consuming (.inl he)
  exact ⟨hf, he, hs, hp⟩

/-- A step leaves the stages of a synchroniser as they are or shifts its pointer in. -/
theorem step_stages (s t : State) (h : step s = .next t) :
    (t.wq = s.wq ∨ t.wq = shiftChain s.wq s.wptr) ∧ (t.rq = s.rq ∨ t.rq = shiftChain s.rq s.rptr) := by
  rcases (step_effect s t h).writer with rfl | ⟨-, k⟩ | ⟨-, k⟩ | ⟨rest, -, rfl⟩ | ⟨rest, -, rfl⟩
  · exact ⟨.inl rfl, .inl rfl⟩
  · exact ⟨.inl k.domainC.wq, .inl k.rq⟩
  · exact ⟨.inl k.wq, .inl k.domainP.rq⟩
  · exact ⟨.inr rfl, .inl rfl⟩
  · exact ⟨.inl rfl, .inr rfl⟩

/-- Settled stages stay as they are, since a synchroniser has nothing to shift in (70_reset_and_hazards R250). -/
theorem step_stages_of_settled (s t : State) (h : step s = .next t) (hs : Settled s) : t.wq = s.wq ∧ t.rq = s.rq := by
  obtain ⟨hw, hr⟩ := hs
  have hstages := step_stages s t h
  rwa [(shiftChain_eq_self _ _).2 hw, (shiftChain_eq_self _ _).2 hr, or_self, or_self] at hstages

/-- A step that removes nothing leaves a visible unit visible and port P's side as it was. -/
theorem Visible.step {s t : State} (v : Visible s) (h : step s = .next t) (hr : t.rptr = s.rptr) :
    Visible t ∧ ProducerStays s t := by
  have stays := step_producerStays_of_full s t h v.pAct v.full
  have hcfg : t.cfg = s.cfg := (singleWriter s t h).1
  obtain ⟨hwq, hrq⟩ := step_stages_of_settled s t h v.settled
  have full : fullP t = fullP s := fullP_congr s t hcfg stays.wptr (by rw [rsync, rsync, hrq, hr])
  have data : emptyC t = emptyC s := emptyC_congr s t hcfg hr (by rw [wsync, wsync, hwq, stays.wptr])
  refine ⟨⟨full.trans v.full, data.trans v.data, ?_, stays.pAct.trans v.pAct⟩, stays⟩
  rw [Settled, hwq, hrq, hr, stays.wptr]
  exact v.settled

/-! ## Runs -/

/-- A run of one step more is a step and the run of the rest. -/
theorem run_succ (s u : State) (k : Nat) (h : Host.Core.run core (k + 1) s = .next u) :
    ∃ t, step s = .next t ∧ Host.Core.run core k t = .next u := by
  simp only [Host.Core.run] at h
  split at h
  · exact ⟨_, ‹_›, h⟩
  · cases h
  · cases h

/-- Removals only add up along a run. -/
theorem rc_mono_run (s u : State) (k : Nat) (hwf : WellFormed s) (h : Host.Core.run core k s = .next u) : rc s ≤ rc u := by
  induction k generalizing s with
  | zero => cases h; exact le_rfl
  | succ k ih =>
    obtain ⟨t, hst, htu⟩ := run_succ s u k h
    have rest := ih t (wellFormedKept s t hwf hst) htu
    rcases step_removal s t hst hwf.hostC with ⟨-, same⟩ | removed <;> omega

/-- A visible unit stays as it is and visible along every run without a removal, and nothing is committed. -/
theorem Visible.run {s u : State} (k : Nat) (v : Visible s) (hwf : WellFormed s) (h : Host.Core.run core k s = .next u)
    (hrc : rc u = rc s) : Visible u ∧ u.slot = s.slot ∧ wc u = wc s := by
  induction k generalizing s with
  | zero => cases h; exact ⟨v, rfl, rfl⟩
  | succ k ih =>
    obtain ⟨t, hst, htu⟩ := run_succ s u k h
    have hwft := wellFormedKept s t hwf hst
    have later := rc_mono_run t u k hwft htu
    obtain ⟨hr, same⟩ : t.rptr = s.rptr ∧ rc t = rc s := (step_removal s t hst hwf.hostC).resolve_right (by omega)
    obtain ⟨vt, stays⟩ := v.step hst hr
    have commits : wc t = wc s := congrArg (fun view => view.committed.length) (stays.view hwf.hostP)
    obtain ⟨vu, hslot, hwc⟩ := ih vt hwft htu (hrc.trans same.symm)
    exact ⟨vu, hslot.trans stays.slot, hwc.trans commits⟩

/-- Settles O52: the invariant makes a unit that port C sees `Visible`, which every step but its removal keeps. -/
theorem slotStable : Obligations.SlotStable := by
  unfold Obligations.SlotStable
  intro s u k inv he hrun hrc
  obtain ⟨visible, hslot, hwc⟩ := (inv.visible he).run k inv.wf hrun hrc
  exact ⟨hslot, visible.data, hwc⟩

end Sys2Proof.Machine
end

section
/-! PROOFS. The commands that only look: the queries and C_READ in an open transaction leave the block as it is (20_memory R56),
and a read of a byte that holds no value stops (20_memory R66). -/

namespace Sys2Proof.Machine

/-! ## Results that leave the block as it is -/

/-- Where the result is a next state, every register, every stage and the storage are as in `s`. -/
def LeavesBlock (s : State) (x : Result) : Prop := ∀ t, x = .next t → SameBlock s t

section Rules

variable {s : State}

theorem LeavesBlock.answer (port : Port) (rc : RespCode) (hi lo : Byte) : LeavesBlock s (.next (respond port rc hi lo s)) := by
  intro t ht
  cases ht
  exact ⟨⟨by simp, by simp, by simp, by simp, by simp⟩, ⟨by simp, by simp, by simp, by simp, by simp⟩, by simp⟩

theorem LeavesBlock.ite {c : Prop} [Decidable c] {x y : Result} (hx : c → LeavesBlock s x) (hy : ¬c → LeavesBlock s y) :
    LeavesBlock s (if c then x else y) :=
  iteInduction hx hy

theorem LeavesBlock.unlessFaulted (port : Port) {x : Result} (hx : LeavesBlock s x) : LeavesBlock s (unlessFaulted port s x) :=
  .ite (fun _ => .answer port _ _ _) (fun _ => hx)

theorem LeavesBlock.withByte (a : Nat) {k : Byte → Result} (hk : ∀ v, LeavesBlock s (k v)) : LeavesBlock s (withByte s a k) := by
  intro t ht
  obtain ⟨v, -, -, hv⟩ := withByte_next s t a k ht
  exact hk v t hv

end Rules

/-- Settles O40: every path of these commands ends in a bare response, once the check for an open transaction has passed. -/
theorem queriesChangeNothing : Obligations.QueriesChangeNothing := by
  unfold Obligations.QueriesChangeNothing
  intro i s t hx hq
  suffices leaves : LeavesBlock s (exec i s) from leaves t hx
  rcases hq with rfl | rfl | rfl | rfl | ⟨rfl, ha⟩ | ⟨ha, k, rfl⟩
  · exact .unlessFaulted .p (.ite (fun _ => .answer _ _ _ _) (fun _ => .answer _ _ _ _))
  · exact .answer _ _ _ _
  · exact .unlessFaulted .c (.ite (fun _ => .answer _ _ _ _) (fun _ => .answer _ _ _ _))
  · exact .answer _ _ _ _
  · exact .unlessFaulted .p (.ite (fun closed => by simp [ha] at closed) (fun _ => .answer _ _ _ _))
  · exact .unlessFaulted .c (.ite (fun closed => by simp [ha] at closed) (fun _ =>
      .ite (fun _ => .answer _ _ _ _) (fun _ => .withByte _ fun _ => .answer _ _ _ _)))

/-! ## Reads of a byte that holds no value -/

/-- 42_consumer R152: past its checks C_PEEK reads the two header bytes. -/
theorem exec_cPeek_of_data (s : State) (h0 : s.cFault = 0#3) (ha : s.cAct = false) (he : emptyC s = false) :
    exec .cPeek s = withByte s 0 fun b0 => withByte s 1 fun b1 => openConsume (decodeHeader b0 b1) s := by
  simp [exec, execCPeek, h0, ha, he]

/-- 42_consumer R153: past its checks C_READ reads the payload byte. -/
theorem exec_cRead_of_open (s : State) (i : BitVec 8) (h0 : s.cFault = 0#3) (ha : s.cAct = true) (hl : i.toNat < s.cLen.toNat) :
    exec (.cRead i) s = withByte s (payloadAddr i) fun v => .next (respond .c .ok 0#8 v s) := by
  simp [exec, execCRead, h0, ha, BitVec.le_def, hl]

/-- 20_memory R66: a read inside the slot of a byte that holds no value. -/
theorem withByte_unwritten (s : State) (a : Nat) (k : Byte → Result) (ha : a < s.cfg.slotBytes) (hv : memGet s.slot a = none) :
    withByte s a k = .fault .unwrittenRead := by
  simp [withByte, ha, hv]

/-- Settles O32: past its checks the command reads a byte of the slot, and that byte holds no value. -/
theorem unwrittenReadStops : Obligations.UnwrittenReadStops := by
  unfold Obligations.UnwrittenReadStops
  constructor
  · intro s h0 ha he missing
    obtain ⟨tag, length⟩ := header_exists s.cfg
    rw [exec_cPeek_of_data s h0 ha he]
    cases hm : memGet s.slot 0 with
    | none => exact withByte_unwritten s 0 _ tag hm
    | some b0 =>
      rw [withByte_of s 0 b0 _ tag hm]
      exact withByte_unwritten s 1 _ length (missing.resolve_left (by simp [hm]))
  · intro s i h0 ha hl hi missing
    rw [exec_cRead_of_open s i h0 ha hl]
    exact withByte_unwritten s _ _ (payloadAddr_exists s.cfg i hi) missing

end Sys2Proof.Machine
end

section
/-! PROOFS. Progress: under the invariant every step completes (20_memory R53, R66). Each read finds its byte, since what port C
can see or has open is a unit in the slot, and each write stays within the slot. -/

namespace Sys2Proof.Machine

/-! ## Results that are next states -/

/-- The result is a next state. -/
def Completes (x : Result) : Prop := ∃ t, x = .next t

section Rules

variable {s : State}

theorem Completes.next (t : State) : Completes (.next t) := ⟨t, rfl⟩

theorem Completes.ite {c : Prop} [Decidable c] {x y : Result} (hx : c → Completes x) (hy : ¬c → Completes y) :
    Completes (if c then x else y) :=
  iteInduction hx hy

theorem Completes.unlessFaulted (port : Port) {x : Result} (hx : Completes x) : Completes (unlessFaulted port s x) :=
  .ite (fun _ => .next _) (fun _ => hx)

theorem Completes.withByte {a : Nat} {v : Byte} {k : Byte → Result} (ha : a < s.cfg.slotBytes) (hv : memGet s.slot a = some v)
    (hk : Completes (k v)) : Completes (withByte s a k) := by
  rwa [withByte_of s a v k ha hv]

theorem Completes.storing {a : Nat} {v : Byte} {k : State → Result} (ha : a < s.cfg.slotBytes)
    (hk : Completes (k { s with slot := memPut s.slot a v })) : Completes (storing s a v k) := by
  rwa [storing_of s a v k ha]

end Rules

/-! ## The commands -/

/-- A producer command completes where `WCNT` is in its range (10_state R28). -/
theorem exec_producer_completes (i : Instr) (s : State) (hp : i.port = .p) (hw : s.wcnt.toNat ≤ s.cfg.maxPayload) :
    Completes (exec i s) := by
  cases i with
  | pFree => exact .unlessFaulted .p (.ite (fun _ => .next _) (fun _ => .next _))
  | pBegin n =>
    exact .unlessFaulted .p (.ite (fun _ => .next _) (fun _ => .ite (fun _ => .next _) (fun _ =>
      .ite (fun _ => .next _) (fun _ => .next _))))
  | pWrite b =>
    refine .unlessFaulted .p (.ite (fun _ => .next _) (fun _ => .ite (fun _ => .next _) (fun room => ?_)))
    have below : s.wcnt.toNat < s.cfg.maxPayload := lt_of_le_of_ne hw (by simpa [writerFull] using room)
    exact .storing (payloadAddr_exists s.cfg _ below) (.next _)
  | pSpace => exact .unlessFaulted .p (.ite (fun _ => .next _) (fun _ => .next _))
  | pCommit llid =>
    obtain ⟨tag, length⟩ := header_exists s.cfg
    exact .unlessFaulted .p (.ite (fun _ => .next _) (fun _ => .ite (fun _ => .next _) (fun _ =>
      .storing tag (.storing length (.next _)))))
  | pCancel => exact .unlessFaulted .p (.ite (fun _ => .next _) (fun _ => .next _))
  | pStat => exact .next _
  | cHasdata => cases hp
  | cPeek => cases hp
  | cRead _ => cases hp
  | cRelease _ => cases hp
  | cStat => cases hp

/-- What port C may read holds a value: the header where it sees a unit, and in an open transaction the payload up to `C_LEN`. -/
structure Readable (s : State) : Prop where
  header : emptyC s = false → ∃ b0 b1, memGet s.slot 0 = some b0 ∧ memGet s.slot 1 = some b1
  payload : s.cAct = true → ∀ i : Byte, i.toNat < s.cLen.toNat →
    payloadAddr i < s.cfg.slotBytes ∧ ∃ v, memGet s.slot (payloadAddr i) = some v

/-- A consumer command completes where what it may read holds a value. -/
theorem exec_consumer_completes (i : Instr) (s : State) (hp : i.port = .c) (hr : Readable s) : Completes (exec i s) := by
  cases i with
  | pFree => cases hp
  | pBegin _ => cases hp
  | pWrite _ => cases hp
  | pSpace => cases hp
  | pCommit _ => cases hp
  | pCancel => cases hp
  | pStat => cases hp
  | cHasdata => exact .unlessFaulted .c (.ite (fun _ => .next _) (fun _ => .next _))
  | cPeek =>
    refine .unlessFaulted .c (.ite (fun _ => .next _) (fun _ => .ite (fun _ => .next _) (fun data => ?_)))
    obtain ⟨tag, length⟩ := header_exists s.cfg
    obtain ⟨b0, b1, h0, h1⟩ := hr.header (by simpa using data)
    exact .withByte tag h0 (.withByte length h1 (.ite (fun _ => .next _) (fun _ => .next _)))
  | cRead i =>
    refine .unlessFaulted .c (.ite (fun _ => .next _) (fun opened => .ite (fun _ => .next _) (fun inside => ?_)))
    obtain ⟨ha, v, hv⟩ := hr.payload (by simpa using opened) i (by simpa [BitVec.le_def] using inside)
    exact .withByte ha hv (.next _)
  | cRelease f =>
    exact .unlessFaulted .c (.ite (fun _ => .next _) (fun _ => .ite (fun _ => .next _) (fun _ =>
      .ite (fun _ => .next _) (fun _ => .next _))))
  | cStat => exact .next _

/-! ## The step -/

/-- A step completes where the command a port takes, if it takes one, completes. -/
theorem step_completes (s : State) (h : ∀ port i u, TakesCommand port s i u → Completes (exec i u)) : Completes (step s) := by
  have turn : ∀ (port : Port) (rest : List Agent), Completes (portTurn port { s with sched := rest }) := by
    intro port rest
    unfold portTurn
    rw [presented_sched]
    split
    · exact .next _
    · split
      · exact .next _
      · exact h port _ _ ⟨rest, _, ‹_›, ‹_›, rfl⟩
  cases hs : s.sched with
  | nil => exact ⟨s, by simp [step, scheduledTurn, hs]⟩
  | cons a rest =>
    rw [step_of_sched s a rest hs]
    cases a with
    | portP => exact turn .p rest
    | portC => exact turn .c rest
    | syncW => exact .next _
    | syncR => exact .next _

/-- What port C sees or has open is the last commit, in the slot (43_cdc_sync R191 (iv)). -/
theorem Invariant.unit {s : State} (h : Invariant s) (hc : emptyC s = false ∨ s.cAct = true) :
    ∃ u : Pdu, HoldsPdu s.slot u ∧ u.payload.length ≤ s.cfg.maxPayload := by
  obtain ⟨one, -⟩ := h.consuming hc
  cases hu : (producerView s.hostP).committed.getLast? with
  | none =>
    have : wc s = 0 := by rw [wc, List.getLast?_eq_none_iff.1 hu, List.length_nil]
    omega
  | some u => exact ⟨u, h.storage.current u one hu, h.storage.lengths u (List.mem_of_getLast? hu)⟩

theorem Invariant.readable {s : State} (h : Invariant s) : Readable s where
  header he := by
    obtain ⟨u, held, -⟩ := h.unit (.inl he)
    exact ⟨_, _, held.tag, held.length⟩
  payload ha i hi := by
    obtain ⟨u, held, fits⟩ := h.unit (.inr ha)
    obtain ⟨-, byteSized, -⟩ := h.wf.cfg
    have length : s.cLen = BitVec.ofNat 8 u.payload.length := Option.some.inj ((h.storage.peeked ha).symm.trans held.length)
    have inside : i.toNat < u.payload.length := by
      rwa [length, BitVec.toNat_ofNat, Nat.mod_eq_of_lt (by omega)] at hi
    exact ⟨payloadAddr_exists s.cfg i (by omega), _, held.bytes _ _ (List.getElem?_eq_getElem inside)⟩

/-- Taking a word changes nothing that port C may read. -/
theorem Readable.taken {port : Port} {s u : State} {i : Instr} (h : Readable s) (hc : TakesCommand port s i u) : Readable u := by
  have empty := hc.emptyC
  obtain ⟨rest, w, -, -, rfl⟩ := hc
  exact ⟨fun he => by simpa using h.header (empty.symm.trans he), by simpa using h.payload⟩

/-- Settles O46: the command a port takes completes, on port P by the range of `WCNT` and on port C by `Readable`. -/
theorem everyStepCompletes : Obligations.EveryStepCompletes := by
  unfold Obligations.EveryStepCompletes
  intro s inv
  refine step_completes s fun port i u hc => ?_
  have readable := inv.readable.taken hc
  obtain ⟨rest, w, -, hd, rfl⟩ := hc
  have hp := decode_port port w i hd
  cases port with
  | p => exact exec_producer_completes i _ hp (by simpa using inv.wf.wcntRange)
  | c => exact exec_consumer_completes i _ hp readable

end Sys2Proof.Machine
end

section
/-! PROOFS. The encoder and the decoder against each other (30_encoding R70 to R84). A word is cut into the fields of a format;
its match test under the format's mask says that `OP` is the opcode's and that the reserved bits are 0; so the words a port
decodes are exactly the encodings of that port's commands (`decode_eq_ok_iff`), and the statements follow from this. -/

namespace Sys2Proof

/-! ## The fields of a word in each format -/

/-- Two fields side by side are equal when each of them is. -/
theorem fields_eq_iff {m n : Nat} {x x' : BitVec m} {y y' : BitVec n} : x ++ y = x' ++ y' ↔ x = x' ∧ y = y' := by
  constructor
  · intro h
    have hx := congrArg (BitVec.extractLsb' n m) h
    have hy := congrArg (BitVec.extractLsb' 0 n) h
    exact ⟨by simpa [BitVec.extractLsb'_append_eq_left] using hx, by simpa [BitVec.extractLsb'_append_eq_right] using hy⟩
  · rintro ⟨rfl, rfl⟩
    rfl

/-! Each format cuts the same word into `OP`, its reserved bits and its operand. -/

theorem append_fields_n (w : Word) : opField w ++ w.extractLsb' 0 12 = w := by
  unfold opField
  rw [BitVec.extractLsb'_append_extractLsb'_eq_extractLsb' (by rfl), BitVec.extractLsb'_eq_self]

theorem append_fields_i (w : Word) : opField w ++ (w.extractLsb' 8 4 ++ imm8 w) = w := by
  unfold imm8
  rw [BitVec.extractLsb'_append_extractLsb'_eq_extractLsb' (by rfl)]
  exact append_fields_n w

theorem append_fields_l (w : Word) : opField w ++ (w.extractLsb' 10 2 ++ llidField w ++ imm8 w) = w := by
  unfold llidField
  rw [BitVec.extractLsb'_append_extractLsb'_eq_extractLsb' (by rfl)]
  exact append_fields_i w

/-- The flag as a field of one bit. -/
theorem ofBool_flagField (w : Word) : BitVec.ofBool (flagField w) = w.extractLsb' 8 1 := by
  ext i hi
  obtain rfl : i = 0 := by omega
  simp [flagField]

theorem append_fields_f (w : Word) : opField w ++ (w.extractLsb' 9 3 ++ BitVec.ofBool (flagField w) ++ imm8 w) = w := by
  rw [ofBool_flagField, BitVec.extractLsb'_append_extractLsb'_eq_extractLsb' (by rfl)]
  exact append_fields_i w

/-! ## Match and mask: `OP` and the reserved bits -/

/-- The reserved bits of a word in a format are 0 (30_encoding R73 to R76). -/
def Format.ReservedZero (w : Word) : Format → Prop
  | .n => w.extractLsb' 0 12 = 0#12
  | .i => w.extractLsb' 8 4 = 0#4
  | .l => w.extractLsb' 10 2 = 0#2 ∧ imm8 w = 0#8
  | .f => w.extractLsb' 9 3 = 0#3 ∧ imm8 w = 0#8

theorem and_mask_i (w : Word) : w &&& Format.i.mask = opField w ++ (w.extractLsb' 8 4 ++ 0#8) :=
  calc w &&& Format.i.mask
      = (opField w ++ (w.extractLsb' 8 4 ++ imm8 w)) &&& (BitVec.allOnes 4 ++ (BitVec.allOnes 4 ++ 0#8)) := by
        rw [append_fields_i]; rfl
    _ = opField w ++ (w.extractLsb' 8 4 ++ 0#8) := by
        simp only [BitVec.and_append, BitVec.and_allOnes, BitVec.and_zero]

theorem and_mask_l (w : Word) : w &&& Format.l.mask = opField w ++ (w.extractLsb' 10 2 ++ 0#2 ++ imm8 w) :=
  calc w &&& Format.l.mask
      = (opField w ++ (w.extractLsb' 10 2 ++ llidField w ++ imm8 w)) &&&
          (BitVec.allOnes 4 ++ (BitVec.allOnes 2 ++ 0#2 ++ BitVec.allOnes 8)) := by
        rw [append_fields_l]; rfl
    _ = opField w ++ (w.extractLsb' 10 2 ++ 0#2 ++ imm8 w) := by
        simp only [BitVec.and_append, BitVec.and_allOnes, BitVec.and_zero]

theorem and_mask_f (w : Word) : w &&& Format.f.mask = opField w ++ (w.extractLsb' 9 3 ++ 0#1 ++ imm8 w) :=
  calc w &&& Format.f.mask
      = (opField w ++ (w.extractLsb' 9 3 ++ BitVec.ofBool (flagField w) ++ imm8 w)) &&&
          (BitVec.allOnes 4 ++ (BitVec.allOnes 3 ++ 0#1 ++ BitVec.allOnes 8)) := by
        rw [append_fields_f]; rfl
    _ = opField w ++ (w.extractLsb' 9 3 ++ 0#1 ++ imm8 w) := by
        simp only [BitVec.and_append, BitVec.and_allOnes, BitVec.and_zero]

/-- A mask keeps `OP` and the reserved bits and clears the operand. -/
theorem and_mask_eq_iff (fmt : Format) (op : BitVec 4) (w : Word) :
    w &&& fmt.mask = op ++ 0#12 ↔ opField w = op ∧ fmt.ReservedZero w := by
  cases fmt with
  | n =>
    have mask : Format.n.mask = BitVec.allOnes 16 := by decide
    have fields := @fields_eq_iff 4 12 (opField w) op (w.extractLsb' 0 12) 0#12
    rw [append_fields_n] at fields
    rw [mask, BitVec.and_allOnes]
    exact fields
  | i =>
    have zero : 0#12 = 0#4 ++ 0#8 := by decide
    rw [and_mask_i, zero, fields_eq_iff, fields_eq_iff]
    simp only [Format.ReservedZero, and_true]
  | l =>
    have zero : 0#12 = 0#2 ++ 0#2 ++ 0#8 := by decide
    rw [and_mask_l, zero, fields_eq_iff, fields_eq_iff, fields_eq_iff]
    simp only [Format.ReservedZero, and_true]
  | f =>
    have zero : 0#12 = 0#3 ++ 0#1 ++ 0#8 := by decide
    rw [and_mask_f, zero, fields_eq_iff, fields_eq_iff, fields_eq_iff]
    simp only [Format.ReservedZero, and_true]

/-! ## What the decoder answers -/

/-- 30_encoding R72, R78: the twelve opcodes are the `OP` values of the table. -/
theorem opcodeOf_eq_some_iff (op : BitVec 4) (o : Opcode) : opcodeOf op = some o ↔ op = o.op := by
  revert op; cases o <;> decide

/-- 30_encoding R72: the other four `OP` values are reserved. -/
theorem opcodeOf_eq_none_iff (op : BitVec 4) : opcodeOf op = none ↔ op = 0x0#4 ∨ op = 0x8#4 ∨ op = 0xE#4 ∨ op = 0xF#4 := by
  revert op; decide

/-- Each opcode has its own `OP` value. -/
theorem Opcode.op_injective : Function.Injective Opcode.op := fun o o' h =>
  Option.some.inj (((opcodeOf_eq_some_iff o.op o).2 rfl).symm.trans ((opcodeOf_eq_some_iff o.op o').2 h))

/-- A word with the `OP` of an opcode passes its match test exactly when its reserved bits are 0. -/
theorem match_iff_reservedZero (o : Opcode) (w : Word) (op : opField w = o.op) :
    w &&& o.mask = o.pattern ↔ o.format.ReservedZero w := by
  rw [Opcode.mask, Opcode.pattern, and_mask_eq_iff, and_iff_right op]

/-- Everything the decoder of a port can answer (30_encoding R79). -/
theorem decode_cases (port : Port) (w : Word) :
    (opcodeOf (opField w) = none ∧ decode port w = .error .reservedOp) ∨
    ∃ o : Opcode, opField w = o.op ∧
      ((o.port ≠ port ∧ decode port w = .error .wrongPort) ∨
       (o.port = port ∧ ¬ o.format.ReservedZero w ∧ decode port w = .error .reservedBits) ∨
       (o.port = port ∧ o.format.ReservedZero w ∧ decode port w = .ok (assembleOperands o w))) := by
  unfold decode
  cases ho : opcodeOf (opField w) with
  | none => exact .inl ⟨rfl, rfl⟩
  | some o =>
    have op := (opcodeOf_eq_some_iff _ o).1 ho
    refine .inr ⟨o, op, ?_⟩
    rw [← match_iff_reservedZero o w op]
    by_cases hp : o.port = port
    · by_cases hm : w &&& o.mask = o.pattern
      · exact .inr (.inr ⟨hp, hm, by simp [hp, hm]⟩)
      · exact .inr (.inl ⟨hp, hm, by simp [hp, hm]⟩)
    · exact .inl ⟨hp, by simp [hp]⟩

/-! ## Encoding what was decoded -/

/-- The twelve bits below `OP` that a format reads from a word, its reserved bits taken as 0. -/
def Format.operandBits (w : Word) : Format → BitVec 12
  | .n => 0#12
  | .i => 0#4 ++ imm8 w
  | .l => 0#2 ++ llidField w ++ 0#8
  | .f => 0#3 ++ BitVec.ofBool (flagField w) ++ 0#8

/-- A word whose reserved bits are 0 is its `OP` and its operand. -/
theorem op_append_operandBits (fmt : Format) (w : Word) (h : fmt.ReservedZero w) : opField w ++ fmt.operandBits w = w := by
  cases fmt with
  | n =>
    have reserved : w.extractLsb' 0 12 = 0#12 := h
    simpa only [Format.operandBits, reserved] using append_fields_n w
  | i =>
    have reserved : w.extractLsb' 8 4 = 0#4 := h
    simpa only [Format.operandBits, reserved] using append_fields_i w
  | l =>
    obtain ⟨upper, lower⟩ := h
    simpa only [Format.operandBits, upper, lower] using append_fields_l w
  | f =>
    obtain ⟨upper, lower⟩ := h
    simpa only [Format.operandBits, upper, lower] using append_fields_f w

theorem opcode_assembleOperands (o : Opcode) (w : Word) : (assembleOperands o w).opcode = o := by
  cases o <;> rfl

theorem operandBits_assembleOperands (o : Opcode) (w : Word) : (assembleOperands o w).operandBits = o.format.operandBits w := by
  cases o <;> rfl

theorem encode_assembleOperands (o : Opcode) (w : Word) (op : opField w = o.op) (h : o.format.ReservedZero w) :
    encode (assembleOperands o w) = w := by
  rw [encode, opcode_assembleOperands, operandBits_assembleOperands, ← op, op_append_operandBits _ w h]

/-! ## Decoding what was encoded -/

theorem imm8_of_fields {w : Word} {op r : BitVec 4} {b : BitVec 8} (h : w = op ++ (r ++ b)) : imm8 w = b := by
  have fields := (append_fields_i w).trans h
  rw [fields_eq_iff, fields_eq_iff] at fields
  obtain ⟨-, -, operand⟩ := fields
  exact operand

theorem llidField_of_fields {w : Word} {op : BitVec 4} {r l : BitVec 2} {b : BitVec 8} (h : w = op ++ (r ++ l ++ b)) :
    llidField w = l := by
  have fields := (append_fields_l w).trans h
  rw [fields_eq_iff, fields_eq_iff, fields_eq_iff] at fields
  obtain ⟨-, ⟨-, operand⟩, -⟩ := fields
  exact operand

theorem flagField_of_fields {w : Word} {op : BitVec 4} {r : BitVec 3} {f : Bool} {b : BitVec 8}
    (h : w = op ++ (r ++ BitVec.ofBool f ++ b)) : flagField w = f := by
  have fields := (append_fields_f w).trans h
  rw [fields_eq_iff, fields_eq_iff, fields_eq_iff] at fields
  obtain ⟨-, ⟨-, operand⟩, -⟩ := fields
  simpa using congrArg (BitVec.getLsbD · 0) operand

/-- Operand assembly reads back the operand of a command from its word (30_encoding R77). -/
theorem assembleOperands_encode (i : Instr) : assembleOperands i.opcode (encode i) = i := by
  cases i with
  | pBegin n => exact congrArg Instr.pBegin (imm8_of_fields rfl)
  | pWrite b => exact congrArg Instr.pWrite (imm8_of_fields rfl)
  | pCommit llid => exact congrArg Instr.pCommit (llidField_of_fields rfl)
  | cRead i => exact congrArg Instr.cRead (imm8_of_fields rfl)
  | cRelease f => exact congrArg Instr.cRelease (flagField_of_fields rfl)
  | _ => rfl

/-- The opcode map's lemma about each command, as one. -/
theorem encoding_statement (i : Instr) : Laws.Encoding.Statement i := by
  cases i with
  | pFree => exact Laws.Encoding.pFree
  | pBegin n => exact Laws.Encoding.pBegin n
  | pWrite b => exact Laws.Encoding.pWrite b
  | pSpace => exact Laws.Encoding.pSpace
  | pCommit llid => exact Laws.Encoding.pCommit llid
  | pCancel => exact Laws.Encoding.pCancel
  | pStat => exact Laws.Encoding.pStat
  | cHasdata => exact Laws.Encoding.cHasdata
  | cPeek => exact Laws.Encoding.cPeek
  | cRead i => exact Laws.Encoding.cRead i
  | cRelease f => exact Laws.Encoding.cRelease f
  | cStat => exact Laws.Encoding.cStat

theorem decode_encode (i : Instr) : decode i.port (encode i) = .ok i := by
  obtain ⟨hmatch, hop, hport, -⟩ := encoding_statement i
  have op : opField (encode i) = i.opcode.op := (opcodeOf_eq_some_iff _ _).1 hop
  have zero : i.opcode.format.ReservedZero (encode i) := (match_iff_reservedZero _ _ op).1 hmatch
  rcases decode_cases i.port (encode i) with ⟨hn, -⟩ | ⟨o, ho, answer⟩
  · cases hop.symm.trans hn
  · obtain rfl : i.opcode = o := Opcode.op_injective (op.symm.trans ho)
    rcases answer with ⟨hp, -⟩ | ⟨-, hz, -⟩ | ⟨-, -, hd⟩
    · exact absurd hport hp
    · exact absurd zero hz
    · rw [hd, assembleOperands_encode]

/-- A word has one meaning: it shows its opcode, and with that its operand. -/
theorem encode_injective : Function.Injective encode := by
  intro i j h
  obtain ⟨-, hi, -⟩ := encoding_statement i
  obtain ⟨-, hj, -⟩ := encoding_statement j
  have opcode : i.opcode = j.opcode := Option.some.inj (hi.symm.trans (h ▸ hj))
  rw [← assembleOperands_encode i, ← assembleOperands_encode j, opcode, h]

/-- 30_encoding R78, R79: the words a port decodes are the encodings of its commands, each decoded to the command it encodes. -/
theorem decode_eq_ok_iff (port : Port) (w : Word) (i : Instr) : decode port w = .ok i ↔ encode i = w ∧ i.port = port := by
  constructor
  · intro h
    refine ⟨?_, Machine.decode_port port w i h⟩
    rcases decode_cases port w with ⟨-, hd⟩ | ⟨o, op, ⟨-, hd⟩ | ⟨-, -, hd⟩ | ⟨-, zero, hd⟩⟩
    · cases hd.symm.trans h
    · cases hd.symm.trans h
    · cases hd.symm.trans h
    · cases hd.symm.trans h
      exact encode_assembleOperands o w op zero
  · rintro ⟨rfl, rfl⟩
    exact decode_encode i

/-- Settles O1: the decoder finds the command's opcode and zero reserved bits, and reads back its operand. -/
theorem decodeEncode : Obligations.DecodeEncode := by
  unfold Obligations.DecodeEncode
  exact decode_encode

/-- Settles O2: one direction of `decode_eq_ok_iff`. -/
theorem encodeDecode : Obligations.EncodeDecode := by
  unfold Obligations.EncodeDecode
  intro port w i h
  exact (decode_eq_ok_iff port w i).1 h

/-- Settles O3: each word is the encoding of its command. -/
theorem specWordsDecode : Obligations.SpecWordsDecode := by
  unfold Obligations.SpecWordsDecode
  simp only [decode_eq_ok_iff]
  decide

/-! ## The illegal words -/

/-- A word with the `OP` of an opcode is illegal where the opcode belongs to the other port or a reserved bit is 1. -/
theorem decode_eq_error_iff (port : Port) (w : Word) (o : Opcode) (op : opField w = o.op) :
    (∃ e, decode port w = .error e) ↔ o.port ≠ port ∨ ¬ o.format.ReservedZero w := by
  rcases decode_cases port w with ⟨hn, -⟩ | ⟨o', ho, answer⟩
  · cases ((opcodeOf_eq_some_iff _ o).2 op).symm.trans hn
  · obtain rfl : o' = o := Opcode.op_injective (ho.symm.trans op)
    rcases answer with ⟨hp, hd⟩ | ⟨hp, hz, hd⟩ | ⟨hp, hz, hd⟩
    · simp [hd, hp]
    · simp [hd, hz]
    · simp [hd, hp, hz]

theorem Opcode.port_ne_iff (o : Opcode) (port : Port) :
    o.port ≠ port ↔ (port = .p ∧ 0x9 ≤ o.op.toNat ∧ o.op.toNat ≤ 0xD) ∨ (port = .c ∧ 0x1 ≤ o.op.toNat ∧ o.op.toNat ≤ 0x7) := by
  cases o <;> cases port <;> decide

/-- The formats of the opcodes, by `OP`, with the reserved bits of each. -/
theorem Opcode.not_reservedZero_iff (o : Opcode) (w : Word) :
    ¬ o.format.ReservedZero w ↔
      (o.op.toNat ∈ [0x1, 0x4, 0x6, 0x7, 0x9, 0xA, 0xD] ∧ w.extractLsb' 0 12 ≠ 0#12) ∨
      (o.op.toNat ∈ [0x2, 0x3, 0xB] ∧ w.extractLsb' 8 4 ≠ 0#4) ∨
      (o.op.toNat = 0x5 ∧ (w.extractLsb' 10 2 ≠ 0#2 ∨ w.extractLsb' 0 8 ≠ 0#8)) ∨
      (o.op.toNat = 0xC ∧ (w.extractLsb' 9 3 ≠ 0#3 ∨ w.extractLsb' 0 8 ≠ 0#8)) := by
  cases o <;> simp [Opcode.op, Opcode.format, Format.ReservedZero, imm8, imp_iff_not_or]

/-- Settles O4: a word without an opcode is rejected at both ports; one with an opcode, at the other port or by a reserved bit
of the opcode's format. -/
theorem illegalExactly : Obligations.IllegalExactly := by
  unfold Obligations.IllegalExactly
  intro port w
  rcases decode_cases port w with ⟨hn, hd⟩ | ⟨o, op, -⟩
  · have reserved : (w.extractLsb' 12 4).toNat = 0x0 ∨ (w.extractLsb' 12 4).toNat = 0x8 ∨ (w.extractLsb' 12 4).toNat = 0xE ∨
        (w.extractLsb' 12 4).toNat = 0xF := by
      simpa [BitVec.toNat_eq, opField] using (opcodeOf_eq_none_iff _).1 hn
    refine iff_of_true ⟨_, hd⟩ ?_
    dsimp only
    tauto
  · have legal : o.op.toNat ≠ 0x0 ∧ o.op.toNat ≠ 0x8 ∧ o.op.toNat ≠ 0xE ∧ o.op.toNat ≠ 0xF := by cases o <;> decide
    have field : w.extractLsb' 12 4 = o.op := op
    rw [decode_eq_error_iff port w o op, o.port_ne_iff port, o.not_reservedZero_iff w]
    simp only [field, legal, List.mem_cons, List.not_mem_nil, or_false, false_or, or_assoc]

/-! ## The legal words, counted -/

/-- The operands of format I (30_encoding R74), each once. -/
def allBytes : List Byte := (List.finRange 256).map BitVec.ofFin

theorem mem_allBytes (b : Byte) : b ∈ allBytes := List.mem_map.2 ⟨b.toFin, List.mem_finRange _, rfl⟩

theorem nodup_allBytes : allBytes.Nodup := (List.nodup_finRange 256).map fun _ _ => BitVec.ofFin.inj

theorem length_allBytes : allBytes.length = 256 := by simp [allBytes]

/-- The commands of a port. -/
def commandsOf : Port → List Instr
  | .p => [.pFree, .pSpace, .pCommit 0, .pCommit 1, .pCommit 2, .pCommit 3, .pCancel, .pStat] ++
      (allBytes.map .pBegin ++ allBytes.map .pWrite)
  | .c => [.cHasdata, .cPeek, .cRelease false, .cRelease true, .cStat] ++ allBytes.map .cRead

theorem mem_commandsOf (port : Port) (i : Instr) : i ∈ commandsOf port ↔ i.port = port := by
  have tags : ∀ llid : BitVec 2, llid = 0#2 ∨ llid = 1#2 ∨ llid = 2#2 ∨ llid = 3#2 := by decide
  have flags : ∀ f : Bool, f = false ∨ f = true := by decide
  cases port with
  | p => cases i <;> simp [commandsOf, Instr.port, mem_allBytes, tags]
  | c => cases i <;> simp [commandsOf, Instr.port, mem_allBytes, flags]

theorem nodup_commandsOf (port : Port) : (commandsOf port).Nodup := by
  cases port with
  | p =>
    have begins : (allBytes.map Instr.pBegin).Nodup := nodup_allBytes.map fun _ _ => Instr.pBegin.inj
    have writes : (allBytes.map Instr.pWrite).Nodup := nodup_allBytes.map fun _ _ => Instr.pWrite.inj
    exact .append (by decide) (begins.append writes (by simp [List.Disjoint])) (by simp [List.Disjoint])
  | c =>
    have reads : (allBytes.map Instr.cRead).Nodup := nodup_allBytes.map fun _ _ => Instr.cRead.inj
    exact .append (by decide) reads (by simp [List.Disjoint])

theorem mem_encodings (port : Port) (w : Word) : w ∈ (commandsOf port).map encode ↔ ∃ i, decode port w = .ok i := by
  simp only [List.mem_map, mem_commandsOf, decode_eq_ok_iff, and_comm]

/-- Settles O5: the list is the encodings of the port's commands, which `encode` does not confuse. -/
theorem legalWordCounts : Obligations.LegalWordCounts := by
  unfold Obligations.LegalWordCounts
  exact ⟨⟨_, (nodup_commandsOf .p).map encode_injective, by simp [commandsOf, length_allBytes], mem_encodings .p⟩,
    ⟨_, (nodup_commandsOf .c).map encode_injective, by simp [commandsOf, length_allBytes], mem_encodings .c⟩⟩

/-! ## Written commands -/

/-- An operand in range is not changed by cutting it to its width (30_encoding R84). -/
theorem term_cut (t : Term) (h : t.wf = true) : t.cut.term = t := by
  cases t with
  | pBegin n => exact congrArg Term.pBegin (Nat.mod_eq_of_lt (of_decide_eq_true h))
  | pWrite b => exact congrArg Term.pWrite (Nat.mod_eq_of_lt (of_decide_eq_true h))
  | pCommit llid => exact congrArg Term.pCommit (Nat.mod_eq_of_lt (of_decide_eq_true h))
  | cRead i => exact congrArg Term.cRead (Nat.mod_eq_of_lt (of_decide_eq_true h))
  | cRelease f =>
    have flag : f < 2 := of_decide_eq_true h
    interval_cases f <;> rfl
  | _ => rfl

/-- A written command denotes the command it was written from. -/
theorem cut_term (i : Instr) : i.term.cut = i := by
  cases i with
  | pBegin n => simp [Instr.term, Term.cut]
  | pWrite b => simp [Instr.term, Term.cut]
  | pCommit llid => simp [Instr.term, Term.cut]
  | cRead i => simp [Instr.term, Term.cut]
  | cRelease f => cases f <;> rfl
  | _ => rfl

/-- Settles O6: cutting undoes writing, and writing undoes cutting where the operand is in range. -/
theorem writtenCommands : Obligations.WrittenCommands := by
  unfold Obligations.WrittenCommands
  intro t i
  constructor
  · intro h
    obtain ⟨wf, cut⟩ : t.wf = true ∧ t.cut = i := by simpa [Term.toInstr] using h
    rw [← cut, term_cut t wf]
  · rintro rfl
    have wf : i.term.wf = true := Laws.instr_wf i
    rw [Term.toInstr, if_pos wf, cut_term]

end Sys2Proof
end

section
/-! PROOFS. The response of a command (30_encoding R71, R80, 60_exceptions R200). Every way a command ends gives its port one
response word, with `HI` and `LO` 0 where the code is not `OK`. -/

namespace Sys2Proof.Machine

/-- A response word a port gives: `HI` and `LO` are 0 unless the code is `OK` (30_encoding R80). -/
inductive IsResponse : Response → Prop where
  | ok (hi lo : Byte) : IsResponse (respWord .ok hi lo)
  | other (rc : RespCode) (h : rc ≠ .ok) : IsResponse (respWord rc 0#8 0#8)

theorem ProducerEffect.response {s t : State} {i : Instr} (e : ProducerEffect s i t) :
    ∃ r, IsResponse r ∧ t.hostP = s.hostP.receive r := by
  cases e with
  | turnedAway _ rc h => exact ⟨_, .other rc h, rfl⟩
  | faulted => exact ⟨_, .other .fault (by decide), by simp⟩
  | _ => exact ⟨_, .ok _ _, rfl⟩

theorem ConsumerEffect.response {s t : State} {i : Instr} (e : ConsumerEffect s i t) :
    ∃ r, IsResponse r ∧ t.hostC = s.hostC.receive r := by
  cases e with
  | turnedAway _ rc h => exact ⟨_, .other rc h, rfl⟩
  | faulted => exact ⟨_, .other .fault (by decide), by simp⟩
  | _ => exact ⟨_, .ok _ _, rfl⟩

/-! ## The fields of a response word -/

/-- Bits 27:16 of a response are 0 (30_encoding R80). -/
theorem reserved_respWord (rc : RespCode) (hi lo : Byte) : (respWord rc hi lo).extractLsb' 16 12 = 0#12 := by
  have h1 : hi.toNat < 256 := hi.isLt
  have h2 : lo.toNat < 256 := lo.isLt
  apply BitVec.eq_of_toNat_eq
  rw [BitVec.extractLsb'_toNat, respWord_toNat, Nat.shiftRight_eq_div_pow]
  simp only [Nat.reducePow, BitVec.toNat_ofNat]
  omega

theorem IsResponse.reserved {r : Response} (h : IsResponse r) : r.extractLsb' 16 12 = 0#12 := by
  cases h with
  | ok hi lo => exact reserved_respWord _ _ _
  | other rc _ => exact reserved_respWord _ _ _

/-- The seven codes that are produced, and the result bytes of all but `OK` (60_exceptions R200). -/
theorem IsResponse.code {r : Response} (h : IsResponse r) :
    r.extractLsb' 28 4 = 0x0#4 ∨
    (r.extractLsb' 28 4 ∈ [0x1#4, 0x2#4, 0x3#4, 0x4#4, 0x5#4, 0xE#4] ∧ r.extractLsb' 0 16 = 0#16) := by
  cases h with
  | ok hi lo => exact .inl (rspCode_respWord .ok hi lo)
  | other rc h =>
    revert h
    cases rc <;> decide

/-- Settles O37: each port's commands add one response of the form `IsResponse`, and leave the other port's host. -/
theorem oneResponse : Obligations.OneResponse := by
  unfold Obligations.OneResponse
  intro i s t hx
  cases hp : i.port with
  | p =>
    have e := exec_producer i s t hp hx
    obtain ⟨r, form, hostP⟩ := e.response
    exact ⟨r, form.reserved, form.code, fun _ => ⟨by rw [hostP, receive_rsps], by rw [e.keeps.hostC]⟩, nofun⟩
  | c =>
    have e := exec_consumer i s t hp hx
    obtain ⟨r, form, hostC⟩ := e.response
    exact ⟨r, form.reserved, form.code, nofun, fun _ => ⟨by rw [hostC, receive_rsps], by rw [e.keeps.hostP]⟩⟩

end Sys2Proof.Machine
end

section
/-! PROOFS. A port's step on an illegal word (30_encoding R79, 41_producer R120, 42_consumer R150). -/

namespace Sys2Proof.Machine

theorem portTurn_of_illegal (port : Port) (s : State) (w : Word) (e : Illegal)
    (hw : presented port s = some w) (hd : decode port w = .error e) :
    portTurn port s = raiseFault port .illegal (advance port s) := by
  simp only [portTurn, hw, hd]

/-- The step of an agent `a` that is a port's (`ha`), on an illegal word: the fault entry, past the word taken. -/
theorem step_of_illegal (port : Port) (a : Agent) (ha : ∀ t, agentTurn a t = portTurn port t) (s : State) (rest : List Agent)
    (w : Word) (e : Illegal) (hs : s.sched = a :: rest) (hw : presented port s = some w) (hd : decode port w = .error e) :
    step s = raiseFault port .illegal (advance port { s with sched := rest }) := by
  have hpres : presented port { s with sched := rest } = some w := (presented_sched port s rest).trans hw
  rw [step_of_sched s a rest hs, ha, portTurn_of_illegal port _ w e hpres hd]

/-- 60_exceptions R205 at port P: the first fault's code is kept, and the answer is `FAULT`. -/
theorem raiseFault_p (code : FaultCode) (s : State) :
    raiseFault .p code s = .next { s with
      pFault := if s.pFault = 0#3 then code.code else s.pFault
      hostP := s.hostP.receive 0xE0000000#32 } := by
  by_cases h : s.pFault = 0#3 <;> simp only [raiseFault, recordFault, portFault, h] <;> rfl

/-- 60_exceptions R205 at port C. -/
theorem raiseFault_c (code : FaultCode) (s : State) :
    raiseFault .c code s = .next { s with
      cFault := if s.cFault = 0#3 then code.code else s.cFault
      hostC := s.hostC.receive 0xE0000000#32 } := by
  by_cases h : s.cFault = 0#3 <;> simp only [raiseFault, recordFault, portFault, h] <;> rfl

/-- Settles O8: the step is the fault entry, written out for each port. -/
theorem illegalWordFaults : Obligations.IllegalWordFaults := by
  unfold Obligations.IllegalWordFaults
  constructor
  · intro s rest w e hs hw hd
    rw [step_of_illegal .p .portP (fun _ => rfl) s rest w e hs hw hd, raiseFault_p]
    rfl
  · intro s rest w e hs hw hd
    rw [step_of_illegal .c .portC (fun _ => rfl) s rest w e hs hw hd, raiseFault_c]
    rfl

end Sys2Proof.Machine
end

section
/-! PROOFS. The header codec (40_codec_split R101, R102): byte 0 is cut into the six bits decoding ignores and the tag. -/

namespace Sys2Proof.Machine

/-- 40_codec_split R101: byte 0 is six zero bits above the tag. -/
theorem encodeHeader_eq_append (llid : BitVec 2) (len : Byte) : encodeHeader llid len = (0#6 ++ llid, len) := by
  have tag : llid.setWidth 8 = 0#6 ++ llid := BitVec.setWidth_eq_append (by decide)
  rw [encodeHeader, tag]

/-- 40_codec_split R102: the bits of byte 0 above the tag are ignored. -/
theorem decodeHeader_append (hi : BitVec 6) (llid : BitVec 2) (len : Byte) :
    decodeHeader (hi ++ llid) len = { llid := llid, length := len } := by
  have tag : (hi ++ llid).setWidth 2 = llid := BitVec.setWidth_append_eq_right
  rw [decodeHeader, tag]

theorem decodeHeader_encodeHeader (llid : BitVec 2) (len : Byte) :
    decodeHeader (encodeHeader llid len).1 (encodeHeader llid len).2 = { llid := llid, length := len } := by
  rw [encodeHeader_eq_append, decodeHeader_append]

theorem decodeHeader_llid (h0 h1 : Byte) : (decodeHeader h0 h1).llid = h0.extractLsb' 0 2 := by
  have fits : 2 ≤ 8 := by decide
  rw [decodeHeader, BitVec.setWidth_eq_extractLsb' fits]

theorem decodeHeader_length (h0 h1 : Byte) : (decodeHeader h0 h1).length = h1 := rfl

/-- Settles O21: the two fields of the encoded byte 0, the round trip, and the decoded fields of any two bytes. -/
theorem headerCodec : Obligations.HeaderCodec := by
  unfold Obligations.HeaderCodec
  constructor
  · intro llid len
    refine ⟨?_, ?_, ?_, decodeHeader_encodeHeader llid len⟩
    · rw [encodeHeader_eq_append, BitVec.extractLsb'_append_eq_right]
    · rw [encodeHeader_eq_append, BitVec.extractLsb'_append_eq_left]
    · rw [encodeHeader_eq_append]
  · exact fun h0 h1 => ⟨decodeHeader_llid h0 h1, decodeHeader_length h0 h1⟩

end Sys2Proof.Machine
end

section
/-! PROOFS. The words and the answers of a port, shared by its commands: a command's word as its row's match with the operand in
the low bits (30_encoding R73 to R78), and a response word as the value of its result bytes (30_encoding R80). -/

namespace Sys2Proof

/-- Zero bits above a value do not count in a resize. -/
theorem setWidth_zero_append {v : Nat} (m k : Nat) (x : BitVec v) : (0#m ++ x).setWidth k = x.setWidth k := by
  apply BitVec.eq_of_toNat_eq
  simp only [BitVec.toNat_setWidth, BitVec.toNat_append, BitVec.toNat_zero, Nat.zero_shiftLeft, Nat.zero_or]

/-- 30_encoding R78: the operand fills bits the row's match leaves 0. -/
theorem encode_eq_or (i : Instr) (o : Opcode) (ho : i.opcode = o) : encode i = o.pattern ||| i.operandBits.setWidth 16 := by
  have operand : i.operandBits.setWidth 16 = 0#4 ++ i.operandBits := BitVec.setWidth_eq_append (by decide)
  have fields := BitVec.or_append (x₁ := i.opcode.op) (y₁ := 0#12) (x₂ := 0#4) (y₂ := i.operandBits)
  rw [BitVec.or_zero, BitVec.zero_or] at fields
  rw [operand, ← ho, encode]
  exact fields.symm

/-- The link-id operand of format L stands in bits 9:8 (30_encoding R75). -/
theorem setWidth_operand_l (llid : BitVec 2) : (0#2 ++ llid ++ 0#8).setWidth 16 = llid.setWidth 16 <<< 8 := by
  revert llid
  decide

end Sys2Proof

namespace Sys2Proof.Machine

/-! ## Answers -/

theorem respond_p_eq (rc : RespCode) (hi lo : Byte) (s : State) : respond .p rc hi lo s = answerP s (respWord rc hi lo) := rfl

theorem respond_c_eq (rc : RespCode) (hi lo : Byte) (s : State) : respond .c rc hi lo s = answerC s (respWord rc hi lo) := rfl

/-- 60_exceptions R205 on a port P without a fault: the code is recorded. -/
theorem raiseFault_p_of_unfaulted (code : FaultCode) (s : State) (h0 : s.pFault = 0#3) :
    raiseFault .p code s = .next (answerP { s with pFault := code.code } 0xE0000000#32) := by
  rw [raiseFault_p, if_pos h0]
  rfl

/-- An `OK` response is the number its two result bytes make. -/
theorem respWord_ok (hi lo : Byte) : respWord .ok hi lo = (hi ++ lo).setWidth 32 := by
  have code : RespCode.ok.code ++ 0#12 = 0#16 := rfl
  rw [respWord, code, BitVec.append_assoc, BitVec.setWidth_eq_append (by decide)]

theorem respWord_ok_lo (lo : Byte) : respWord .ok 0#8 lo = lo.setWidth 32 := by
  rw [respWord_ok, setWidth_zero_append]

/-- A result of at most 255 is answered as it is. -/
theorem respWord_ok_ofNat (n : Nat) (h : n ≤ 255) : respWord .ok 0#8 (BitVec.ofNat 8 n) = BitVec.ofNat 32 n := by
  rw [respWord_ok_lo, BitVec.setWidth_ofNat_of_le_of_lt (by decide) (by omega)]

/-- The space left after `k` bytes (41_producer R124), as a response byte. -/
theorem capacity_sub_ofNat (c : Config) (k : Nat) (hv : c.Valid) (h : k ≤ c.maxPayload) :
    c.capacity - BitVec.ofNat 8 k = BitVec.ofNat 8 (c.maxPayload - k) := by
  obtain ⟨-, byteSized, -⟩ := hv
  exact BitVec.ofNat_sub_ofNat_of_le _ _ (by omega) h

/-- `MAX_PAYLOAD` as an answer. -/
theorem respWord_capacity (c : Config) (hv : c.Valid) : respWord .ok 0#8 c.capacity = BitVec.ofNat 32 c.maxPayload := by
  obtain ⟨-, byteSized, -⟩ := hv
  exact respWord_ok_ofNat c.maxPayload byteSized

/-- The space left after `k` bytes, as an answer. -/
theorem respWord_space (c : Config) (k : Nat) (hv : c.Valid) (h : k ≤ c.maxPayload) :
    respWord .ok 0#8 (c.capacity - BitVec.ofNat 8 k) = BitVec.ofNat 32 (c.maxPayload - k) := by
  rw [capacity_sub_ofNat c k hv h]
  obtain ⟨-, byteSized, -⟩ := hv
  exact respWord_ok_ofNat _ (by omega)

end Sys2Proof.Machine
end

section
/-! PROOFS. The status registers and their commands (10_state R37, R38, 41_producer R127, 42_consumer R155). Both registers have
one layout, and the two bytes of the answer are the register. -/

namespace Sys2Proof.Machine

/-- The layout of `P_STATUS` and `C_STATUS`: a count, three zero bits, the fault code, the transaction and the flag. -/
def statusWord (count : Byte) (fault : BitVec 3) (act flag : Bool) : BitVec 16 :=
  count ++ 0#3 ++ fault ++ BitVec.ofBool act ++ BitVec.ofBool flag

theorem pStatus_eq (s : State) : pStatus s = statusWord s.wcnt s.pFault s.pAct (fullP s) := rfl

theorem cStatus_eq (s : State) : cStatus s = statusWord s.cLen s.cFault s.cAct (emptyC s) := rfl

section Fields

variable (count : Byte) (fault : BitVec 3) (act flag : Bool)

theorem statusWord_flag : (statusWord count fault act flag).getLsbD 0 = flag := by
  rw [statusWord, BitVec.getLsbD_append, if_pos (by decide), BitVec.getLsbD_ofBool]
  rfl

theorem statusWord_act : (statusWord count fault act flag).getLsbD 1 = act := by
  rw [statusWord, BitVec.getLsbD_append, if_neg (by decide), BitVec.getLsbD_append, if_pos (by decide), BitVec.getLsbD_ofBool]
  rfl

theorem statusWord_fault : (statusWord count fault act flag).extractLsb' 2 3 = fault := by
  rw [statusWord, BitVec.extractLsb'_append_eq_of_le (by decide), BitVec.extractLsb'_append_eq_of_le (by decide)]
  exact BitVec.extractLsb'_append_eq_right

theorem statusWord_reserved : (statusWord count fault act flag).extractLsb' 5 3 = 0#3 := by
  rw [statusWord, BitVec.extractLsb'_append_eq_of_le (by decide), BitVec.extractLsb'_append_eq_of_le (by decide),
    BitVec.extractLsb'_append_eq_of_le (by decide)]
  exact BitVec.extractLsb'_append_eq_right

theorem statusWord_count : (statusWord count fault act flag).extractLsb' 8 8 = count := by
  rw [statusWord, BitVec.extractLsb'_append_eq_of_le (by decide), BitVec.extractLsb'_append_eq_of_le (by decide),
    BitVec.extractLsb'_append_eq_of_le (by decide)]
  exact BitVec.extractLsb'_append_eq_left

/-- 10_state R37, R38: the five fields of the layout. -/
theorem statusWord_fields :
    (statusWord count fault act flag).getLsbD 0 = flag ∧ (statusWord count fault act flag).getLsbD 1 = act ∧
    (statusWord count fault act flag).extractLsb' 2 3 = fault ∧ (statusWord count fault act flag).extractLsb' 5 3 = 0#3 ∧
    (statusWord count fault act flag).extractLsb' 8 8 = count :=
  ⟨statusWord_flag .., statusWord_act .., statusWord_fault .., statusWord_reserved .., statusWord_count ..⟩

end Fields

/-- A status register in `HI` and `LO` is the register. -/
theorem respWord_status (st : BitVec 16) : respWord .ok (statusHi st) (statusLo st) = st.setWidth 32 := by
  have bytes : statusHi st ++ statusLo st = st := by
    rw [statusHi, statusLo, BitVec.extractLsb'_append_extractLsb'_eq_extractLsb' (by rfl)]
    exact BitVec.extractLsb'_eq_self
  rw [respWord_ok, bytes]

theorem exec_pStat (s : State) : exec .pStat s = .next (answerP s ((pStatus s).setWidth 32)) := by
  rw [← respWord_status]
  rfl

theorem exec_cStat (s : State) : exec .cStat s = .next (answerC s ((cStatus s).setWidth 32)) := by
  rw [← respWord_status]
  rfl

/-- Settles O13: the fields of the common layout, and the two commands, which answer the register in every state. -/
theorem statusRegisters : Obligations.StatusRegisters := by
  unfold Obligations.StatusRegisters
  constructor
  · intro s
    obtain ⟨flag, act, fault, reserved, count⟩ := (pStatus_eq s).symm ▸ statusWord_fields s.wcnt s.pFault s.pAct (fullP s)
    exact ⟨flag, act, fault, reserved, count, exec_pStat s, rfl⟩
  · intro s
    obtain ⟨flag, act, fault, reserved, count⟩ := (cStatus_eq s).symm ▸ statusWord_fields s.cLen s.cFault s.cAct (emptyC s)
    exact ⟨flag, act, fault, reserved, count, exec_cStat s, rfl⟩

end Sys2Proof.Machine
end

section
/-! PROOFS. The producer commands on a port P without a fault (41_producer R121 to R126): each check in its order, and the whole
next state. -/

namespace Sys2Proof.Machine

/-! ## The checks the commands share -/

section Unfaulted

variable {s : State} (h0 : s.pFault = 0#3)

include h0

/-- A command that finds no transaction open where it wants one faults `PROTOCOL` (60_exceptions R209). -/
theorem closed_protocol (body : Result) (ha : s.pAct = false) :
    unlessFaulted .p s (if !s.pAct then raiseFault .p .protocol s else body) =
      .next (answerP { s with pFault := 4#3 } 0xE0000000#32) := by
  rw [unlessFaulted_of .p s _ h0, if_pos (by rw [ha, Bool.not_false]), raiseFault_p_of_unfaulted .protocol s h0]
  rfl

/-- A command that finds a transaction open where it wants one goes on. -/
theorem opened_continues (body : Result) (ha : s.pAct = true) :
    unlessFaulted .p s (if !s.pAct then raiseFault .p .protocol s else body) = body := by
  rw [unlessFaulted_of .p s _ h0, if_neg (by rw [ha, Bool.not_true]; exact Bool.false_ne_true)]

end Unfaulted

/-! ## `P_FREE` and `P_BEGIN` -/

/-- Settles O22: the two answers, by `FULL_P`. -/
theorem pFreeAnswers : Obligations.PFreeAnswers := by
  unfold Obligations.PFreeAnswers
  refine ⟨rfl, fun s hv h0 => ?_⟩
  rw [exec, execPFree, unlessFaulted_of .p s _ h0]
  split
  · rfl
  · rw [respond_p_eq, respWord_capacity s.cfg hv]

/-- Settles O23: the checks in the order of R122, each with its answer. -/
theorem pBeginResult : Obligations.PBeginResult := by
  unfold Obligations.PBeginResult
  intro n
  refine ⟨?_, fun s hv h0 => ?_⟩
  · rw [encode_eq_or (.pBegin n) .pBegin rfl, Instr.operandBits, setWidth_zero_append]
    rfl
  · rw [exec, execPBegin, unlessFaulted_of .p s _ h0, raiseFault_p_of_unfaulted .protocol s h0,
      raiseFault_p_of_unfaulted .capExceeded s h0, respond_p_eq .ok, respWord_capacity s.cfg hv]
    rfl

/-! ## `P_WRITE` and `P_SPACE` -/

/-- A write below the bound: one byte at the next payload address, and the space left after it (41_producer R123). -/
theorem exec_pWrite_of_room (b : Byte) (s : State) (hv : s.cfg.Valid) (h0 : s.pFault = 0#3) (ha : s.pAct = true)
    (room : s.wcnt.toNat < s.cfg.maxPayload) :
    exec (.pWrite b) s =
      .next (answerP
        { s with slot := memPut s.slot (payloadAddr s.wcnt) b, wcnt := BitVec.ofNat 8 (s.wcnt.toNat + 1) }
        (BitVec.ofNat 32 (s.cfg.maxPayload - (s.wcnt.toNat + 1)))) := by
  have count : s.wcnt + 1#8 = BitVec.ofNat 8 (s.wcnt.toNat + 1) := by
    rw [BitVec.ofNat_add, BitVec.ofNat_toNat, BitVec.setWidth_eq]
  have notFull : ¬ writerFull s = true := by simpa [writerFull] using room.ne
  rw [exec, execPWrite, opened_continues h0 _ ha, if_neg notFull, storing_of _ _ _ _ (payloadAddr_exists s.cfg _ room),
    respond_p_eq, count, respWord_space s.cfg _ hv room]

/-- Settles O24: no transaction, the bound reached, and room for the byte. -/
theorem pWriteResult : Obligations.PWriteResult := by
  unfold Obligations.PWriteResult
  intro b
  refine ⟨?_, fun s hv h0 _ => ⟨fun ha => ?_, fun ha bound => ?_, fun ha room => ?_⟩⟩
  · rw [encode_eq_or (.pWrite b) .pWrite rfl, Instr.operandBits, setWidth_zero_append]
    rfl
  · exact closed_protocol h0 _ ha
  · have full : writerFull s = true := by simpa [writerFull] using bound
    rw [exec, execPWrite, opened_continues h0 _ ha, if_pos full]
    rfl
  · have written := exec_pWrite_of_room b s hv h0 ha room
    obtain ⟨-, byteSized, -⟩ := hv
    exact ⟨_, written, by omega, memGet_memPut_same _ _ _,
      fun a other => memGet_memPut_other _ _ _ _ other, wf_memPut _ _ _⟩

/-- Where `WCNT` is in its range the space left is the difference (41_producer R124). -/
theorem spaceLeft_of_le (s : State) (h : s.wcnt.toNat ≤ s.cfg.maxPayload) :
    spaceLeft s = s.cfg.capacity - BitVec.ofNat 8 s.wcnt.toNat := by
  rw [spaceLeft, if_pos h, BitVec.ofNat_toNat, BitVec.setWidth_eq]

/-- Settles O25: the space left in an open transaction, and `PROTOCOL` outside one. -/
theorem pSpaceAnswers : Obligations.PSpaceAnswers := by
  unfold Obligations.PSpaceAnswers
  refine ⟨rfl, fun s hv h0 hw => ?_⟩
  by_cases ha : s.pAct = true
  · rw [if_pos ha, exec, execPSpace, opened_continues h0 _ ha, respond_p_eq, spaceLeft_of_le s hw, respWord_space s.cfg _ hv hw]
  · rw [if_neg ha]
    exact closed_protocol h0 _ (Bool.eq_false_iff.2 ha)

/-! ## `P_CANCEL` -/

/-- Settles O27: the transaction closed, and `PROTOCOL` outside one. -/
theorem pCancelResult : Obligations.PCancelResult := by
  unfold Obligations.PCancelResult
  refine ⟨rfl, fun s h0 => ?_⟩
  by_cases ha : s.pAct = true
  · rw [if_pos ha]
    exact opened_continues h0 _ ha
  · rw [if_neg ha]
    exact closed_protocol h0 _ (Bool.eq_false_iff.2 ha)

end Sys2Proof.Machine
end

section
/-! PROOFS. `P_COMMIT` (41_producer R125, R128, 20_memory R55): the header bytes and the pointer in one step, and under the
invariant the length and the bytes of the open transaction. -/

namespace Sys2Proof.Machine

/-! ## The header in the storage -/

/-- The storage with the two header bytes of a unit written (20_memory R51, 40_codec_split R101). -/
def withHeader (m : Memory) (llid : BitVec 2) (len : Byte) : Memory :=
  memPut (memPut m 0 (encodeHeader llid len).1) 1 (encodeHeader llid len).2

section Header

variable (m : Memory) (llid : BitVec 2) (len : Byte)

theorem memGet_withHeader_tag : memGet (withHeader m llid len) 0 = some (llid.setWidth 8) := by
  rw [withHeader, memGet_memPut_other _ _ _ _ (by decide), memGet_memPut_same, encodeHeader]

theorem memGet_withHeader_length : memGet (withHeader m llid len) 1 = some len :=
  memGet_memPut_same _ _ _

theorem memGet_withHeader_other (a : Nat) (h0 : a ≠ 0) (h1 : a ≠ 1) : memGet (withHeader m llid len) a = memGet m a := by
  rw [withHeader, memGet_memPut_other _ _ _ _ h1, memGet_memPut_other _ _ _ _ h0]

theorem wf_withHeader (h : Memory.wf m) : Memory.wf (withHeader m llid len) :=
  wf_memPut _ _ _ (wf_memPut _ _ _ h)

end Header

/-- The two header bytes are within the slot, so both writes go through. -/
theorem storing_header (s : State) (llid : BitVec 2) (len : Byte) (k : State → Result) :
    storing s 0 (encodeHeader llid len).1 (fun t => storing t 1 (encodeHeader llid len).2 k) =
      k { s with slot := withHeader s.slot llid len } := by
  obtain ⟨tag, length⟩ := header_exists s.cfg
  rw [storing_of s 0 _ _ tag]
  exact storing_of _ 1 _ k length

/-! ## The command -/

/-- 43_cdc_sync R182, with the sum in numbers. -/
theorem grayInc_eq_b2g_mod (w : Nat) (h8 : w ≤ 8) (g : Ptr) :
    grayInc w g = b2g (BitVec.ofNat 8 (((g2b w g).toNat + 1) % 2 ^ w)) := by
  have divides : 2 ^ w ∣ 2 ^ 8 := Nat.pow_dvd_pow 2 h8
  have sum : (g2b w g + 1#8).toNat % 2 ^ w = ((g2b w g).toNat + 1) % 2 ^ w := by
    rw [BitVec.toNat_add, BitVec.toNat_ofNat, Nat.mod_mod_of_dvd _ divides]
  rw [grayInc, and_ptrMask w h8, sum]

/-- A commit where port P sees the slot free: the header, the pointer, the closed transaction and the answer (41_producer R125). -/
theorem exec_pCommit_of_free (llid : BitVec 2) (s : State) (h0 : s.pFault = 0#3) (ha : s.pAct = true) (hf : fullP s = false) :
    exec (.pCommit llid) s =
      .next (answerP
        { s with
          slot := withHeader s.slot llid s.wcnt, pAct := false, wcnt := 0#8
          wptr := grayInc s.cfg.ptrW s.wptr }
        (s.wcnt.setWidth 32)) := by
  rw [exec, execPCommit, opened_continues h0 _ ha, hf, if_neg Bool.false_ne_true, storing_header, respond_p_eq, respWord_ok_lo]

/-- Settles O26: no transaction, a slot seen full, and a commit. -/
theorem pCommitResult : Obligations.PCommitResult := by
  unfold Obligations.PCommitResult
  intro llid
  refine ⟨?_, fun s hv h0 => ⟨fun ha => ?_, fun ha hf => ?_, fun ha hf => ?_⟩⟩
  · rw [encode_eq_or (.pCommit llid) .pCommit rfl, Instr.operandBits, setWidth_operand_l]
    rfl
  · exact closed_protocol h0 _ ha
  · rw [exec, execPCommit, opened_continues h0 _ ha, if_pos hf, raiseFault_p_of_unfaulted .invEnqueue s h0]
    rfl
  · obtain ⟨-, -, -, h8, -⟩ := hv
    refine ⟨withHeader s.slot llid s.wcnt, ?_, ?_, memGet_withHeader_length _ _ _, memGet_withHeader_other _ _ _,
      wf_withHeader _ _ _⟩
    · rw [exec_pCommit_of_free llid s h0 ha hf, grayInc_eq_b2g_mod _ h8]
    · have tag : llid.setWidth 8 = 0#6 ++ llid := BitVec.setWidth_eq_append (by decide)
      rw [memGet_withHeader_tag, tag]

/-! ## What a commit publishes -/

/-- While port P has a transaction open it sees the slot free (43_cdc_sync R191 (ii)). -/
theorem Invariant.free {s : State} (h : Invariant s) (ha : s.pAct = true) : fullP s = false := by
  obtain ⟨wqc, rqc, counts⟩ := h.counts
  have noUnit : wc s = rqc.getLastD (rc s) := counts.pAct ha
  rw [← Bool.not_eq_true, counts.fullP_iff h.wf.cfg, not_not]
  exact noUnit

/-- 41_producer R128: with `WCNT` as the length, the header turns the bytes written in the open transaction into a unit. -/
theorem StorageHolds.holdsPdu_withHeader {s : State} (h : StorageHolds s) (llid : BitVec 2) :
    HoldsPdu (withHeader s.slot llid s.wcnt) { llid := llid, payload := (producerView s.hostP).writing } where
  tag := memGet_withHeader_tag _ _ _
  length := by rw [memGet_withHeader_length, h.writing, BitVec.ofNat_toNat, BitVec.setWidth_eq]
  bytes k v hk := by
    have payload : Config.hdrBytes + k ≠ 0 ∧ Config.hdrBytes + k ≠ 1 := by
      rw [Config.hdrBytes]
      omega
    rw [memGet_withHeader_other _ _ _ _ payload.1 payload.2]
    exact h.written k v hk

/-- Settles O50: the commit goes through, and `WCNT` is the number of bytes written. -/
theorem measuredLength : Obligations.MeasuredLength := by
  unfold Obligations.MeasuredLength
  intro s llid inv h0 ha
  have count := inv.storage.writing
  exact ⟨_, exec_pCommit_of_free llid s h0 ha (inv.free ha), inv.storage.holdsPdu_withHeader llid,
    count.trans_le inv.wf.wcntRange, count⟩

end Sys2Proof.Machine
end

section
/-! PROOFS. The consumer commands on a port C without a fault (42_consumer R151 to R154, R159): each check in its order, and the
whole next state. -/

namespace Sys2Proof.Machine

/-! ## The checks the commands share -/

/-- 60_exceptions R205 on a port C without a fault: the code is recorded. -/
theorem raiseFault_c_of_unfaulted (code : FaultCode) (s : State) (h0 : s.cFault = 0#3) :
    raiseFault .c code s = .next (answerC { s with cFault := code.code } 0xE0000000#32) := by
  rw [raiseFault_c, if_pos h0]
  rfl

section Unfaulted

variable {s : State} (h0 : s.cFault = 0#3)

include h0

/-- A consumer command that finds no transaction open where it wants one faults `PROTOCOL` (60_exceptions R209). -/
theorem consumerClosed_protocol (body : Result) (ha : s.cAct = false) :
    unlessFaulted .c s (if !s.cAct then raiseFault .c .protocol s else body) =
      .next (answerC { s with cFault := 4#3 } 0xE0000000#32) := by
  rw [unlessFaulted_of .c s _ h0, if_pos (by rw [ha, Bool.not_false]), raiseFault_c_of_unfaulted .protocol s h0]
  rfl

/-- A consumer command that finds a transaction open where it wants one goes on. -/
theorem consumerOpened_continues (body : Result) (ha : s.cAct = true) :
    unlessFaulted .c s (if !s.cAct then raiseFault .c .protocol s else body) = body := by
  rw [unlessFaulted_of .c s _ h0, if_neg (by rw [ha, Bool.not_true]; exact Bool.false_ne_true)]

end Unfaulted

/-! ## `C_HASDATA` and `C_PEEK` -/

/-- Settles O28: the two answers, by `EMPTY_C`. -/
theorem cHasdataAnswers : Obligations.CHasdataAnswers := by
  unfold Obligations.CHasdataAnswers
  refine ⟨rfl, fun s h0 => ?_⟩
  rw [exec, execCHasdata, unlessFaulted_of .c s _ h0]
  split <;> rfl

/-- Where the header bytes hold values, C_PEEK decides by the length alone (42_consumer R152, 40_codec_split R104). -/
theorem exec_cPeek_of_header (s : State) (b0 b1 : Byte) (h0 : s.cFault = 0#3) (ha : s.cAct = false) (he : emptyC s = false)
    (g0 : memGet s.slot 0 = some b0) (g1 : memGet s.slot 1 = some b1) :
    exec .cPeek s =
      if s.cfg.maxPayload < b1.toNat then .next (answerC s 0x50000000#32)
      else .next (answerC { s with cAct := true, cLen := b1 } (respWord .ok (0#6 ++ b0.extractLsb' 0 2) b1)) := by
  obtain ⟨tag, length⟩ := header_exists s.cfg
  have shown : (decodeHeader b0 b1).llid.setWidth 8 = 0#6 ++ b0.extractLsb' 0 2 := by
    rw [decodeHeader_llid]
    exact BitVec.setWidth_eq_append (by decide)
  rw [exec_cPeek_of_data s h0 ha he, withByte_of s 0 b0 _ tag g0, withByte_of s 1 b1 _ length g1, openConsume, shown]
  rfl

/-- Settles O29: a transaction already open, no unit seen, and the header of a unit. -/
theorem cPeekResult : Obligations.CPeekResult := by
  unfold Obligations.CPeekResult
  refine ⟨rfl, fun s h0 => ⟨fun ha => ?_, fun ha he => ?_, fun b0 b1 => exec_cPeek_of_header s b0 b1 h0⟩⟩
  · rw [exec, execCPeek, unlessFaulted_of .c s _ h0, if_pos ha, raiseFault_c_of_unfaulted .protocol s h0]
    rfl
  · rw [exec, execCPeek, unlessFaulted_of .c s _ h0, if_neg (Bool.eq_false_iff.1 ha), if_pos he]
    rfl

/-! ## `C_READ` -/

/-- A read within the length of a byte that holds a value (42_consumer R153). -/
theorem exec_cRead_of_byte (i v : Byte) (s : State) (h0 : s.cFault = 0#3) (ha : s.cAct = true) (hl : i.toNat < s.cLen.toNat)
    (hi : payloadAddr i < s.cfg.slotBytes) (hv : memGet s.slot (payloadAddr i) = some v) :
    exec (.cRead i) s = .next (answerC s (respWord .ok 0#8 v)) := by
  rw [exec_cRead_of_open s i h0 ha hl, withByte_of s _ v _ hi hv, respond_c_eq]

/-- Settles O30: no transaction, an offset past the length, and a byte of the payload. -/
theorem cReadResult : Obligations.CReadResult := by
  unfold Obligations.CReadResult
  intro i
  refine ⟨?_, fun s h0 => ⟨fun ha => ?_, fun ha past => ?_, fun v ha hl hi hv => ?_⟩⟩
  · rw [encode_eq_or (.cRead i) .cRead rfl, Instr.operandBits, setWidth_zero_append]
    rfl
  · exact consumerClosed_protocol h0 _ ha
  · rw [exec, execCRead, consumerOpened_continues h0 _ ha, if_pos (BitVec.le_def.2 past)]
    rfl
  · rw [exec_cRead_of_byte i v s h0 ha hl (payloadAddr_exists s.cfg i hi) hv, respWord_ok_lo]

/-! ## `C_RELEASE` -/

/-- A removal where port C sees the unit: the pointer, the closed transaction and the answer (42_consumer R154). -/
theorem exec_cRelease_of_data (s : State) (h0 : s.cFault = 0#3) (ha : s.cAct = true) (he : emptyC s = false) :
    exec (.cRelease true) s =
      .next (answerC { s with cAct := false, cLen := 0#8, rptr := grayInc s.cfg.ptrW s.rptr } 1#32) := by
  rw [exec, execCRelease, consumerOpened_continues h0 _ ha, he, if_neg (by decide), if_pos rfl]
  rfl

/-- Settles O31: no transaction, a queue seen empty, the removal and the keep. -/
theorem cReleaseResult : Obligations.CReleaseResult := by
  unfold Obligations.CReleaseResult
  refine ⟨rfl, rfl, fun s hv h0 => ⟨fun f ha => ?_, fun ha he => ?_, fun ha he => ?_, fun ha => ?_⟩⟩
  · exact consumerClosed_protocol h0 _ ha
  · rw [exec, execCRelease, consumerOpened_continues h0 _ ha, he, if_pos rfl, raiseFault_c_of_unfaulted .invDequeue s h0]
    rfl
  · obtain ⟨-, -, -, h8, -⟩ := hv
    rw [exec_cRelease_of_data s h0 ha he, grayInc_eq_b2g_mod _ h8]
  · rw [exec, execCRelease, consumerOpened_continues h0 _ ha, Bool.false_and, if_neg Bool.false_ne_true,
      if_neg Bool.false_ne_true]
    rfl

/-! ## After a removal -/

theorem lastResponse_answerC (s : State) (r : Response) : lastResponse .c (answerC s r) = some r := by
  simp [lastResponse, answerC]

/-- While port C has a transaction open it sees the pointer one past its own (43_cdc_sync R191 (iii)). -/
theorem Invariant.wsync_of_open {s : State} (h : Invariant s) (ha : s.cAct = true) : wsync s = grayInc s.cfg.ptrW s.rptr := by
  obtain ⟨wqc, rqc, counts⟩ := h.counts
  obtain ⟨-, -, h1, h8, -⟩ := h.wf.cfg
  rw [counts.wsync_eq, counts.cAct ha, counts.rptr, grayInc_grayOf _ _ h1 h8]

/-- `EMPTY_C` is set where port C sees its own pointer (43_cdc_sync R187). -/
theorem emptyC_of_wsync_eq (s : State) (h : wsync s = s.rptr) : emptyC s = true := by
  rw [emptyC, h, ptrDiff_self, decide_eq_true rfl]

/-- Settles O54: the removal goes through, and moves `RPTR` to the pointer port C sees. -/
theorem emptyAtOnce : Obligations.EmptyAtOnce := by
  unfold Obligations.EmptyAtOnce
  intro s inv h0 ha
  obtain ⟨-, -, -, he, -⟩ := inv.consuming (.inr ha)
  exact ⟨_, exec_cRelease_of_data s h0 ha he, lastResponse_answerC _ _, emptyC_of_wsync_eq _ (inv.wsync_of_open ha)⟩

end Sys2Proof.Machine
end

section
/-! PROOFS. What port C shows of a unit stays the same until its removal (42_consumer R156): the storage does, and so does the
length an open transaction works with. -/

namespace Sys2Proof.Machine

/-! ## The length of an open transaction -/

/-- In an open transaction `C_LEN` is the length byte of the slot (43_cdc_sync R191 (iii)). -/
def LengthHeld (s : State) : Prop := s.cAct = true → memGet s.slot 1 = some s.cLen

theorem LengthHeld.of_same {s t : State} (h : LengthHeld s) (cAct : t.cAct = s.cAct) (cLen : t.cLen = s.cLen)
    (slot : t.slot = s.slot) : LengthHeld t := by
  rwa [LengthHeld, cAct, cLen, slot]

/-- A consumer command that opens a transaction takes the length byte, and one that closes it leaves nothing to hold. -/
theorem ConsumerEffect.lengthHeld {s t : State} {i : Instr} (e : ConsumerEffect s i t) (h : LengthHeld s) : LengthHeld t := by
  cases e with
  | faulted => exact h.of_same (by simp) (by simp) (by simp)
  | opened _ _ _ _ _ _ g1 => exact fun _ => g1
  | removed => exact nofun
  | kept => exact nofun
  | _ => exact h.of_same rfl rfl rfl

/-- While port P is closed every step keeps the length held, since the storage does not change. -/
theorem LengthHeld.step {s t : State} (hl : LengthHeld s) (h : step s = .next t) (closed : s.pAct = false) : LengthHeld t := by
  have slot := step_slot_of_closed s t h closed
  cases step_effect s t h with
  | illegal => exact hl.of_same (by simp) (by simp) slot
  | command port a rest _ hs ha w i hw hd hx =>
    have hp := decode_port port w i hd
    cases port with
    | p =>
      obtain ⟨-, ⟨-, -, cAct, cLen, -⟩, -, -⟩ := (exec_producer i _ t hp hx).keeps
      exact hl.of_same cAct cLen slot
    | c => exact (exec_consumer i _ t hp hx).lengthHeld (hl.of_same rfl rfl rfl)
  | _ => exact hl.of_same rfl rfl rfl

/-! ## Runs without a removal -/

/-- What every step from a state with a visible unit keeps holds along a run that does not remove it. -/
theorem Visible.run_keeps {P : State → Prop} (keeps : ∀ a b, Visible a → P a → Machine.step a = .next b → P b)
    {s u : State} (k : Nat) (v : Visible s) (hwf : WellFormed s) (hP : P s) (h : Host.Core.run core k s = .next u)
    (hrc : rc u = rc s) : P u := by
  induction k generalizing s with
  | zero => cases h; exact hP
  | succ k ih =>
    obtain ⟨t, hst, htu⟩ := run_succ s u k h
    have hwft := wellFormedKept s t hwf hst
    have later := rc_mono_run t u k hwft htu
    obtain ⟨hr, same⟩ := (step_removal s t hst hwf.hostC).resolve_right (by omega)
    exact ih (v.step hst hr).1 hwft (keeps s t v hP hst) htu (hrc.trans same.symm)

/-- Along a run that does not remove a visible unit the build and the held length stay. -/
theorem Visible.run_length {s u : State} (k : Nat) (v : Visible s) (hwf : WellFormed s) (hl : LengthHeld s)
    (h : Host.Core.run core k s = .next u) (hrc : rc u = rc s) : u.cfg = s.cfg ∧ LengthHeld u := by
  refine v.run_keeps (P := fun t => t.cfg = s.cfg ∧ LengthHeld t) ?_ k hwf ⟨rfl, hl⟩ h hrc
  rintro a b va ⟨hcfg, held⟩ hab
  exact ⟨(singleWriter a b hab).1.trans hcfg, held.step hab va.pAct⟩

/-! ## Peeks and reads -/

/-- The unit port C sees has a header whose length passes the check of C_PEEK (40_codec_split R104). -/
theorem Invariant.legalHeader {s : State} (h : Invariant s) (he : emptyC s = false) :
    ∃ b0 b1, memGet s.slot 0 = some b0 ∧ memGet s.slot 1 = some b1 ∧ b1.toNat ≤ s.cfg.maxPayload := by
  obtain ⟨pdu, held, fits⟩ := h.unit (.inl he)
  refine ⟨_, _, held.tag, held.length, le_trans ?_ fits⟩
  rw [BitVec.toNat_ofNat]
  exact Nat.mod_le _ _

/-- C_PEEK of a unit with a legal length opens the transaction and shows the header (42_consumer R152). -/
theorem exec_cPeek_of_legal (s : State) (b0 b1 : Byte) (h0 : s.cFault = 0#3) (ha : s.cAct = false) (he : emptyC s = false)
    (g0 : memGet s.slot 0 = some b0) (g1 : memGet s.slot 1 = some b1) (fits : b1.toNat ≤ s.cfg.maxPayload) :
    exec .cPeek s = .next (answerC { s with cAct := true, cLen := b1 } (respWord .ok (0#6 ++ b0.extractLsb' 0 2) b1)) := by
  rw [exec_cPeek_of_header s b0 b1 h0 ha he g0 g1, if_neg (Nat.not_lt.2 fits)]

/-- Settles O53: between the two states the storage, the build and the length stay, and a header or a byte shown is computed
from these. -/
theorem nonDestructivePeek : Obligations.NonDestructivePeek := by
  unfold Obligations.NonDestructivePeek
  intro s u k inv he hrun hrc hs hu
  have visible := inv.visible he
  obtain ⟨stillVisible, slot, -⟩ := visible.run k inv.wf hrun hrc
  obtain ⟨cfg, held⟩ := visible.run_length k inv.wf inv.storage.peeked hrun hrc
  constructor
  · intro closed closed'
    obtain ⟨b0, b1, g0, g1, fits⟩ := inv.legalHeader he
    have first := exec_cPeek_of_legal s b0 b1 hs closed he g0 g1 fits
    have second := exec_cPeek_of_legal u b0 b1 hu closed' stillVisible.data (by rwa [slot]) (by rwa [slot]) (by rwa [cfg])
    exact ⟨_, _, _, first, second, rspCode_respWord _ _ _, lastResponse_answerC _ _, lastResponse_answerC _ _⟩
  · intro opened opened'
    have length : memGet s.slot 1 = some u.cLen := slot ▸ held opened'
    have same : u.cLen = s.cLen := Option.some.inj (length.symm.trans (inv.storage.peeked opened))
    refine ⟨same, fun i hi => ?_⟩
    obtain ⟨inside, v, hv⟩ := inv.readable.payload opened i hi
    have first := exec_cRead_of_byte i v s hs opened hi inside hv
    have second := exec_cRead_of_byte i v u hu opened' (by rwa [same]) (by rwa [cfg]) (by rwa [slot])
    exact ⟨_, _, _, first, second, rspCode_respWord _ _ _, lastResponse_answerC _ _, lastResponse_answerC _ _⟩

end Sys2Proof.Machine
end

section
/-! PROOFS. What a step adds to each port's registers and log. `ProducerMove` and `ConsumerMove` say how the registers, the storage
and what the log adds up to move together (41_producer R128, 43_cdc_sync R190): the invariant is kept move by move. -/

namespace Sys2Proof.Machine

/-! ## The producer's moves -/

/-- What a step does on the producer's side: nothing, the transaction opened or cancelled, one byte, or one unit. -/
inductive ProducerMove (s t : State) : Prop where
  | stays (h : ProducerStays s t)
  | cleared (wptr : t.wptr = s.wptr) (free : t.pAct = true → fullP s = false) (wcnt : t.wcnt = 0#8) (slot : t.slot = s.slot)
      (view : producerView t.hostP = { writing := [], committed := (producerView s.hostP).committed })
  | wrote (b : Byte) (opened : s.pAct = true) (room : s.wcnt.toNat < s.cfg.maxPayload) (wptr : t.wptr = s.wptr)
      (wcnt : t.wcnt = s.wcnt + 1#8) (slot : t.slot = memPut s.slot (payloadAddr s.wcnt) b)
      (view : producerView t.hostP =
        { writing := (producerView s.hostP).writing ++ [b], committed := (producerView s.hostP).committed })
  | committed (llid : BitVec 2) (opened : s.pAct = true) (wptr : t.wptr = grayInc s.cfg.ptrW s.wptr) (closed : t.pAct = false)
      (wcnt : t.wcnt = 0#8) (slot : t.slot = withHeader s.slot llid s.wcnt)
      (view : producerView t.hostP =
        { writing := []
          committed := (producerView s.hostP).committed ++ [{ llid := llid, payload := (producerView s.hostP).writing }] })

/-- A producer command's end is a move; only an answer of `OK` counts in the log. -/
theorem ProducerEffect.move {s u t : State} {i : Instr} (e : ProducerEffect u i t) (hc : TakesCommand .p s i u)
    (hwf : s.hostP.Wf) : ProducerMove s t := by
  have answer := hc.producerView hwf
  have full := hc.fullP
  obtain ⟨rest, w, -, -, rfl⟩ := hc
  cases e with
  | turnedAway i c hrc => exact .stays ⟨rfl, rfl, rfl, rfl, fun _ => (answer c 0#8 0#8).trans (if_neg hrc)⟩
  | faulted i code => exact .stays ⟨by simp, by simp, by simp, by simp, fun _ => by simpa using answer .fault 0#8 0#8⟩
  | query i hq hi lo => exact .stays ⟨rfl, rfl, rfl, rfl, fun _ => (answer .ok hi lo).trans (ProducerView.see_query _ i _ hq)⟩
  | opened n h0 ha hn free => exact .cleared rfl (fun _ => full.symm.trans free) rfl rfl (answer .ok _ _)
  | wrote b h0 ha room => exact .wrote b ha room rfl rfl rfl (answer .ok _ _)
  | committed llid h0 ha => exact .committed llid ha rfl rfl rfl rfl (answer .ok _ _)
  | cancelled => exact .cleared rfl nofun rfl rfl (answer .ok _ _)

theorem StepEffect.producerMove {s t : State} (e : StepEffect s t) (hwf : s.hostP.Wf) : ProducerMove s t := by
  rcases e.producerSide with stays | ⟨u, i, hc, e⟩
  · exact .stays stays
  · exact e.move hc hwf

/-! ## The consumer's moves -/

/-- `RPTR`, the transaction and the consumer's log are as they were; a fault may have been recorded. -/
structure ConsumerStays (s t : State) : Prop where
  rptr : t.rptr = s.rptr
  cAct : t.cAct = s.cAct
  cLen : t.cLen = s.cLen
  view : consumerView t.hostC = consumerView s.hostC

/-- What a step does on the consumer's side: nothing, a header shown, a byte shown, a unit kept, or a unit removed. -/
inductive ConsumerMove (s t : State) : Prop where
  | stays (h : ConsumerStays s t)
  | opened (b0 b1 : Byte) (data : emptyC s = false) (tag : memGet s.slot 0 = some b0) (length : memGet s.slot 1 = some b1)
      (rptr : t.rptr = s.rptr) (cLen : t.cLen = b1)
      (view : consumerView t.hostC =
        { removed := rc s, seen := (consumerView s.hostC).seen ++ [(rc s, .header ((b0.setWidth 2).setWidth 8) b1)] })
  | read (i v : Byte) (opened : s.cAct = true) (inside : i.toNat < s.cLen.toNat)
      (byte : memGet s.slot (payloadAddr i) = some v) (rptr : t.rptr = s.rptr) (cAct : t.cAct = s.cAct) (cLen : t.cLen = s.cLen)
      (view : consumerView t.hostC =
        { removed := rc s, seen := (consumerView s.hostC).seen ++ [(rc s, .byte i v)] })
  | kept (rptr : t.rptr = s.rptr) (closed : t.cAct = false) (view : consumerView t.hostC = consumerView s.hostC)
  | removed (opened : s.cAct = true) (rptr : t.rptr = grayInc s.cfg.ptrW s.rptr) (closed : t.cAct = false)
      (view : consumerView t.hostC = { removed := rc s + 1, seen := (consumerView s.hostC).seen })

/-- A consumer command's end is a move; only an answer of `OK` counts in the log. -/
theorem ConsumerEffect.move {s u t : State} {i : Instr} (e : ConsumerEffect u i t) (hc : TakesCommand .c s i u)
    (hwf : s.hostC.Wf) : ConsumerMove s t := by
  have answer := hc.consumerView hwf
  have empty := hc.emptyC
  obtain ⟨rest, w, -, -, rfl⟩ := hc
  cases e with
  | turnedAway i c hrc => exact .stays ⟨rfl, rfl, rfl, (answer c 0#8 0#8).trans (if_neg hrc)⟩
  | faulted i code => exact .stays ⟨by simp, by simp, by simp, by simpa using answer .fault 0#8 0#8⟩
  | query i hq hi lo => exact .stays ⟨rfl, rfl, rfl, (answer .ok hi lo).trans (by rcases hq with rfl | rfl <;> rfl)⟩
  | opened h0 ha data b0 b1 g0 g1 =>
    refine .opened b0 b1 (empty.symm.trans data) g0 g1 rfl rfl ((answer .ok _ _).trans ?_)
    rw [if_pos rfl, ConsumerView.see, rspHi_respWord, rspLo_respWord]
    rfl
  | read i v h0 ha inside byte =>
    refine .read i v ha inside byte rfl rfl rfl ((answer .ok _ _).trans ?_)
    rw [if_pos rfl, ConsumerView.see, rspLo_respWord]
    rfl
  | removed h0 ha => exact .removed ha rfl rfl (answer .ok _ _)
  | kept => exact .kept rfl rfl (answer .ok _ _)

theorem StepEffect.consumerMove {s t : State} (e : StepEffect s t) (hwf : s.hostC.Wf) : ConsumerMove s t := by
  cases e with
  | illegal port a rest hs ha w e hw hd =>
    cases port with
    | p => exact .stays ⟨by simp, by simp, by simp, by simp⟩
    | c =>
      refine .stays ⟨by simp, by simp, by simp, ?_⟩
      simp only [respond_c_hostC, recordFault_hostC]
      exact consumerView_push_none s.hostC w _ hwf hw (acceptedAt_illegal .c w e _ hd)
  | command port a rest t hs ha w i hw hd hx =>
    have hp := decode_port port w i hd
    cases port with
    | p =>
      obtain ⟨-, ⟨rptr, -, cAct, cLen, -⟩, -, hostC⟩ := (exec_producer i _ t hp hx).keeps
      exact .stays ⟨rptr, cAct, cLen, by rw [hostC]; rfl⟩
    | c => exact (exec_consumer i _ t hp hx).move ⟨rest, w, hw, hd, rfl⟩ hwf
  | _ => exact .stays ⟨rfl, rfl, rfl, rfl⟩

end Sys2Proof.Machine
end

section
/-! PROOFS. Every step keeps the invariant (43_cdc_sync R191, R194). The counts, the storage and the order are kept one after the
other, by each move of a port and by each synchroniser's shift. -/

namespace Sys2Proof.Machine

/-! ## The counts, by a port's move -/

section Counts

variable {s t : State} {wqc rqc : List Nat}

theorem ConsumerKeeps.wc_eq (k : ConsumerKeeps s t) : wc t = wc s := by rw [wc, k.hostP, ← wc]

theorem ProducerKeeps.rc_eq (k : ProducerKeeps s t) : rc t = rc s := by rw [rc, k.hostC, ← rc]

/-- A turn of PortP that commits nothing owes R191 (ii) where it opens the transaction. -/
theorem CountsHold.of_producerKeeps (h : CountsHold s wqc rqc) (k : ProducerKeeps s t) (wptr : t.wptr = s.wptr)
    (commits : wc t = wc s) (pAct : t.pAct = true → wc s = rqc.getLastD (rc s)) : CountsHold t wqc rqc := by
  have removals : rc t = rc s := k.rc_eq
  obtain ⟨cfg, ⟨rptr, wq, cAct, -, -⟩, rq, -⟩ := k
  constructor <;> simp only [cfg, wptr, rptr, wq, rq, cAct, commits, removals]
  exacts [h.wptr, h.rptr, h.wq, h.rq, h.order, h.window, pAct, h.cAct]

/-- A turn of PortC that removes nothing owes R191 (iii) where it opens the transaction. -/
theorem CountsHold.of_consumerKeeps (h : CountsHold s wqc rqc) (k : ConsumerKeeps s t) (rptr : t.rptr = s.rptr)
    (removals : rc t = rc s) (cAct : t.cAct = true → wqc.getLastD (wc s) = rc s + 1) : CountsHold t wqc rqc := by
  have commits : wc t = wc s := k.wc_eq
  obtain ⟨cfg, ⟨wptr, rq, pAct, -, -⟩, wq, -, -⟩ := k
  constructor <;> simp only [cfg, wptr, rptr, wq, rq, pAct, commits, removals]
  exacts [h.wptr, h.rptr, h.wq, h.rq, h.order, h.window, h.pAct, cAct]

/-- A commit comes with the window of R191 (i) closed, by (ii), and opens it by one. -/
theorem CountsHold.commit (h : CountsHold s wqc rqc) (hv : s.cfg.Valid) (k : ProducerKeeps s t) (opened : s.pAct = true)
    (wptr : t.wptr = grayInc s.cfg.ptrW s.wptr) (closed : t.pAct = false) (commits : wc t = wc s + 1) : CountsHold t wqc rqc := by
  obtain ⟨-, -, h1, h8, -⟩ := hv
  have shut := h.pAct opened
  obtain ⟨hr, hrw, hw, -⟩ := h.views
  have removals : rc t = rc s := k.rc_eq
  obtain ⟨cfg, ⟨rptr, wq, cAct, -, -⟩, rq, -⟩ := k
  constructor <;> simp only [cfg, rptr, wq, rq, cAct, commits, removals]
  case wptr => rw [wptr, h.wptr, grayInc_grayOf _ _ h1 h8]
  case order =>
    obtain ⟨below, rest⟩ := List.pairwise_cons.1 h.order
    exact List.pairwise_cons.2 ⟨fun x hx => Nat.le_succ_of_le (below x hx), rest⟩
  case window => omega
  case pAct => exact fun ha => absurd (closed.symm.trans ha) (by decide)
  case cAct =>
    intro ha
    have := h.cAct ha
    omega
  exacts [h.rptr, h.wq, h.rq]

theorem getLastD_mono (l : List Nat) {m n : Nat} (h : m ≤ n) : l.getLastD m ≤ l.getLastD n := by
  cases l with
  | nil => exact h
  | cons x l => simp only [List.getLastD_cons, le_refl]

/-- A removal comes with every stage of `WQ` past `rc`, by R191 (iii), so `rc` may move up. -/
theorem CountsHold.remove (h : CountsHold s wqc rqc) (hv : s.cfg.Valid) (k : ConsumerKeeps s t) (opened : s.cAct = true)
    (rptr : t.rptr = grayInc s.cfg.ptrW s.rptr) (closed : t.cAct = false) (removals : rc t = rc s + 1) : CountsHold t wqc rqc := by
  obtain ⟨-, -, h1, h8, -⟩ := hv
  have seen := h.cAct opened
  obtain ⟨hr, hrw, hw, hwin⟩ := h.views
  have commits : wc t = wc s := k.wc_eq
  obtain ⟨cfg, ⟨wptr, rq, pAct, -, -⟩, wq, -, -⟩ := k
  constructor <;> simp only [cfg, wptr, wq, rq, pAct, commits, removals]
  case rptr => rw [rptr, h.rptr, grayInc_grayOf _ _ h1 h8]
  case order =>
    obtain ⟨falling, removed, across⟩ := h.order_split
    obtain ⟨below, rest⟩ := List.pairwise_cons.1 removed
    have past : ∀ x ∈ wc s :: wqc, rc s + 1 ≤ x := seen ▸ getLastD_le_of_mem wqc (wc s) falling
    refine (List.pairwise_append (l₁ := wc s :: wqc)).2
      ⟨falling, List.pairwise_cons.2 ⟨fun y hy => Nat.le_succ_of_le (below y hy), rest⟩, fun x hx y hy => ?_⟩
    rcases List.mem_cons.1 hy with rfl | hy
    · exact past x hx
    · exact across x hx y (List.mem_cons_of_mem _ hy)
  case window => exact h.window.trans (Nat.succ_le_succ (getLastD_mono rqc (Nat.le_succ _)))
  case pAct =>
    intro ha
    have := h.pAct ha
    omega
  case cAct => exact fun ha => absurd (closed.symm.trans ha) (by decide)
  exacts [h.wptr, h.wq, h.rq]

theorem CountsHold.producerMove (h : CountsHold s wqc rqc) (hv : s.cfg.Valid) (hwf : s.hostP.Wf) (k : ProducerKeeps s t)
    (m : ProducerMove s t) : CountsHold t wqc rqc := by
  cases m with
  | stays m => exact h.of_producerKeeps k m.wptr (by rw [wc, m.view hwf, ← wc]) fun ha => h.pAct (m.pAct ▸ ha)
  | cleared wptr free _ _ view =>
    refine h.of_producerKeeps k wptr (by rw [wc, view, ← wc]) fun ha => ?_
    by_contra ne
    exact absurd ((h.fullP_iff hv).2 ne) (by simp [free ha])
  | wrote b opened _ wptr _ _ view =>
    exact h.of_producerKeeps k wptr (by rw [wc, view, ← wc]) fun _ => h.pAct opened
  | committed llid opened wptr closed _ _ view =>
    exact h.commit hv k opened wptr closed (by rw [wc, view, List.length_append, ← wc]; rfl)

theorem CountsHold.consumerMove (h : CountsHold s wqc rqc) (hv : s.cfg.Valid) (k : ConsumerKeeps s t)
    (m : ConsumerMove s t) : CountsHold t wqc rqc := by
  cases m with
  | stays m => exact h.of_consumerKeeps k m.rptr (by rw [rc, m.view, ← rc]) fun ha => h.cAct (m.cAct ▸ ha)
  | opened b0 b1 data _ _ rptr _ view =>
    refine h.of_consumerKeeps k rptr (by rw [rc, view]) fun _ => ?_
    have behind := mt (h.emptyC_iff hv).2 (by simp [data])
    obtain ⟨hr, hrw, hw, hwin⟩ := h.views
    omega
  | read i v opened _ _ rptr _ _ view => exact h.of_consumerKeeps k rptr (by rw [rc, view]) fun _ => h.cAct opened
  | kept rptr closed view =>
    exact h.of_consumerKeeps k rptr (by rw [rc, view, ← rc]) fun ha => absurd (closed.symm.trans ha) (by decide)
  | removed opened rptr closed view => exact h.remove hv k opened rptr closed (by rw [rc, view])

/-! ## The counts, by a shift -/

/-- A shift takes its values from the stages and the count it samples. -/
theorem mem_shift {l : List Nat} {n x : Nat} (h : x ∈ n :: (n :: l).dropLast) : x ∈ n :: l := by
  rcases List.mem_cons.1 h with rfl | h
  · exact List.mem_cons_self
  · exact List.mem_of_mem_dropLast h

/-- A shift of falling counts falls. -/
theorem falling_shift {l : List Nat} {n : Nat} (h : (n :: l).Pairwise (fun x y => y ≤ x)) :
    (n :: (n :: l).dropLast).Pairwise (fun x y => y ≤ x) := by
  refine List.pairwise_cons.2 ⟨fun x hx => ?_, h.sublist (List.dropLast_sublist _)⟩
  rcases List.mem_cons.1 (List.mem_of_mem_dropLast hx) with rfl | hx
  · exact le_rfl
  · exact (List.pairwise_cons.1 h).1 x hx

/-- After a shift the last stage is one of the counts that were there, so no less than the last was. -/
theorem getLastD_shift {l : List Nat} {n : Nat} (h : (n :: l).Pairwise (fun x y => y ≤ x)) :
    l.getLastD n ≤ (n :: l).dropLast.getLastD n ∧ (n :: l).dropLast.getLastD n ≤ n := by
  have last := mem_shift (List.getLastD_mem_cons (l := (n :: l).dropLast) (a := n))
  refine ⟨getLastD_le_of_mem l n h _ last, ?_⟩
  rcases List.mem_cons.1 last with e | last
  · exact e.le
  · exact (List.pairwise_cons.1 h).1 _ last

theorem CountsHold.syncW (h : CountsHold s wqc rqc) : CountsHold (syncW s) (wc s :: wqc).dropLast rqc := by
  obtain ⟨falling, removed, across⟩ := h.order_split
  obtain ⟨hr, hrw, hw, hwin⟩ := h.views
  refine { h with wq := ?_, order := ?_, cAct := fun ha => ?_ }
  · rw [syncW_wq, h.wptr, h.wq, shiftChain_map]
    rfl
  · exact (List.pairwise_append (l₁ := wc s :: _)).2 ⟨falling_shift falling, removed, fun x hx => across x (mem_shift hx)⟩
  · have seen : wqc.getLastD (wc s) = rc s + 1 := h.cAct ha
    have between := getLastD_shift falling
    show (wc s :: wqc).dropLast.getLastD (wc s) = rc s + 1
    omega

theorem CountsHold.syncR (h : CountsHold s wqc rqc) : CountsHold (syncR s) wqc (rc s :: rqc).dropLast := by
  obtain ⟨falling, removed, across⟩ := h.order_split
  obtain ⟨hr, hrw, hw, hwin⟩ := h.views
  have between := getLastD_shift removed
  refine { h with rq := ?_, order := ?_, window := ?_, pAct := fun ha => ?_ }
  · rw [syncR_rq, h.rptr, h.rq, shiftChain_map]
    rfl
  · exact (List.pairwise_append (l₁ := wc s :: wqc)).2
      ⟨falling, falling_shift removed, fun x hx y hy => across x hx y (mem_shift hy)⟩
  · show wc s ≤ (rc s :: rqc).dropLast.getLastD (rc s) + 1
    omega
  · have shut : wc s = rqc.getLastD (rc s) := h.pAct ha
    show wc s = (rc s :: rqc).dropLast.getLastD (rc s)
    omega

end Counts

/-! ## The storage -/

section Storage

variable {s t : State}

/-- A turn of PortC that removes nothing owes the length byte where it opens the transaction. -/
theorem StorageHolds.of_consumerKeeps (h : StorageHolds s) (k : ConsumerKeeps s t) (removals : rc t = rc s)
    (peeked : t.cAct = true → memGet s.slot 1 = some t.cLen) : StorageHolds t := by
  have commits : wc t = wc s := k.wc_eq
  obtain ⟨cfg, ⟨-, -, -, wcnt, -⟩, -, slot, hostP⟩ := k
  constructor <;> simp only [cfg, wcnt, slot, hostP, commits, removals]
  exacts [h.writing, h.written, h.lengths, h.current, peeked]

/-- A turn of PortP that leaves the storage and commits nothing owes the bytes of the open transaction. -/
theorem StorageHolds.of_producerKeeps (h : StorageHolds s) (k : ProducerKeeps s t) (slot : t.slot = s.slot)
    (committed : (producerView t.hostP).committed = (producerView s.hostP).committed)
    (writing : (producerView t.hostP).writing.length = t.wcnt.toNat)
    (written : ∀ k v, (producerView t.hostP).writing[k]? = some v → memGet s.slot (Config.hdrBytes + k) = some v) :
    StorageHolds t := by
  have removals : rc t = rc s := k.rc_eq
  obtain ⟨cfg, ⟨-, -, cAct, cLen, -⟩, -, -⟩ := k
  have commits : wc t = wc s := by rw [wc, committed, ← wc]
  refine ⟨writing, ?_, ?_, ?_, ?_⟩ <;> simp only [cfg, slot, committed, commits, removals, cAct, cLen]
  exacts [written, h.lengths, h.current, h.peeked]

/-- A byte written goes behind those the open transaction wrote, and nothing of the storage is another's. -/
theorem StorageHolds.write {b : Byte} (h : StorageHolds s) (hv : s.cfg.Valid) (k : ProducerKeeps s t) (noUnit : wc s = rc s)
    (closed : s.cAct = false) (room : s.wcnt.toNat < s.cfg.maxPayload) (wcnt : t.wcnt = s.wcnt + 1#8)
    (slot : t.slot = memPut s.slot (payloadAddr s.wcnt) b)
    (view : producerView t.hostP =
      { writing := (producerView s.hostP).writing ++ [b], committed := (producerView s.hostP).committed }) : StorageHolds t where
  writing := by
    obtain ⟨-, byteSized, -⟩ := hv
    have count : (s.wcnt + 1#8).toNat = s.wcnt.toNat + 1 := by bv_omega
    rw [view, wcnt, List.length_append, h.writing, count]
    rfl
  written j v hj := by
    rw [view] at hj
    rw [slot, payloadAddr, ← h.writing]
    rcases Nat.lt_or_ge j (producerView s.hostP).writing.length with lt | ge
    · rw [memGet_memPut_other _ _ _ _ (by omega)]
      exact h.written j v (List.getElem?_append_left lt ▸ hj)
    · rw [List.getElem?_append_right ge, List.getElem?_singleton] at hj
      split at hj
      · cases hj
        rw [show j = (producerView s.hostP).writing.length by omega]
        exact memGet_memPut_same _ _ _
      · cases hj
  lengths := by
    rw [view, k.cfg]
    exact h.lengths
  current u one := by
    have commits : wc t = wc s := by rw [wc, view, ← wc]
    have := k.rc_eq
    omega
  peeked ha := absurd ((k.domainC.cAct.symm.trans ha).symm.trans closed) (by decide)

/-- A commit makes a unit of the open transaction's bytes; port C has no transaction open. -/
theorem StorageHolds.commit {llid : BitVec 2} (h : StorageHolds s) (fits : s.wcnt.toNat ≤ s.cfg.maxPayload)
    (k : ProducerKeeps s t) (closed : s.cAct = false) (wcnt : t.wcnt = 0#8) (slot : t.slot = withHeader s.slot llid s.wcnt)
    (view : producerView t.hostP =
      { writing := []
        committed := (producerView s.hostP).committed ++ [{ llid := llid, payload := (producerView s.hostP).writing }] }) :
    StorageHolds t where
  writing := by
    rw [view, wcnt]
    rfl
  written j v hj := by
    rw [view] at hj
    cases hj
  lengths u hu := by
    rw [view] at hu
    rw [k.cfg]
    rcases List.mem_append.1 hu with hu | hu
    · exact h.lengths u hu
    · rw [List.mem_singleton.1 hu]
      exact h.writing.trans_le fits
  current u one hu := by
    rw [view, List.getLast?_append, List.getLast?_singleton] at hu
    cases hu
    rw [slot]
    exact h.holdsPdu_withHeader llid
  peeked ha := absurd ((k.domainC.cAct.symm.trans ha).symm.trans closed) (by decide)

end Storage

theorem Invariant.storage_producerMove {s t : State} (inv : Invariant s) (k : ProducerKeeps s t) (m : ProducerMove s t) :
    StorageHolds t := by
  have h := inv.storage
  cases m with
  | stays m =>
    have view := m.view inv.wf.hostP
    exact h.of_producerKeeps k m.slot (by rw [view]) (by rw [view, m.wcnt]; exact h.writing) (by rw [view]; exact h.written)
  | cleared _ _ wcnt slot view =>
    exact h.of_producerKeeps k slot (by rw [view]) (by rw [view, wcnt]; rfl) (by rw [view]; exact nofun)
  | wrote b opened room _ wcnt slot view =>
    obtain ⟨noUnit, closed, -⟩ := inv.producing opened
    exact h.write inv.wf.cfg k noUnit closed room wcnt slot view
  | committed llid opened _ _ wcnt slot view =>
    obtain ⟨-, closed, -⟩ := inv.producing opened
    exact h.commit inv.wf.wcntRange k closed wcnt slot view

theorem Invariant.storage_consumerMove {s t : State} (inv : Invariant s) (k : ConsumerKeeps s t) (m : ConsumerMove s t) :
    StorageHolds t := by
  have h := inv.storage
  cases m with
  | stays m => exact h.of_consumerKeeps k (by rw [rc, m.view, ← rc]) (by rw [m.cAct, m.cLen]; exact h.peeked)
  | opened b0 b1 _ _ length _ cLen view => exact h.of_consumerKeeps k (by rw [rc, view]) fun _ => cLen ▸ length
  | read i v _ _ _ _ cAct cLen view => exact h.of_consumerKeeps k (by rw [rc, view]) (by rw [cAct, cLen]; exact h.peeked)
  | kept _ closed view =>
    exact h.of_consumerKeeps k (by rw [rc, view, ← rc]) fun ha => absurd (closed.symm.trans ha) (by decide)
  | removed opened _ closed view =>
    obtain ⟨one, -⟩ := inv.consuming (.inr opened)
    have removals : rc t = rc s + 1 := by rw [rc, view]
    exact {
      writing := by
        rw [k.hostP, k.domainP.wcnt]
        exact h.writing
      written := by
        rw [k.hostP, k.slot]
        exact h.written
      lengths := by
        rw [k.hostP, k.cfg]
        exact h.lengths
      current := fun u one' => by
        have := k.wc_eq
        omega
      peeked := fun ha => absurd (closed.symm.trans ha) (by decide) }

/-! ## The order -/

/-- What port C sees or has open is the commit after those it removed, in the slot. -/
theorem Invariant.nextUnit {s : State} (h : Invariant s) (hc : emptyC s = false ∨ s.cAct = true) :
    ∃ u, (producerView s.hostP).committed[rc s]? = some u ∧ HoldsPdu s.slot u ∧ u.payload.length ≤ s.cfg.maxPayload := by
  obtain ⟨one, -⟩ := h.consuming hc
  have last : (producerView s.hostP).committed.getLast? = (producerView s.hostP).committed[rc s]? := by
    rw [List.getLast?_eq_getElem?, ← wc, one, Nat.add_sub_cancel]
  have some := List.getElem?_eq_getElem (show rc s < (producerView s.hostP).committed.length by rw [← wc]; omega)
  exact ⟨_, some, h.storage.current _ one (last.trans some), h.storage.lengths _ (List.getElem_mem _)⟩

/-- Commits only add up, so what was shown in order stays so. -/
theorem Fifo.of_prefix {s t : State} (h : Fifo s) (seen : (consumerView t.hostC).seen = (consumerView s.hostC).seen)
    (more : (producerView s.hostP).committed <+: (producerView t.hostP).committed) : Fifo t := by
  intro e he
  rw [seen] at he
  obtain ⟨u, hu, shown⟩ := h e he
  obtain ⟨later, hl⟩ := more
  obtain ⟨inside, -⟩ := List.getElem?_eq_some_iff.1 hu
  exact ⟨u, by rw [← hl, List.getElem?_append_left inside, hu], shown⟩

/-- One more thing shown of the commit after the removals. -/
theorem Fifo.of_append {s t : State} {x : Seen} {u : Pdu} (h : Fifo s) (hostP : t.hostP = s.hostP)
    (view : consumerView t.hostC = { removed := rc s, seen := (consumerView s.hostC).seen ++ [(rc s, x)] })
    (hu : (producerView s.hostP).committed[rc s]? = some u) (hx : x.of u) : Fifo t := by
  intro e he
  rw [hostP]
  rw [view] at he
  rcases List.mem_append.1 he with he | he
  · exact h e he
  · rw [List.mem_singleton.1 he]
    exact ⟨u, hu, hx⟩

theorem Fifo.producerMove {s t : State} (h : Fifo s) (hwf : s.hostP.Wf) (k : ProducerKeeps s t) (m : ProducerMove s t) :
    Fifo t := by
  refine h.of_prefix (by rw [k.hostC]) ?_
  cases m with
  | stays m => rw [m.view hwf]
  | cleared _ _ _ _ view => rw [view]
  | wrote _ _ _ _ _ _ view => rw [view]
  | committed _ _ _ _ _ _ view => rw [view]; exact List.prefix_append _ _

/-- A header shown is the header of the unit in the slot. -/
theorem HoldsPdu.header_of {m : Memory} {u : Pdu} {b0 b1 : Byte} (h : HoldsPdu m u) (tag : memGet m 0 = some b0)
    (length : memGet m 1 = some b1) : (Seen.header ((b0.setWidth 2).setWidth 8) b1).of u := by
  obtain rfl : u.llid.setWidth 8 = b0 := Option.some.inj (h.tag.symm.trans tag)
  obtain rfl : BitVec.ofNat 8 u.payload.length = b1 := Option.some.inj (h.length.symm.trans length)
  have read : (u.llid.setWidth 8).setWidth 2 = u.llid := by
    rw [BitVec.setWidth_setWidth_of_le _ (by decide), BitVec.setWidth_eq]
  exact ⟨congrArg (BitVec.setWidth 8) read, rfl⟩

/-- A byte shown within the length is the byte of the unit in the slot. -/
theorem HoldsPdu.byte_of {m : Memory} {u : Pdu} {i v : Byte} (h : HoldsPdu m u) (inside : i.toNat < u.payload.length)
    (byte : memGet m (payloadAddr i) = some v) : (Seen.byte i v).of u := by
  have held := List.getElem?_eq_getElem inside
  rw [Seen.of, held]
  exact (h.bytes _ _ held).symm.trans byte

theorem Invariant.fifo_consumerMove {s t : State} (inv : Invariant s) (k : ConsumerKeeps s t) (m : ConsumerMove s t) : Fifo t := by
  have h := inv.fifo
  have same : (producerView s.hostP).committed <+: (producerView t.hostP).committed := by rw [k.hostP]
  cases m with
  | stays m => exact h.of_prefix (by rw [m.view]) same
  | opened b0 b1 data tag length _ _ view =>
    obtain ⟨u, hu, held, -⟩ := inv.nextUnit (.inl data)
    exact h.of_append k.hostP view hu (held.header_of tag length)
  | read i v opened inside byte _ _ _ view =>
    obtain ⟨u, hu, held, fits⟩ := inv.nextUnit (.inr opened)
    obtain ⟨-, byteSized, -⟩ := inv.wf.cfg
    have length : BitVec.ofNat 8 u.payload.length = s.cLen :=
      Option.some.inj (held.length.symm.trans (inv.storage.peeked opened))
    rw [← length, BitVec.toNat_ofNat, Nat.mod_eq_of_lt (by omega)] at inside
    exact h.of_append k.hostP view hu (held.byte_of inside byte)
  | kept _ _ view => exact h.of_prefix (by rw [view]) same
  | removed _ _ _ view => exact h.of_prefix (by rw [view]) same

/-! ## The step -/

/-- The schedule is outside the invariant. -/
theorem invariant_sched (s : State) (l : List Agent) (h : Invariant s) : Invariant { s with sched := l } := by
  obtain ⟨wf, ⟨wqc, rqc, counts⟩, storage, fifo⟩ := h
  exact ⟨wellFormed_sched s l wf, ⟨wqc, rqc, { counts with }⟩, { storage with }, fifo⟩

theorem Invariant.syncW {s : State} (h : Invariant s) : Invariant (syncW s) := by
  obtain ⟨wf, ⟨wqc, rqc, counts⟩, storage, fifo⟩ := h
  exact ⟨wellFormed_syncW s wf, ⟨_, _, counts.syncW⟩, { storage with }, fifo⟩

theorem Invariant.syncR {s : State} (h : Invariant s) : Invariant (syncR s) := by
  obtain ⟨wf, ⟨wqc, rqc, counts⟩, storage, fifo⟩ := h
  exact ⟨wellFormed_syncR s wf, ⟨_, _, counts.syncR⟩, { storage with }, fifo⟩

/-- Settles O45: a step is a turn of one port, whose move keeps the counts, the storage and the order, or a shift. -/
theorem invariantKept : Obligations.InvariantKept := by
  unfold Obligations.InvariantKept
  intro s t inv hst
  have e := step_effect s t hst
  have wf := wellFormedKept s t inv.wf hst
  obtain ⟨wqc, rqc, counts⟩ := inv.counts
  rcases e.writer with rfl | ⟨-, k⟩ | ⟨-, k⟩ | ⟨rest, -, rfl⟩ | ⟨rest, -, rfl⟩
  · exact inv
  · have m := e.producerMove inv.wf.hostP
    exact ⟨wf, ⟨wqc, rqc, counts.producerMove inv.wf.cfg inv.wf.hostP k m⟩, inv.storage_producerMove k m,
      inv.fifo.producerMove inv.wf.hostP k m⟩
  · have m := e.consumerMove inv.wf.hostC
    exact ⟨wf, ⟨wqc, rqc, counts.consumerMove inv.wf.cfg k m⟩, inv.storage_consumerMove k m, inv.fifo_consumerMove k m⟩
  · exact (invariant_sched s rest inv).syncW
  · exact (invariant_sched s rest inv).syncR

end Sys2Proof.Machine
end

section
/-! PROOFS. The invariant at the start of every run, and so along every run (43_cdc_sync R191, 70_reset_and_hazards R251). -/

namespace Sys2Proof.Machine

/-! ## The start of a run -/

theorem grayOf_zero (w : Nat) : grayOf w 0 = 0#8 := by
  rw [grayOf, Nat.zero_mod, b2g, BitVec.zero_ushiftRight, BitVec.xor_self]

section Launch

variable (c : Config) (ps cs : List Word) (sched : List Agent)

theorem wellFormed_launch (hv : c.Valid) : WellFormed (launch c ps cs sched) := by
  have depth : (List.replicate c.stages (0#8 : Ptr)).length = c.stages := List.length_replicate
  have zero : (0#8).toNat < 2 ^ c.ptrW := Nat.two_pow_pos _
  have zeros : ∀ x ∈ List.replicate c.stages (0#8 : Ptr), x.toNat < 2 ^ c.ptrW :=
    fun x hx => resetOf_stages c x hx ▸ zero
  exact ⟨hv, depth, depth, zero, zero, zeros, zeros, Nat.zero_le _, Nat.zero_le _, fun _ => rfl, fun _ => rfl, Nat.zero_le _,
    Nat.zero_le _, wf_nil, nofun, ⟨Nat.zero_le _, rfl⟩, ⟨Nat.zero_le _, rfl⟩⟩

/-- No commit, no removal, and every stage at the count 0. -/
theorem countsHold_launch :
    CountsHold (launch c ps cs sched) (List.replicate c.stages 0) (List.replicate c.stages 0) where
  wptr := (grayOf_zero _).symm
  rptr := (grayOf_zero _).symm
  wq := by
    rw [List.map_replicate, grayOf_zero]
    rfl
  rq := by
    rw [List.map_replicate, grayOf_zero]
    rfl
  order := by
    have zeros : ∀ x ∈ 0 :: (List.replicate c.stages 0 ++ 0 :: List.replicate c.stages 0), x = 0 := by
      simp only [List.mem_cons, List.mem_append, List.mem_replicate]
      tauto
    exact List.pairwise_of_forall_mem_list fun x hx y hy => (zeros y hy).trans_le (Nat.zero_le x)
  window := Nat.zero_le _
  pAct := nofun
  cAct := nofun

/-- Nothing was written, committed or shown. -/
theorem storageHolds_launch : StorageHolds (launch c ps cs sched) := ⟨rfl, nofun, nofun, nofun, nofun⟩

theorem invariant_launch (hv : c.Valid) : Invariant (launch c ps cs sched) :=
  ⟨wellFormed_launch c ps cs sched hv, ⟨_, _, countsHold_launch c ps cs sched⟩, storageHolds_launch c ps cs sched, nofun⟩

end Launch

/-- Settles O44: reset is the start of a run with nothing to do. -/
theorem invariantAtLaunch : Obligations.InvariantAtLaunch := by
  unfold Obligations.InvariantAtLaunch
  have launched (c : Config) (ps cs : List Word) (sched : List Agent) (hv : c.Valid) :
      WellFormed (launch c ps cs sched) ∧ Invariant (launch c ps cs sched) :=
    ⟨wellFormed_launch c ps cs sched hv, invariant_launch c ps cs sched hv⟩
  exact ⟨launched Config.default [] [] [] (by decide), launched⟩

/-! ## Along a run -/

theorem Invariant.run {s u : State} (k : Nat) (h : Invariant s) (hrun : Host.Core.run core k s = .next u) : Invariant u := by
  induction k generalizing s with
  | zero => cases hrun; exact h
  | succ k ih =>
    obtain ⟨t, hst, htu⟩ := run_succ s u k hrun
    exact ih (invariantKept s t h hst) htu

end Sys2Proof.Machine
end

section
/-! PROOFS. What the invariant says of the flags, of transactions and of the order (43_cdc_sync R192 to R194). -/

namespace Sys2Proof.Machine

/-- R191 (i): the removals never pass the commits, and at most one unit waits. -/
theorem Invariant.window {s : State} (h : Invariant s) : rc s ≤ wc s ∧ wc s ≤ rc s + 1 := by
  obtain ⟨wqc, rqc, counts⟩ := h.counts
  obtain ⟨hr, hrw, hw, hwin⟩ := counts.views
  omega

/-- Where port P sees the slot free it is free. -/
theorem Invariant.noUnit_of_free {s : State} (h : Invariant s) (hf : fullP s = false) : wc s = rc s := by
  obtain ⟨wqc, rqc, counts⟩ := h.counts
  obtain ⟨hr, hrw, hw, hwin⟩ := counts.views
  have free := mt (counts.fullP_iff h.wf.cfg).2 (by simp [hf])
  omega

/-- Settles O47: port P sees removals late and port C sees commits late, within the window of one. -/
theorem flagsSafeSide : Obligations.FlagsSafeSide := by
  unfold Obligations.FlagsSafeSide
  intro s inv
  obtain ⟨behind, window⟩ := inv.window
  refine ⟨behind, window, fun hf => ?_, fun he => ?_⟩
  · rw [occupancy, inv.noUnit_of_free hf, Nat.sub_self]
  · obtain ⟨one, -⟩ := inv.consuming (.inl he)
    rw [occupancy, one, Nat.add_sub_cancel_left]

/-- P_COMMIT in an open transaction finds the slot free, so a fault it records is another. -/
theorem Invariant.commit_pFault {s t : State} {llid : BitVec 2} (h : Invariant s) (hx : exec (.pCommit llid) s = .next t) :
    t.pFault = s.pFault ∨ t.pFault ≠ FaultCode.invEnqueue.code := by
  cases exec_producer _ s t rfl hx with
  | faulted _ code h0 hcode =>
    right
    rw [respond_pFault, recordFault_p_pFault, if_pos h0]
    rcases hcode with rfl | rfl | ⟨rfl, opened, full⟩
    · decide
    · decide
    · exact absurd full (by simp [h.free opened])
  | _ => exact .inl (by simp)

/-- C_RELEASE 1 in an open transaction finds the unit, so a fault it records is another. -/
theorem Invariant.release_cFault {s t : State} (h : Invariant s) (hx : exec (.cRelease true) s = .next t) :
    t.cFault = s.cFault ∨ t.cFault ≠ FaultCode.invDequeue.code := by
  cases exec_consumer _ s t rfl hx with
  | faulted _ code h0 hcode =>
    right
    rw [respond_cFault, recordFault_c_cFault, if_pos h0]
    rcases hcode with rfl | ⟨rfl, opened, empty⟩
    · decide
    · obtain ⟨-, -, -, data, -⟩ := h.consuming (.inr opened)
      exact absurd empty (by simp [data])
  | _ => exact .inl (by simp)

/-- Settles O48: an open transaction fixes the counts, and with them the flags of both ports and the other transaction. -/
theorem transactionsExclude : Obligations.TransactionsExclude := by
  unfold Obligations.TransactionsExclude
  intro s inv
  refine ⟨fun opened => ?_, fun opened => ?_, fun llid t => inv.commit_pFault, fun t => inv.release_cFault⟩
  · obtain ⟨noUnit, closed, empty⟩ := inv.producing opened
    exact ⟨by rw [occupancy, noUnit, Nat.sub_self], inv.free opened, empty, closed⟩
  · obtain ⟨one, closed, full, data, -⟩ := inv.consuming (.inr opened)
    exact ⟨by rw [occupancy, one, Nat.add_sub_cancel_left], data, full, closed⟩

/-- Settles O55: the invariant holds at the start of the run and every step keeps it. -/
theorem firstInFirstOut : Obligations.FirstInFirstOut := by
  unfold Obligations.FirstInFirstOut
  intro c ps cs sched k u hv hrun
  have inv := (invariant_launch c ps cs sched hv).run k hrun
  exact ⟨inv.fifo, inv.window.1⟩

/-! ## The flags where a view is the pointer -/

/-- Where port C sees `WPTR` itself, `EMPTY_C` is exact. -/
theorem Invariant.emptyC_iff_of_view {s : State} (h : Invariant s) (view : wsync s = s.wptr) :
    emptyC s = true ↔ wc s = rc s := by
  obtain ⟨-, -, h1, h8, -⟩ := h.wf.cfg
  obtain ⟨behind, window⟩ := h.window
  obtain ⟨wqc, rqc, counts⟩ := h.counts
  rw [emptyC, view, counts.wptr, counts.rptr, ptrDiff_window _ _ _ h1 h8 behind window, decide_eq_true_eq]
  split
  · exact iff_of_true rfl ‹_›
  · exact iff_of_false (by decide) ‹_›

/-- Where port P sees `RPTR` itself, `FULL_P` is exact. -/
theorem Invariant.fullP_iff_of_view {s : State} (h : Invariant s) (view : rsync s = s.rptr) :
    fullP s = true ↔ wc s ≠ rc s := by
  obtain ⟨-, -, h1, h8, -⟩ := h.wf.cfg
  obtain ⟨behind, window⟩ := h.window
  obtain ⟨wqc, rqc, counts⟩ := h.counts
  rw [fullP_eq, view, counts.wptr, counts.rptr, ptrDiff_window _ _ _ h1 h8 behind window, decide_eq_true_eq]
  split
  · exact iff_of_false (by decide) (not_not.2 ‹_›)
  · exact iff_of_true (by decide) ‹_›

/-- 43_cdc_sync R185: with no stage each view is the pointer. -/
theorem views_of_no_stage (s : State) (hw : s.wq.length = 0) (hr : s.rq.length = 0) : wsync s = s.wptr ∧ rsync s = s.rptr := by
  rw [wsync, rsync, List.length_eq_zero_iff.1 hw, List.length_eq_zero_iff.1 hr]
  exact ⟨rfl, rfl⟩

/-- Settles O20: with no stage each view is the pointer, so each flag is exact. -/
theorem singleClockForm : Obligations.SingleClockForm := by
  unfold Obligations.SingleClockForm
  intro s inv none
  obtain ⟨hw, hr⟩ := views_of_no_stage s (inv.wf.wqLength.trans none) (inv.wf.rqLength.trans none)
  obtain ⟨behind, window⟩ := inv.window
  rw [inv.fullP_iff_of_view hr, inv.emptyC_iff_of_view hw, occupancy]
  exact ⟨hw, hr, by omega, by omega⟩

end Sys2Proof.Machine
end

section
/-! PROOFS. The Gray code at every width (43_cdc_sync R180 to R182, R188). `g2b` adds up the shifts of its argument, so composed
with `b2g` in either order all but the first and the last shift cancel; and a count differs from its successor in the low bits up
to one bit, which `b2g` turns into that bit alone. -/

namespace Sys2Proof.Machine

/-! ## The two conversions are inverse -/

/-- A value of `w` bits shifted by `w` is gone. -/
theorem ushiftRight_of_lt (w : Nat) (b : Ptr) (hb : b.toNat < 2 ^ w) : b >>> w = 0#8 := by
  apply BitVec.eq_of_toNat_eq
  rw [BitVec.toNat_ushiftRight, Nat.shiftRight_eq_div_pow, Nat.div_eq_of_lt hb]
  rfl

/-- 43_cdc_sync R180, bit by bit. -/
theorem getLsbD_b2g (b : Ptr) (k : Nat) : (b2g b).getLsbD k = (b.getLsbD k ^^ b.getLsbD (k + 1)) := by
  rw [b2g, BitVec.getLsbD_xor, BitVec.getLsbD_ushiftRight, Nat.add_comm]

theorem b2g_xor (x y : Ptr) : b2g (x ^^^ y) = b2g x ^^^ b2g y := by
  simp only [b2g, BitVec.ushiftRight_xor_distrib]
  ac_rfl

/-- The shifts of `b2g b` cancel in pairs. -/
theorem g2b_b2g_xor (w : Nat) (b : Ptr) : g2b w (b2g b) = b ^^^ (b >>> w) := by
  induction w with
  | zero => simp [g2b]
  | succ w ih =>
    calc g2b (w + 1) (b2g b)
        = (b ^^^ (b >>> w)) ^^^ ((b >>> w) ^^^ (b >>> (w + 1))) := by
          rw [g2b, ih, b2g, BitVec.ushiftRight_xor_distrib, ← BitVec.shiftRight_add, Nat.add_comm 1]
      _ = b ^^^ (b >>> (w + 1)) := by rw [BitVec.xor_assoc, ← BitVec.xor_assoc (b >>> w), BitVec.xor_self, BitVec.zero_xor]

/-- The shifts of `g2b w b` and of `g2b w b` shifted once cancel in pairs. -/
theorem b2g_g2b_xor (w : Nat) (b : Ptr) : b2g (g2b w b) = b ^^^ (b >>> w) := by
  induction w with
  | zero => simp [g2b, b2g]
  | succ w ih =>
    calc b2g (g2b (w + 1) b)
        = (b ^^^ (b >>> w)) ^^^ ((b >>> w) ^^^ (b >>> (w + 1))) := by
          rw [g2b, b2g_xor, ih, b2g, ← BitVec.shiftRight_add]
      _ = b ^^^ (b >>> (w + 1)) := by rw [BitVec.xor_assoc, ← BitVec.xor_assoc (b >>> w), BitVec.xor_self, BitVec.zero_xor]

section Width

variable {w : Nat} {b : Ptr} (hb : b.toNat < 2 ^ w)

include hb

theorem g2b_b2g : g2b w (b2g b) = b := by
  rw [g2b_b2g_xor, ushiftRight_of_lt w b hb, BitVec.xor_zero]

theorem b2g_g2b : b2g (g2b w b) = b := by
  rw [b2g_g2b_xor, ushiftRight_of_lt w b hb, BitVec.xor_zero]

/-- A shift stays within the width. -/
theorem ushiftRight_lt (j : Nat) : (b >>> j).toNat < 2 ^ w := by
  rw [BitVec.toNat_ushiftRight, Nat.shiftRight_eq_div_pow]
  exact (Nat.div_le_self _ _).trans_lt hb

theorem b2g_lt : (b2g b).toNat < 2 ^ w := by
  rw [b2g, BitVec.toNat_xor]
  exact Nat.xor_lt_two_pow hb (ushiftRight_lt hb 1)

/-- However many shifts are added up, the sum stays within the width. -/
theorem g2b_lt (j : Nat) : (g2b j b).toNat < 2 ^ w := by
  induction j with
  | zero => exact Nat.two_pow_pos w
  | succ j ih =>
    rw [g2b, BitVec.toNat_xor]
    exact Nat.xor_lt_two_pow ih (ushiftRight_lt hb j)

/-- Each bit of `g2b` is the bit above it exclusive-or the Gray bit (43_cdc_sync R181). -/
theorem getLsbD_g2b (k : Nat) : (g2b w b).getLsbD k = ((g2b w b).getLsbD (k + 1) ^^ b.getLsbD k) := by
  have gray := getLsbD_b2g (g2b w b) k
  rw [b2g_g2b hb] at gray
  rw [gray, Bool.xor_comm ((g2b w b).getLsbD k), ← Bool.xor_assoc, Bool.xor_self, Bool.false_xor]

end Width

/-- Settles O14: the two telescoping sums, and the bits of `g2b` from those of `b2g`. -/
theorem grayInverse : Obligations.GrayInverse := by
  unfold Obligations.GrayInverse
  intro w b h1 h8 hb
  have top : (g2b w b).getLsbD (w - 1 + 1) = false := by
    rw [Nat.sub_add_cancel h1]
    exact Nat.testBit_lt_two_pow (g2b_lt hb w)
  refine ⟨fun k _ => getLsbD_b2g b k, ?_, fun k _ => getLsbD_g2b hb k, g2b_b2g hb, b2g_g2b hb, b2g_lt hb, g2b_lt hb w⟩
  rw [getLsbD_g2b hb, top, Bool.false_xor]

/-! ## The increment -/

/-- A count and its successor within `w` bits differ exactly in the bits up to some bit below `w`. -/
theorem xor_succ_mod (w n : Nat) (h1 : 1 ≤ w) (hn : n < 2 ^ w) : ∃ k, k < w ∧ n ^^^ ((n + 1) % 2 ^ w) = 2 ^ (k + 1) - 1 := by
  induction w, h1 using Nat.le_induction generalizing n with
  | base =>
    refine ⟨0, by decide, ?_⟩
    interval_cases n <;> decide
  | succ w h1 ih =>
    have double : 2 ^ (w + 1) = 2 * 2 ^ w := Nat.pow_succ'
    cases n using Nat.bitCasesOn with | bit r q
    cases r with
    | false =>
      have next : (Nat.bit false q + 1) % 2 ^ (w + 1) = Nat.bit true q := by
        simp only [Nat.bit_val, Bool.toNat_false, Bool.toNat_true] at hn ⊢
        exact Nat.mod_eq_of_lt (by omega)
      refine ⟨0, Nat.succ_pos w, ?_⟩
      rw [next, Nat.xor_bit, Nat.xor_self]
      rfl
    | true =>
      have next : (Nat.bit true q + 1) % 2 ^ (w + 1) = Nat.bit false ((q + 1) % 2 ^ w) := by
        rw [Nat.bit_val, Nat.bit_val, double, ← Nat.mul_mod_mul_left]
        rfl
      have hq : q < 2 ^ w := by
        rw [Nat.bit_val] at hn
        omega
      obtain ⟨k, hk, low⟩ := ih q hq
      refine ⟨k + 1, Nat.succ_lt_succ hk, ?_⟩
      have pos := Nat.two_pow_pos (k + 1)
      have doubled : 2 ^ (k + 1 + 1) = 2 * 2 ^ (k + 1) := Nat.pow_succ'
      rw [next, Nat.xor_bit, low, Nat.bit_val, doubled]
      show 2 * (2 ^ (k + 1) - 1) + 1 = 2 * 2 ^ (k + 1) - 1
      omega

/-- `b2g` turns the low bits up to bit `k` into bit `k`. -/
theorem b2g_low_bits : ∀ k < 8, b2g (BitVec.ofNat 8 (2 ^ (k + 1) - 1)) = 1#8 <<< k := by
  decide

theorem two_pow_le_256 {w : Nat} (h8 : w ≤ 8) : 2 ^ w ≤ 256 := Nat.pow_le_pow_right (n := 2) (by decide) h8

section Increment

variable {w : Nat} (h8 : w ≤ 8)

include h8

/-- The increment counts by one, the wrap included (43_cdc_sync R182). -/
theorem toNat_g2b_grayInc (g : Ptr) : (g2b w (grayInc w g)).toNat = ((g2b w g).toNat + 1) % 2 ^ w := by
  have wrapped : ((g2b w g).toNat + 1) % 2 ^ w < 2 ^ w := Nat.mod_lt _ (Nat.two_pow_pos w)
  have count : (BitVec.ofNat 8 (((g2b w g).toNat + 1) % 2 ^ w)).toNat = ((g2b w g).toNat + 1) % 2 ^ w := by
    have := two_pow_le_256 h8
    rw [BitVec.toNat_ofNat, Nat.mod_eq_of_lt (by omega)]
  rw [grayInc_eq_b2g_mod w h8, g2b_b2g (by rwa [count]), count]

/-- The increment flips the one bit `b2g` makes of the low bits in which the two counts differ. -/
theorem grayInc_flips (h1 : 1 ≤ w) (g : Ptr) (hg : g.toNat < 2 ^ w) : ∃ k, k < w ∧ grayInc w g = g ^^^ (1#8 <<< k) := by
  obtain ⟨k, hk, low⟩ := xor_succ_mod w (g2b w g).toNat h1 (g2b_lt hg w)
  refine ⟨k, hk, ?_⟩
  have differ : BitVec.ofNat 8 (((g2b w g).toNat + 1) % 2 ^ w) = g2b w g ^^^ BitVec.ofNat 8 (2 ^ (k + 1) - 1) := by
    rw [← low, BitVec.ofNat_xor, BitVec.ofNat_toNat, BitVec.setWidth_eq, ← BitVec.xor_assoc, BitVec.xor_self, BitVec.zero_xor]
  rw [grayInc_eq_b2g_mod w h8, differ, b2g_xor, b2g_g2b hg, b2g_low_bits k (by omega)]

end Increment

/-- Settles O15: which bit flips, and the count. -/
theorem grayIncOneBit : Obligations.GrayIncOneBit := by
  unfold Obligations.GrayIncOneBit
  intro w g h1 h8 hg
  exact ⟨grayInc_flips h8 h1 g hg, toNat_g2b_grayInc h8 g⟩

end Sys2Proof.Machine
end

section
/-! PROOFS. The flags as wrapped differences and as comparisons of pointers, and the one-bit form (43_cdc_sync R186, R187, R197). -/

namespace Sys2Proof.Machine

/-! ## The wrapped difference -/

/-- A difference wrapped at `m` is 0 only between equal counts. -/
theorem wrapped_sub_eq_zero_iff {m a b : Nat} (ha : a < m) (hb : b < m) : (a + m - b) % m = 0 ↔ a = b := by
  rcases Nat.lt_or_ge a b with lt | ge
  · rw [Nat.mod_eq_of_lt (by omega)]
    omega
  · rw [show a + m - b = a - b + m by omega, Nat.add_mod_right, Nat.mod_eq_of_lt (by omega)]
    omega

section Difference

variable {w : Nat} {x y : Ptr} (h8 : w ≤ 8) (hx : x.toNat < 2 ^ w) (hy : y.toNat < 2 ^ w)

include h8 hx hy

/-- 43_cdc_sync R186, R187: the difference of the counts in numbers. -/
theorem toNat_ptrDiff : (ptrDiff w x y).toNat = ((g2b w x).toNat + 2 ^ w - (g2b w y).toNat) % 2 ^ w := by
  have ha := g2b_lt hx w
  have hb := g2b_lt hy w
  have wrapped : ∀ n, n % 2 ^ w < 2 ^ 8 := fun n => (Nat.mod_lt n (Nat.two_pow_pos w)).trans_le (two_pow_le_256 h8)
  have divides : 2 ^ w ∣ 2 ^ 8 := Nat.pow_dvd_pow 2 h8
  rw [ptrDiff, and_ptrMask w h8, BitVec.toNat_ofNat, Nat.mod_eq_of_lt (wrapped _), BitVec.toNat_sub,
    Nat.mod_mod_of_dvd _ divides]
  obtain ⟨q, hq⟩ := divides
  cases q with
  | zero => cases hq
  | succ q =>
    rw [Nat.mul_succ] at hq
    rw [show 2 ^ 8 - (g2b w y).toNat + (g2b w x).toNat = (g2b w x).toNat + 2 ^ w - (g2b w y).toNat + 2 ^ w * q by omega,
      Nat.add_mul_mod_self_left]

/-- Pointers no distance apart are equal, since `g2b` does not confuse them. -/
theorem ptrDiff_eq_zero_iff : ptrDiff w x y = 0#8 ↔ x = y := by
  constructor
  · intro h
    have zero : ((g2b w x).toNat + 2 ^ w - (g2b w y).toNat) % 2 ^ w = 0 := by
      rw [← toNat_ptrDiff h8 hx hy, h]
      rfl
    have same := (wrapped_sub_eq_zero_iff (g2b_lt hx w) (g2b_lt hy w)).1 zero
    rw [← b2g_g2b hx, ← b2g_g2b hy, BitVec.eq_of_toNat_eq same]
  · rintro rfl
    exact ptrDiff_self w x

end Difference

/-! ## The flags -/

/-- A view is a stage or the pointer, so it has their width. -/
theorem lastStage_lt {w : Nat} {chain : List Ptr} {ptr : Ptr} (hc : ∀ x ∈ chain, x.toNat < 2 ^ w) (hp : ptr.toNat < 2 ^ w) :
    (lastStage chain ptr).toNat < 2 ^ w := by
  rcases lastStage_mem chain ptr with h | h
  · rwa [h]
  · exact hc _ h

theorem WellFormed.wsync_lt {s : State} (h : WellFormed s) : (wsync s).toNat < 2 ^ s.cfg.ptrW :=
  lastStage_lt h.wqWidth h.wptrWidth

theorem WellFormed.rsync_lt {s : State} (h : WellFormed s) : (rsync s).toNat < 2 ^ s.cfg.ptrW :=
  lastStage_lt h.rqWidth h.rptrWidth

theorem WellFormed.fullP_iff {s : State} (h : WellFormed s) : fullP s = true ↔ s.wptr ≠ rsync s := by
  obtain ⟨-, -, -, h8, -⟩ := h.cfg
  rw [fullP_eq, decide_eq_true_eq, Ne, ptrDiff_eq_zero_iff h8 h.wptrWidth h.rsync_lt]

theorem WellFormed.emptyC_iff {s : State} (h : WellFormed s) : emptyC s = true ↔ wsync s = s.rptr := by
  obtain ⟨-, -, -, h8, -⟩ := h.cfg
  rw [emptyC, decide_eq_true_eq, ptrDiff_eq_zero_iff h8 h.wsync_lt h.rptrWidth]

/-- Settles O18: the differences in numbers, and that 0 is the difference of equal pointers only. -/
theorem flagFormulas : Obligations.FlagFormulas := by
  unfold Obligations.FlagFormulas
  intro s wf
  obtain ⟨-, -, -, h8, -⟩ := wf.cfg
  refine ⟨?_, wf.fullP_iff, ?_, wf.emptyC_iff⟩
  · rw [fullP, decide_eq_true_eq, toNat_ptrDiff h8 wf.wptrWidth wf.rsync_lt]
    rfl
  · rw [emptyC, decide_eq_true_eq, ← toNat_ptrDiff h8 wf.wsync_lt wf.rptrWidth]
    exact BitVec.toNat_inj.symm

/-! ## The one-bit form -/

/-- 43_cdc_sync R197: on single bits both conversions are the identity, and the one bit an increment can flip is bit 0. -/
theorem oneBit_conversions (g : Ptr) (hg : g.toNat < 2) : b2g g = g ∧ g2b 1 g = g ∧ grayInc 1 g = g ^^^ 1#8 := by
  refine ⟨?_, ?_, ?_⟩
  · rw [b2g, ushiftRight_of_lt 1 g hg, BitVec.xor_zero]
  · rw [g2b, g2b, BitVec.zero_xor, BitVec.ushiftRight_zero]
  · obtain ⟨k, hk, flip⟩ := grayInc_flips (w := 1) (by decide) le_rfl g hg
    obtain rfl : k = 0 := by omega
    rw [flip, BitVec.shiftLeft_zero]

/-- Single bits differ where their exclusive-or is 1. -/
theorem getLsbD_zero_xor (x y : Ptr) (hx : x.toNat < 2) (hy : y.toNat < 2) :
    (x.getLsbD 0 ^^ y.getLsbD 0) = true ↔ x ≠ y := by
  have bit : ∀ z : Ptr, z.toNat < 2 → z = 0#8 ∨ z = 1#8 := fun z hz => by bv_omega
  rcases bit x hx with rfl | rfl <;> rcases bit y hy with rfl | rfl <;> decide

/-- Settles O19: the conversions on single bits, and each flag as the comparison of its two pointers. -/
theorem oneBitForm : Obligations.OneBitForm := by
  unfold Obligations.OneBitForm
  refine ⟨oneBit_conversions, fun s wf one => ?_⟩
  have width : 2 ^ s.cfg.ptrW = 2 := by rw [one, Nat.pow_one]
  have wptr : s.wptr.toNat < 2 := width ▸ wf.wptrWidth
  have rptr : s.rptr.toNat < 2 := width ▸ wf.rptrWidth
  have wview : (wsync s).toNat < 2 := width ▸ wf.wsync_lt
  have rview : (rsync s).toNat < 2 := width ▸ wf.rsync_lt
  refine ⟨wptr, rptr, wview, rview, ?_, ?_⟩
  · rw [Bool.eq_iff_iff, wf.fullP_iff, getLsbD_zero_xor _ _ wptr rview]
  · rw [Bool.eq_iff_iff, wf.emptyC_iff, Bool.not_eq_true', ← Bool.not_eq_true, getLsbD_zero_xor _ _ wview rptr, not_not]

end Sys2Proof.Machine
end

section
/-! PROOFS. The synchroniser chain (43_cdc_sync R183 to R185): one shift stage by stage, and any number of shifts that sample the
same pointer, which push the old stages out at the end. -/

namespace Sys2Proof.Machine

/-- 43_cdc_sync R183, R184: stage 1 samples the pointer and every later stage the one before it. -/
theorem getElem?_shiftChain (chain : List Ptr) (ptr : Ptr) (k : Nat) (hk : k < chain.length) :
    (shiftChain chain ptr)[k]? = if k = 0 then some ptr else chain[k - 1]? := by
  rw [shiftChain, List.getElem?_dropLast, if_pos (by simpa using hk), List.getElem?_cons]

/-- Settles O9: each synchroniser's step is `shiftChain` on its own stages. -/
theorem synchronisersShift : Obligations.SynchronisersShift := by
  unfold Obligations.SynchronisersShift
  constructor
  · intro s rest hs _
    exact ⟨shiftChain s.wq s.wptr, step_of_sched s .syncW rest hs, shiftChain_length _ _, getElem?_shiftChain _ _,
      (shiftChain_eq_self _ _).2⟩
  · intro s rest hs _
    exact ⟨shiftChain s.rq s.rptr, step_of_sched s .syncR rest hs, shiftChain_length _ _, getElem?_shiftChain _ _,
      (shiftChain_eq_self _ _).2⟩

/-! ## Several shifts of one pointer -/

/-- The stages after `n` shifts that all sample `ptr`. -/
def shifted (ptr : Ptr) (n : Nat) (chain : List Ptr) : List Ptr := (fun l => shiftChain l ptr)^[n] chain

theorem shifted_zero (ptr : Ptr) (chain : List Ptr) : shifted ptr 0 chain = chain := rfl

theorem shifted_succ (ptr : Ptr) (n : Nat) (chain : List Ptr) :
    shifted ptr (n + 1) chain = shiftChain (shifted ptr n chain) ptr :=
  Function.iterate_succ_apply' _ n chain

/-- The samples enter in front and the old stages leave at the end. -/
theorem shifted_eq_take (ptr : Ptr) (n : Nat) (chain : List Ptr) :
    shifted ptr n chain = (List.replicate n ptr ++ chain).take chain.length := by
  induction n with
  | zero => simp [shifted_zero]
  | succ n ih =>
    have depth : (shifted ptr n chain).length = chain.length := by
      simp [ih]
    rw [shifted_succ, shiftChain, List.dropLast_eq_take, List.length_cons, Nat.add_sub_cancel, depth, ih, List.replicate_succ,
      List.cons_append]
    cases chain.length with
    | zero => rfl
    | succ m => rw [List.take_succ_cons, List.take_succ_cons, List.take_take, Nat.min_eq_left (Nat.le_succ m)]

/-- After as many shifts as there are stages every stage holds the pointer (43_cdc_sync R196). -/
theorem shifted_of_le (ptr : Ptr) (n : Nat) (chain : List Ptr) (h : chain.length ≤ n) :
    shifted ptr n chain = List.replicate chain.length ptr := by
  rw [shifted_eq_take, List.take_append_of_le_length (by simpa using h), List.take_replicate, Nat.min_eq_left h]

theorem syncW_iterate (n : Nat) (s : State) : syncW^[n] s = { s with wq := shifted s.wptr n s.wq } := by
  induction n with
  | zero => rfl
  | succ n ih => rw [Function.iterate_succ_apply', ih, shifted_succ, syncW]

theorem syncR_iterate (n : Nat) (s : State) : syncR^[n] s = { s with rq := shifted s.rptr n s.rq } := by
  induction n with
  | zero => rfl
  | succ n ih => rw [Function.iterate_succ_apply', ih, shifted_succ, syncR]

/-- 43_cdc_sync R185: where there is a stage the view is the last one. -/
theorem getElem?_last_stage (chain : List Ptr) (ptr : Ptr) (h : 1 ≤ chain.length) :
    chain[chain.length - 1]? = some (lastStage chain ptr) := by
  have nonempty : chain ≠ [] := List.length_pos_iff.1 h
  rw [← List.getLast?_eq_getElem?, lastStage, List.getLastD_eq_getLast?, List.getLast?_eq_some_getLast nonempty, Option.getD_some]

/-- Stages that all hold the pointer show it. -/
theorem lastStage_replicate (n : Nat) (ptr : Ptr) : lastStage (List.replicate n ptr) ptr = ptr :=
  lastStage_of_forall_eq _ _ fun _ => List.eq_of_mem_replicate

/-- Settles O16: the views by the last stage, and the stages after `S` shifts. -/
theorem viewsCatchUp : Obligations.ViewsCatchUp := by
  unfold Obligations.ViewsCatchUp
  intro s hw hr
  refine ⟨fun none => views_of_no_stage s (hw.trans none) (hr.trans none), fun some => ⟨?_, ?_⟩, fun n hn => ?_⟩
  · rw [← hw] at some ⊢
    exact getElem?_last_stage s.wq s.wptr some
  · rw [← hr] at some ⊢
    exact getElem?_last_stage s.rq s.rptr some
  · have wq := shifted_of_le s.wptr n s.wq (hw.trans_le hn)
    have rq := shifted_of_le s.rptr n s.rq (hr.trans_le hn)
    rw [syncW_iterate, syncR_iterate, wsync, rsync, wq, rq, hw, hr]
    exact ⟨rfl, lastStage_replicate _ _, rfl, lastStage_replicate _ _⟩

end Sys2Proof.Machine
end

section
/-! PROOFS. Infinite executions (43_cdc_sync R195, R196). While the counts stay, each synchroniser samples one pointer over and over
(`Samples`), so its steps push that pointer through to the view, where it stays; and with no step of it the view never moves. -/

namespace Sys2Proof.Machine

/-! ## A synchroniser that samples one pointer -/

/-- From step `n` on the stages move by the steps of `a` alone, each of which samples `ptr`. -/
def Samples (a : Agent) (agents : Nat → Agent) (chain : Nat → List Ptr) (ptr : Ptr) (n : Nat) : Prop :=
  ∀ m, n ≤ m → chain (m + 1) = if agents m = a then shiftChain (chain m) ptr else chain m

section Sampling

variable {a : Agent} {agents : Nat → Agent} {chain : Nat → List Ptr} {ptr : Ptr} {n : Nat} (h : Samples a agents chain ptr n)

include h

theorem Samples.eq_shifted (k : Nat) : chain (n + k) = shifted ptr (stepsOf a agents n k) (chain n) := by
  induction k with
  | zero => rfl
  | succ k ih =>
    rw [← Nat.add_assoc, h (n + k) (Nat.le_add_right n k), stepsOf_succ, ih]
    split
    · exact (shifted_succ _ _ _).symm
    · rfl

/-- As many steps as there are stages bring every stage to the pointer. -/
theorem Samples.shown_of_steps (k : Nat) (hk : (chain n).length ≤ stepsOf a agents n k) : ∀ x ∈ chain (n + k), x = ptr := by
  rw [h.eq_shifted, shifted_of_le _ _ _ hk]
  exact fun _ => List.eq_of_mem_replicate

/-- Once every stage holds the pointer there is nothing to shift in. -/
theorem Samples.shown_stays (k : Nat) (hk : n ≤ k) (shown : ∀ x ∈ chain k, x = ptr) (m : Nat) (hm : k ≤ m) :
    ∀ x ∈ chain m, x = ptr := by
  induction m, hm using Nat.le_induction with
  | base => exact shown
  | succ m hm ih =>
    rw [h m (hk.trans hm), (shiftChain_eq_self _ _).2 ih, ite_self]
    exact ih

/-- A weakly fair synchroniser brings every stage to the pointer, for good: were it enabled for ever, it would step often enough. -/
theorem Samples.shown_of_fair {enabled : State → Bool} {run : Nat → State} (fair : WeaklyFairFor a enabled agents run)
    (he : ∀ m, n ≤ m → enabled (run m) = syncEnabled (chain m) ptr) :
    ∃ k, n ≤ k ∧ ∀ m, k ≤ m → ∀ x ∈ chain m, x = ptr := by
  obtain ⟨k, hk, shown⟩ : ∃ k, n ≤ k ∧ ∀ x ∈ chain k, x = ptr := by
    by_contra never
    have always : ∀ m, n ≤ m → enabled (run m) = true := by
      intro m hm
      rw [he m hm, ← Bool.not_eq_false, syncEnabled_eq_false]
      exact fun shown => never ⟨m, hm, shown⟩
    obtain ⟨k, hk⟩ := fair_steps a enabled agents run fair n always (chain n).length
    exact never ⟨n + k, Nat.le_add_right n k, h.shown_of_steps k hk⟩
  exact ⟨k, hk, h.shown_stays k hk shown⟩

end Sampling

/-! ## Executions -/

/-- Commits only add up. -/
theorem ProducerMove.wc_le {s t : State} (m : ProducerMove s t) (hwf : s.hostP.Wf) : wc s ≤ wc t := by
  cases m with
  | stays m => rw [wc, wc, m.view hwf]
  | cleared _ _ _ _ view => rw [wc, wc, view]
  | wrote _ _ _ _ _ _ view => rw [wc, wc, view]
  | committed _ _ _ _ _ _ view => rw [wc, wc, view, List.length_append]; exact Nat.le_add_right _ _

theorem Invariant.wptr_eq {s : State} (h : Invariant s) : s.wptr = grayOf s.cfg.ptrW (wc s) := by
  obtain ⟨wqc, rqc, counts⟩ := h.counts
  exact counts.wptr

theorem Invariant.rptr_eq {s : State} (h : Invariant s) : s.rptr = grayOf s.cfg.ptrW (rc s) := by
  obtain ⟨wqc, rqc, counts⟩ := h.counts
  exact counts.rptr

section Executions

variable {agents : Nat → Agent} {run : Nat → State} (hx : Execution agents run)

include hx

theorem Execution.wq_succ (m : Nat) :
    (run (m + 1)).wq = if agents m = .syncW then shiftChain (run m).wq (run m).wptr else (run m).wq := by
  have hst := hx m
  split
  · rename_i turn
    rw [turn, step_scheduling] at hst
    rw [← Host.Outcome.next.inj hst]
    rfl
  · rename_i other
    obtain ⟨-, -, -, wq, -⟩ := singleWriter _ _ hst
    exact wq (by simpa using other)

theorem Execution.rq_succ (m : Nat) :
    (run (m + 1)).rq = if agents m = .syncR then shiftChain (run m).rq (run m).rptr else (run m).rq := by
  have hst := hx m
  split
  · rename_i turn
    rw [turn, step_scheduling] at hst
    rw [← Host.Outcome.next.inj hst]
    rfl
  · rename_i other
    obtain ⟨-, -, -, -, rq⟩ := singleWriter _ _ hst
    exact rq (by simpa using other)

variable {n : Nat} (inv : Invariant (run n))

include inv

/-- The invariant and the build stay, and the counts only grow. -/
theorem Execution.keeps (m : Nat) (hm : n ≤ m) :
    Invariant (run m) ∧ (run m).cfg = (run n).cfg ∧ wc (run n) ≤ wc (run m) ∧ rc (run n) ≤ rc (run m) := by
  induction m, hm using Nat.le_induction with
  | base => exact ⟨inv, rfl, le_rfl, le_rfl⟩
  | succ m hm ih =>
    obtain ⟨invm, cfg, commits, removals⟩ := ih
    have scheduled : Invariant (scheduling (agents m) (run m)) := invariant_sched _ _ invm
    have more : wc (run m) ≤ wc (run (m + 1)) := by
      have move := (execution_effect agents run hx m).producerMove invm.wf.hostP
      exact move.wc_le invm.wf.hostP
    have gone : rc (run m) ≤ rc (run (m + 1)) := by
      rcases step_removal _ _ (hx m) invm.wf.hostC with ⟨-, same⟩ | removed
      · exact same.ge
      · exact (Nat.le_succ _).trans removed.ge
    exact ⟨invariantKept _ _ scheduled (hx m), (singleWriter _ _ (hx m)).1.trans cfg, commits.trans more, removals.trans gone⟩

/-- With a unit waiting and never removed there is no room for a commit. -/
theorem Execution.wc_stays (one : occupancy (run n) = 1) (kept : ∀ m, n ≤ m → rc (run m) = rc (run n)) (m : Nat)
    (hm : n ≤ m) : wc (run m) = wc (run n) := by
  obtain ⟨invm, -, commits, -⟩ := hx.keeps inv m hm
  obtain ⟨-, window⟩ := invm.window
  rw [occupancy] at one
  rw [kept m hm] at window
  omega

/-- With no unit and no commit there is nothing to remove. -/
theorem Execution.rc_stays (empty : occupancy (run n) = 0) (kept : ∀ m, n ≤ m → wc (run m) = wc (run n)) (m : Nat)
    (hm : n ≤ m) : rc (run m) = rc (run n) := by
  obtain ⟨invm, -, -, removals⟩ := hx.keeps inv m hm
  obtain ⟨behind, -⟩ := invm.window
  rw [occupancy] at empty
  rw [kept m hm] at behind
  omega

theorem Execution.wptr_stays (stays : ∀ m, n ≤ m → wc (run m) = wc (run n)) (m : Nat) (hm : n ≤ m) :
    (run m).wptr = (run n).wptr := by
  obtain ⟨invm, cfg, -⟩ := hx.keeps inv m hm
  rw [invm.wptr_eq, inv.wptr_eq, cfg, stays m hm]

theorem Execution.rptr_stays (stays : ∀ m, n ≤ m → rc (run m) = rc (run n)) (m : Nat) (hm : n ≤ m) :
    (run m).rptr = (run n).rptr := by
  obtain ⟨invm, cfg, -⟩ := hx.keeps inv m hm
  rw [invm.rptr_eq, inv.rptr_eq, cfg, stays m hm]

/-- A waiting unit that is never removed is seen by port C, under fairness for good and after `S` SyncW steps in any case. -/
theorem Execution.commit_seen (one : occupancy (run n) = 1) (kept : ∀ m, n ≤ m → rc (run m) = rc (run n)) :
    (WeaklyFair agents run → ∃ k, n ≤ k ∧ ∀ m, k ≤ m → emptyC (run m) = false) ∧
    ∀ k, (run n).cfg.stages ≤ stepsOf .syncW agents n k → emptyC (run (n + k)) = false := by
  have stays := hx.wc_stays inv one kept
  have wptr := hx.wptr_stays inv stays
  have samples : Samples .syncW agents (fun m => (run m).wq) (run n).wptr n := fun m hm => wptr m hm ▸ hx.wq_succ m
  have seen : ∀ m, n ≤ m → (∀ x ∈ (run m).wq, x = (run n).wptr) → emptyC (run m) = false := by
    intro m hm shown
    obtain ⟨invm, -⟩ := hx.keeps inv m hm
    rw [← wptr m hm] at shown
    rw [← Bool.not_eq_true, invm.emptyC_iff_of_view (lastStage_of_forall_eq _ _ shown), stays m hm, kept m hm]
    rw [occupancy] at one
    omega
  constructor
  · intro fair
    obtain ⟨k, hk, shown⟩ := samples.shown_of_fair fair.1 fun m hm => by rw [wptr m hm]
    exact ⟨k, hk, fun m hm => seen m (hk.trans hm) (shown m hm)⟩
  · intro k hk
    exact seen _ (Nat.le_add_right n k) (samples.shown_of_steps k (inv.wf.wqLength.trans_le hk))

/-- A removed unit with no commit after it is seen by port P, under fairness for good and after `S` SyncR steps in any case. -/
theorem Execution.removal_seen (empty : occupancy (run n) = 0) (kept : ∀ m, n ≤ m → wc (run m) = wc (run n)) :
    (WeaklyFair agents run → ∃ k, n ≤ k ∧ ∀ m, k ≤ m → fullP (run m) = false) ∧
    ∀ k, (run n).cfg.stages ≤ stepsOf .syncR agents n k → fullP (run (n + k)) = false := by
  have stays := hx.rc_stays inv empty kept
  have rptr := hx.rptr_stays inv stays
  have samples : Samples .syncR agents (fun m => (run m).rq) (run n).rptr n := fun m hm => rptr m hm ▸ hx.rq_succ m
  have seen : ∀ m, n ≤ m → (∀ x ∈ (run m).rq, x = (run n).rptr) → fullP (run m) = false := by
    intro m hm shown
    obtain ⟨invm, -⟩ := hx.keeps inv m hm
    obtain ⟨behind, -⟩ := inv.window
    rw [← rptr m hm] at shown
    rw [← Bool.not_eq_true, invm.fullP_iff_of_view (lastStage_of_forall_eq _ _ shown), stays m hm, kept m hm]
    rw [occupancy] at empty
    omega
  constructor
  · intro fair
    obtain ⟨k, hk, shown⟩ := samples.shown_of_fair fair.2 fun m hm => by rw [rptr m hm]
    exact ⟨k, hk, fun m hm => seen m (hk.trans hm) (shown m hm)⟩
  · intro k hk
    exact seen _ (Nat.le_add_right n k) (samples.shown_of_steps k (inv.wf.rqLength.trans_le hk))

end Executions

/-! ## Without fairness -/

/-- The default build after an empty unit is committed, with no SyncW step since. -/
def committedUnseen : State :=
  { State.reset with
    wptr := 1, slot := [(0, 2), (1, 0)]
    hostP := { cmds := [0x2000, 0x5200], idx := 2, rsps := [0x1B, 0] } }

/-- The same unit seen, peeked and removed, with no SyncR step since. -/
def removedUnseen : State :=
  { committedUnseen with
    rptr := 1, wq := [1, 1]
    hostC := { cmds := [0xA000, 0xC100], idx := 2, rsps := [0x200, 1] } }

theorem invariant_committedUnseen : Invariant committedUnseen :=
  (invariant_launch Config.default [0x2000, 0x5200] [] [.portP, .portP] (by decide)).run 2 rfl

theorem invariant_removedUnseen : Invariant removedUnseen :=
  (invariant_launch Config.default [0x2000, 0x5200] [0xA000, 0xC100] [.portP, .portP, .syncW, .syncW, .portC, .portC]
    (by decide)).run 6 rfl

theorem emptyC_committedUnseen : emptyC committedUnseen = true := by decide

theorem fullP_removedUnseen : fullP removedUnseen = true := by decide

/-- Settles O17: `commit_seen` and `removal_seen`, and two executions in which a port whose words have run out takes every step. -/
theorem fairViewsCatchUp : Obligations.FairViewsCatchUp := by
  unfold Obligations.FairViewsCatchUp
  refine ⟨fun agents run n hx inv one kept => ?_, fun agents run n hx inv empty kept => ?_, ?_, ?_⟩
  · obtain ⟨fairly, bounded⟩ := hx.commit_seen inv one kept
    refine ⟨fun fair => ?_, bounded⟩
    obtain ⟨k, hk, data⟩ := fairly fair
    refine ⟨k, hk, fun m hm => ⟨data m hm, fun h0 => ?_⟩⟩
    rw [cHasdataAnswers.2 _ h0, data m hm]
    rfl
  · obtain ⟨fairly, bounded⟩ := hx.removal_seen inv empty kept
    refine ⟨fun fair => ?_, bounded⟩
    obtain ⟨k, hk, free⟩ := fairly fair
    refine ⟨k, hk, fun m hm => ⟨free m hm, fun h0 => ?_⟩⟩
    obtain ⟨invm, -⟩ := hx.keeps inv m (hk.trans hm)
    rw [pFreeAnswers.2 _ invm.wf.cfg h0, free m hm]
    rfl
  · exact ⟨fun _ => .portP, fun _ => committedUnseen, fun _ => rfl, invariant_committedUnseen, rfl, fun _ => rfl,
      fun _ => emptyC_committedUnseen⟩
  · exact ⟨fun _ => .portP, fun _ => removedUnseen, fun _ => rfl, invariant_removedUnseen, rfl, fun _ => rfl,
      fun _ => fullP_removedUnseen⟩

end Sys2Proof.Machine
end

section
/-! PROOFS. The faults a port records (60_exceptions R203 to R209, R211, R212): the one thing a step that changes a fault field
does, the commands that fault `PROTOCOL`, and the commands a faulted port turns away. -/

namespace Sys2Proof.Machine

/-! ## Recording a fault -/

/-- What the table of 60_exceptions R204 asks for the two faults of the queue, behind the check for `PROTOCOL` (R209). -/
structure QueueCause (code : FaultCode) (s : State) : Prop where
  enqueue : code = .invEnqueue → s.pAct = true ∧ fullP s = true
  dequeue : code = .invDequeue → s.cAct = true ∧ emptyC s = true

/-- Taking a word moves nothing that a cause reads. -/
theorem QueueCause.of_advance {code : FaultCode} {port : Port} {s : State} {l : List Agent}
    (h : QueueCause code (advance port { s with sched := l })) : QueueCause code s := by
  have full : fullP (advance port { s with sched := l }) = fullP s := fullP_congr s _ (by simp) (by simp) (by simp [rsync])
  have empty : emptyC (advance port { s with sched := l }) = emptyC s := emptyC_congr s _ (by simp) (by simp) (by simp [wsync])
  exact ⟨by simpa [full] using h.enqueue, by simpa [empty] using h.dequeue⟩

/-- A fault entry writes the fault field of its own port, and that once (60_exceptions R205). -/
theorem portFault_fault (port port' : Port) (code : FaultCode) (u : State) :
    portFault port (respond port' .fault 0#8 0#8 (recordFault port' code u)) =
      if port' = port ∧ portFault port u = 0#3 then code.code else portFault port u := by
  cases port <;> cases port' <;> simp

theorem portFault_advance (port port' : Port) (s : State) (l : List Agent) :
    portFault port (advance port' { s with sched := l }) = portFault port s := by
  cases port <;> simp

/-- A fault field that a port's fault entry changes is the port's own, without a code before. -/
theorem fault_changed {port port' : Port} {code : FaultCode} {u : State}
    (h : portFault port (respond port' .fault 0#8 0#8 (recordFault port' code u)) ≠ portFault port u) :
    port' = port ∧ portFault port u = 0#3 := by
  by_contra hn
  exact h ((portFault_fault port port' code u).trans (if_neg hn))

/-- A command changes a fault field only by the fault entry of its own port, which finds no code and has its cause. -/
theorem exec_recordsFault {port : Port} {i : Instr} {u t : State} (hx : exec i u = .next t)
    (h : portFault port t ≠ portFault port u) :
    i.port = port ∧ portFault port u = 0#3 ∧ ∃ code, QueueCause code u ∧ raiseFault port code u = .next t := by
  cases hp : i.port with
  | p =>
    cases exec_producer i u t hp hx with
    | faulted _ code _ cause =>
      obtain ⟨rfl, h0⟩ := fault_changed h
      exact ⟨rfl, h0, code, ⟨by rintro rfl; simpa using cause, by rintro rfl; simp at cause⟩, rfl⟩
    | _ => exact absurd (by cases port <;> rfl) h
  | c =>
    cases exec_consumer i u t hp hx with
    | faulted _ code _ cause =>
      obtain ⟨rfl, h0⟩ := fault_changed h
      exact ⟨rfl, h0, code, ⟨by rintro rfl; simp at cause, by rintro rfl; simpa using cause⟩, rfl⟩
    | _ => exact absurd (by cases port <;> rfl) h

/-- A step that changes a port's fault field is that port's fault entry, past the word taken. -/
theorem step_recordsFault {port : Port} {s t : State} (hst : step s = .next t) (h : portFault port t ≠ portFault port s) :
    portFault port s = 0#3 ∧
      ∃ l code, QueueCause code s ∧ raiseFault port code (advance port { s with sched := l }) = .next t := by
  cases step_effect s t hst with
  | illegal port' a rest =>
    rw [← portFault_advance port port' s rest] at h
    obtain ⟨rfl, h0⟩ := fault_changed h
    exact ⟨(portFault_advance port' port' s rest).symm.trans h0, rest, .illegal, ⟨nofun, nofun⟩, rfl⟩
  | command port' a rest _ hs ha w i hw hd hx =>
    rw [← portFault_advance port port' s rest] at h
    obtain ⟨hp, h0, code, cause, entry⟩ := exec_recordsFault hx h
    obtain rfl : port' = port := (decode_port port' w i hd).symm.trans hp
    exact ⟨(portFault_advance port' port' s rest).symm.trans h0, rest, code, cause.of_advance, entry⟩
  | _ => exact absurd (by cases port <;> rfl) h

/-- A recorded code stays (60_exceptions R205, R212). -/
theorem step_keeps_fault (port : Port) {s t : State} (hst : step s = .next t) (h : portFault port s ≠ 0#3) :
    portFault port t = portFault port s := by
  by_contra changed
  exact h (step_recordsFault hst changed).1

/-- Settles O35: a change is a fault entry, which finds no code, and a fault field is written by its own port. -/
theorem faultsSticky : Obligations.FaultsSticky := by
  unfold Obligations.FaultsSticky
  intro s t hst
  obtain ⟨-, notP, notC, -⟩ := singleWriter s t hst
  refine ⟨step_keeps_fault .p hst, step_keeps_fault .c hst, fun changed => ?_, fun changed => ?_⟩
  · by_contra other
    obtain ⟨-, -, -, same, -⟩ := notP other
    exact changed same
  · by_contra other
    obtain ⟨-, -, -, same, -⟩ := notC other
    exact changed same

/-- Settles O36: the fault entry writes the fault field and the response, and the port's frame holds the rest. -/
theorem faultsPrecise : Obligations.FaultsPrecise := by
  unfold Obligations.FaultsPrecise
  intro s t hst
  constructor
  · intro changed
    obtain ⟨-, l, code, -, entry⟩ := step_recordsFault (port := .p) hst changed
    cases entry
    obtain ⟨-, domainC, rq, -⟩ := (producerKeeps_advance s l).trans (producerKeeps_fault _ code)
    exact ⟨by simp, rq, by simp, by simp, domainC, by simp⟩
  · intro changed
    obtain ⟨-, l, code, -, entry⟩ := step_recordsFault (port := .c) hst changed
    cases entry
    obtain ⟨-, domainP, wq, slot, -⟩ := (consumerKeeps_advance s l).trans (consumerKeeps_fault _ code)
    exact ⟨by simp, wq, by simp, by simp, domainP, slot⟩

/-! ## The codes no run records -/

theorem FaultCode.code_injective : Function.Injective FaultCode.code := by
  intro a b
  cases a <;> cases b <;> decide

/-- A step leaves a fault field or writes there a code that has its cause. -/
theorem step_portFault (port : Port) {s t : State} (hst : step s = .next t) :
    portFault port t = portFault port s ∨ ∃ code, QueueCause code s ∧ portFault port t = code.code := by
  by_cases changed : portFault port t = portFault port s
  · exact .inl changed
  · obtain ⟨h0, l, code, cause, entry⟩ := step_recordsFault hst changed
    cases entry
    refine .inr ⟨code, cause, (portFault_fault port port code _).trans (if_pos ⟨rfl, ?_⟩)⟩
    rwa [portFault_advance]

/-- An open transaction of port P finds the slot free and one of port C finds the unit, so neither cause arises. -/
theorem Invariant.code_of_cause {s : State} {code : FaultCode} (inv : Invariant s) (h : QueueCause code s) :
    code ≠ .invEnqueue ∧ code ≠ .invDequeue := by
  constructor
  · intro enqueue
    obtain ⟨opened, full⟩ := h.enqueue enqueue
    exact absurd full (by simp [inv.free opened])
  · intro dequeue
    obtain ⟨opened, empty⟩ := h.dequeue dequeue
    obtain ⟨-, -, -, data, -⟩ := inv.consuming (.inr opened)
    exact absurd empty (by simp [data])

/-- Neither fault of the queue is recorded (60_exceptions R208). -/
structure NoQueueFault (s : State) : Prop where
  enqueue : s.pFault ≠ FaultCode.invEnqueue.code
  dequeue : s.cFault ≠ FaultCode.invDequeue.code

theorem NoQueueFault.step {s t : State} (h : NoQueueFault s) (inv : Invariant s) (hst : Machine.step s = .next t) :
    NoQueueFault t where
  enqueue := by
    rcases step_portFault .p hst with same | ⟨code, cause, recorded⟩
    · exact same.trans_ne h.enqueue
    · exact recorded.trans_ne (FaultCode.code_injective.ne (inv.code_of_cause cause).1)
  dequeue := by
    rcases step_portFault .c hst with same | ⟨code, cause, recorded⟩
    · exact same.trans_ne h.dequeue
    · exact recorded.trans_ne (FaultCode.code_injective.ne (inv.code_of_cause cause).2)

/-- What every step from a state of the invariant keeps holds along a run. -/
theorem Invariant.run_keeps {P : State → Prop} (keeps : ∀ a b, Invariant a → P a → Machine.step a = .next b → P b)
    {s u : State} (k : Nat) (inv : Invariant s) (hP : P s) (h : Host.Core.run core k s = .next u) : P u := by
  induction k generalizing s with
  | zero => cases h; exact hP
  | succ k ih =>
    obtain ⟨t, hst, htu⟩ := run_succ s u k h
    exact ih (invariantKept s t inv hst) (keeps s t inv hP hst) htu

/-- Settles O49: reset records no fault, and a step from the invariant records neither code. -/
theorem unreachableFaults : Obligations.UnreachableFaults := by
  unfold Obligations.UnreachableFaults
  intro c ps cs sched k u hv hrun
  have start : NoQueueFault (launch c ps cs sched) := ⟨show 0#3 ≠ 2#3 by decide, show 0#3 ≠ 3#3 by decide⟩
  have last : NoQueueFault u :=
    (invariant_launch c ps cs sched hv).run_keeps (fun _ _ inv h hst => h.step inv hst) k start hrun
  exact ⟨last.enqueue, last.dequeue⟩

/-! ## Commands out of their sequence -/

/-- A command that finds a transaction open where it wants none faults `PROTOCOL` (60_exceptions R207), on port P. -/
theorem opened_protocol {s : State} (h0 : s.pFault = 0#3) (body : Result) (ha : s.pAct = true) :
    unlessFaulted .p s (if s.pAct then raiseFault .p .protocol s else body) =
      .next (answerP { s with pFault := 4#3 } 0xE0000000#32) := by
  rw [unlessFaulted_of .p s _ h0, if_pos ha, raiseFault_p_of_unfaulted .protocol s h0]
  rfl

theorem exec_pFree_unfaulted (s : State) (h0 : s.pFault = 0#3) : ∃ t, exec .pFree s = .next t ∧ t.pFault = 0#3 := by
  rw [exec, execPFree, unlessFaulted_of .p s _ h0]
  split <;> exact ⟨_, rfl, h0⟩

/-- Settles O33: the check for the open transaction comes first in each command, and the queries have none. -/
theorem protocolFaults : Obligations.ProtocolFaults := by
  unfold Obligations.ProtocolFaults
  refine ⟨fun s i h0 => ⟨?_, ?_⟩, fun s i h0 => ⟨?_, ?_⟩⟩
  · rintro (⟨ha, n, rfl⟩ | ⟨ha, ⟨b, rfl⟩ | rfl | ⟨llid, rfl⟩ | rfl⟩)
    · exact opened_protocol h0 _ ha
    · exact closed_protocol h0 _ ha
    · exact closed_protocol h0 _ ha
    · exact closed_protocol h0 _ ha
    · exact closed_protocol h0 _ ha
  · rintro (rfl | rfl)
    · exact exec_pFree_unfaulted s h0
    · exact ⟨_, exec_pStat s, h0⟩
  · rintro (⟨ha, rfl⟩ | ⟨ha, ⟨k, rfl⟩ | ⟨f, rfl⟩⟩)
    · exact (cPeekResult.2 s h0).1 ha
    · exact consumerClosed_protocol h0 _ ha
    · exact consumerClosed_protocol h0 _ ha
  · rintro (rfl | rfl)
    · exact ⟨_, cHasdataAnswers.2 s h0, h0⟩
    · exact ⟨_, exec_cStat s, h0⟩

/-! ## A faulted port -/

/-- Every command but a status command passes the check for a recorded fault first (41_producer R120, 42_consumer R150). -/
theorem exec_checks_fault (i : Instr) (s : State) (h : i.isStatus = false) :
    ∃ body, exec i s = unlessFaulted i.port s body := by
  cases i with
  | pStat => cases h
  | cStat => cases h
  | _ => exact ⟨_, rfl⟩

theorem exec_of_faulted (i : Instr) (s : State) (h : i.isStatus = false) (hf : portFault i.port s ≠ 0#3) :
    exec i s = .next (respond i.port .fault 0#8 0#8 s) := by
  obtain ⟨body, hx⟩ := exec_checks_fault i s h
  rw [hx, unlessFaulted, if_pos hf]

theorem isStatus_eq_false_of_p {i : Instr} (hp : i.port = .p) (h : i ≠ .pStat) : i.isStatus = false := by
  cases i with
  | pStat => exact absurd rfl h
  | cStat => cases hp
  | _ => rfl

theorem isStatus_eq_false_of_c {i : Instr} (hp : i.port = .c) (h : i ≠ .cStat) : i.isStatus = false := by
  cases i with
  | pStat => cases hp
  | cStat => exact absurd rfl h
  | _ => rfl

/-- Settles O34: the check for a recorded fault, on each port. -/
theorem faultedPortAnswers : Obligations.FaultedPortAnswers := by
  unfold Obligations.FaultedPortAnswers
  constructor
  · intro s i hp hi hf
    have turned := exec_of_faulted i s (isStatus_eq_false_of_p hp hi) (by rwa [hp])
    rw [turned, hp]
    rfl
  · intro s i hp hi hf
    have turned := exec_of_faulted i s (isStatus_eq_false_of_c hp hi) (by rwa [hp])
    rw [turned, hp]
    rfl

end Sys2Proof.Machine
end

section
/-! PROOFS. Commands of the two ports commute (60_exceptions R210, 43_cdc_sync R189). A producer command runs alike whatever domain
C holds, and a consumer command whatever domain P holds, so the two orders end in the same state, joined from each one's own. -/

namespace Sys2Proof.Machine

/-! ## Results that differ by a map of the state -/

/-- The result with its next state, if it has one, mapped. -/
def mapNext (f : State → State) (x : Result) : Result :=
  match x with
  | .next t => .next (f t)
  | .fault r => .fault r
  | .refused r => .refused r

theorem mapNext_eq_next {f : State → State} {x : Result} {b : State} :
    mapNext f x = .next b ↔ ∃ t, x = .next t ∧ f t = b := by
  cases x <;> simp [mapNext]

/-- The second result is the first, its next state mapped. -/
def Carries (f : State → State) (x y : Result) : Prop := y = mapNext f x

section Rules

variable {f : State → State} {s u : State}

theorem Carries.next {t t' : State} (h : t' = f t) : Carries f (.next t) (.next t') :=
  congrArg Host.Outcome.next h

theorem Carries.ite {c d : Prop} [Decidable c] [Decidable d] {x x' y y' : Result} (hcd : d ↔ c) (hx : c → Carries f x y)
    (hx' : ¬c → Carries f x' y') : Carries f (if c then x else x') (if d then y else y') := by
  by_cases hc : c
  · rw [if_pos hc, if_pos (hcd.2 hc)]
    exact hx hc
  · rw [if_neg hc, if_neg (mt hcd.1 hc)]
    exact hx' hc

theorem Carries.withByte {k l : Byte → Result} (a : Nat) (hcfg : u.cfg = s.cfg) (hslot : u.slot = s.slot)
    (hk : ∀ v, Carries f (k v) (l v)) : Carries f (withByte s a k) (withByte u a l) := by
  unfold Machine.withByte
  rw [hcfg, hslot]
  refine .ite Iff.rfl (fun _ => ?_) (fun _ => rfl)
  cases memGet s.slot a with
  | some v => exact hk v
  | none => rfl

theorem Carries.storing {k l : State → Result} (a : Nat) (v : Byte) (hcfg : u.cfg = s.cfg)
    (hk : Carries f (k { s with slot := memPut s.slot a v }) (l { u with slot := memPut u.slot a v })) :
    Carries f (storing s a v k) (storing u a v l) :=
  .ite (by rw [hcfg]) (fun _ => hk) (fun _ => rfl)

end Rules

/-! ## A state joined from the two domains -/

/-- Domain C and host C of `c`, with everything else of `p`. -/
def joined (p c : State) : State :=
  { p with rptr := c.rptr, wq := c.wq, cAct := c.cAct, cLen := c.cLen, cFault := c.cFault, hostC := c.hostC }

/-- A producer command's own part is the whole of its effect. -/
theorem ProducerKeeps.joined_eq {s t : State} (k : ProducerKeeps s t) : joined t s = t := by
  obtain ⟨-, ⟨rptr, wq, cAct, cLen, cFault⟩, -, hostC⟩ := k
  rw [joined, ← rptr, ← wq, ← cAct, ← cLen, ← cFault, ← hostC]

/-- A consumer command's own part, with the schedule as it was, is the whole of its effect. -/
theorem ConsumerKeeps.joined_eq {s t : State} (k : ConsumerKeeps s t) (sched : t.sched = s.sched) : joined s t = t := by
  obtain ⟨cfg, ⟨wptr, rq, pAct, wcnt, pFault⟩, -, slot, hostP⟩ := k
  rw [joined, ← wptr, ← rq, ← pAct, ← wcnt, ← pFault, ← cfg, ← slot, ← hostP, ← sched]

/-! ## Each port's commands on a joined state -/

section Producer

variable {s c : State}

theorem Carries.raiseFault_p (code : FaultCode) :
    Carries (joined · c) (raiseFault .p code s) (raiseFault .p code (joined s c)) := by
  rw [Machine.raiseFault_p, Machine.raiseFault_p]
  rfl

theorem Carries.unlessFaulted_p {x y : Result} (h : Carries (joined · c) x y) :
    Carries (joined · c) (unlessFaulted .p s x) (unlessFaulted .p (joined s c) y) :=
  .ite Iff.rfl (fun _ => rfl) (fun _ => h)

/-- Where `FULL_P` does not read domain C, a producer command does nothing with it. -/
theorem exec_joined_p (i : Instr) (hp : i.port = .p) (full : fullP (joined s c) = fullP s) :
    Carries (joined · c) (exec i s) (exec i (joined s c)) := by
  have seen : fullP (joined s c) = true ↔ fullP s = true := by rw [full]
  cases i with
  | pFree => exact .unlessFaulted_p (.ite seen (fun _ => rfl) (fun _ => rfl))
  | pBegin n =>
    exact .unlessFaulted_p (.ite Iff.rfl (fun _ => .raiseFault_p _) (fun _ =>
      .ite Iff.rfl (fun _ => .raiseFault_p _) (fun _ => .ite seen (fun _ => rfl) (fun _ => rfl))))
  | pWrite b =>
    exact .unlessFaulted_p (.ite Iff.rfl (fun _ => .raiseFault_p _) (fun _ =>
      .ite Iff.rfl (fun _ => rfl) (fun _ => .storing _ _ rfl rfl)))
  | pSpace => exact .unlessFaulted_p (.ite Iff.rfl (fun _ => .raiseFault_p _) (fun _ => rfl))
  | pCommit llid =>
    exact .unlessFaulted_p (.ite Iff.rfl (fun _ => .raiseFault_p _) (fun _ =>
      .ite seen (fun _ => .raiseFault_p _) (fun _ => .storing _ _ rfl (.storing _ _ rfl rfl))))
  | pCancel => exact .unlessFaulted_p (.ite Iff.rfl (fun _ => .raiseFault_p _) (fun _ => rfl))
  | pStat =>
    have status : pStatus (joined s c) = pStatus s := by rw [pStatus, full]; rfl
    exact .next (by rw [status]; rfl)
  | cHasdata => cases hp
  | cPeek => cases hp
  | cRead _ => cases hp
  | cRelease _ => cases hp
  | cStat => cases hp

end Producer

section Consumer

variable {p s : State}

theorem Carries.raiseFault_c (code : FaultCode) :
    Carries (joined p) (raiseFault .c code s) (raiseFault .c code (joined p s)) := by
  rw [Machine.raiseFault_c, Machine.raiseFault_c]
  rfl

theorem Carries.unlessFaulted_c {x y : Result} (h : Carries (joined p) x y) :
    Carries (joined p) (unlessFaulted .c s x) (unlessFaulted .c (joined p s) y) :=
  .ite Iff.rfl (fun _ => rfl) (fun _ => h)

/-- Where `EMPTY_C` does not read domain P, a consumer command reads outside its own domain the build and, where it sees a unit or
has one open, the storage. -/
theorem exec_joined_c (i : Instr) (hp : i.port = .c) (hcfg : p.cfg = s.cfg) (empty : emptyC (joined p s) = emptyC s)
    (slot : emptyC s = false ∨ s.cAct = true → p.slot = s.slot) : Carries (joined p) (exec i s) (exec i (joined p s)) := by
  have seen : emptyC (joined p s) = true ↔ emptyC s = true := by rw [empty]
  cases i with
  | pFree => cases hp
  | pBegin _ => cases hp
  | pWrite _ => cases hp
  | pSpace => cases hp
  | pCommit _ => cases hp
  | pCancel => cases hp
  | pStat => cases hp
  | cHasdata => exact .unlessFaulted_c (.ite seen (fun _ => rfl) (fun _ => rfl))
  | cPeek =>
    refine .unlessFaulted_c (.ite Iff.rfl (fun _ => .raiseFault_c _) (fun _ => .ite seen (fun _ => rfl) (fun data => ?_)))
    have same := slot (.inl (by simpa using data))
    have bound : (joined p s).cfg.maxPayload = s.cfg.maxPayload := congrArg Config.maxPayload hcfg
    exact .withByte 0 hcfg same fun h0 => .withByte 1 hcfg same fun h1 =>
      .ite (by rw [bound]) (fun _ => rfl) (fun _ => rfl)
  | cRead i =>
    refine .unlessFaulted_c (.ite Iff.rfl (fun _ => .raiseFault_c _) (fun opened => .ite Iff.rfl (fun _ => rfl) (fun _ => ?_)))
    exact .withByte _ hcfg (slot (.inr (by simpa using opened))) fun v => rfl
  | cRelease f =>
    refine .unlessFaulted_c (.ite Iff.rfl (fun _ => .raiseFault_c _) (fun _ => .ite (by rw [empty]) (fun _ => .raiseFault_c _)
      (fun _ => .ite Iff.rfl (fun _ => .next ?_) (fun _ => rfl))))
    show respond .c .ok 0#8 1#8 { joined p s with rptr := grayInc p.cfg.ptrW s.rptr, cAct := false, cLen := 0#8 } = _
    rw [hcfg]
    rfl
  | cStat =>
    have status : cStatus (joined p s) = cStatus s := by rw [cStatus, empty]; rfl
    exact .next (by rw [status]; rfl)

end Consumer

/-! ## The two orders -/

section Orders

variable {s : State} {ip ic : Instr} (inv : Invariant s) (stage : 1 ≤ s.cfg.stages) (hip : ip.port = .p) (hic : ic.port = .c)

include inv stage hip hic

/-- After a producer command a consumer command does what it did before: the producer moves no stage, and what it may write in
the storage port C cannot read (20_memory R60). -/
theorem exec_consumer_after {a : State} (hx : exec ip s = .next a) : exec ic a = mapNext (joined a) (exec ic s) := by
  have e := exec_producer ip s a hip hx
  have wq : s.wq ≠ [] := List.ne_nil_of_length_pos (by rw [inv.wf.wqLength]; exact stage)
  have empty : emptyC (joined a s) = emptyC s := emptyC_of_sameDomainC s _ wq e.keeps.cfg ⟨rfl, rfl, rfl, rfl, rfl⟩
  have slot (readable : emptyC s = false ∨ s.cAct = true) : a.slot = s.slot := by
    obtain ⟨-, closed, -⟩ := inv.consuming readable
    exact e.slot_of_closed closed
  have same := exec_joined_c ic hic e.keeps.cfg empty slot
  rwa [e.keeps.joined_eq] at same

/-- After a consumer command a producer command does what it did before: the consumer moves no stage. -/
theorem exec_producer_after {c : State} (hx : exec ic s = .next c) : exec ip c = mapNext (joined · c) (exec ip s) := by
  have e := exec_consumer ic s c hic hx
  have rq : s.rq ≠ [] := List.ne_nil_of_length_pos (by rw [inv.wf.rqLength]; exact stage)
  have full : fullP (joined s c) = fullP s := fullP_of_sameDomainP s _ rq rfl ⟨rfl, rfl, rfl, rfl, rfl⟩
  have same := exec_joined_p (c := c) ip hip full
  rwa [e.keeps.joined_eq e.sched_frame] at same

end Orders

/-- Settles O58: in either order both commands complete from `s`, and the end is joined from their two ends. -/
theorem portsCommute : Obligations.PortsCommute := by
  unfold Obligations.PortsCommute
  intro s b ip ic inv stage hip hic
  constructor
  · rintro ⟨a, ha, hb⟩
    rw [exec_consumer_after inv stage hip hic ha] at hb
    obtain ⟨c, hc, rfl⟩ := mapNext_eq_next.1 hb
    refine ⟨c, hc, ?_⟩
    rw [exec_producer_after inv stage hip hic hc, ha]
    rfl
  · rintro ⟨c, hc, hb⟩
    rw [exec_producer_after inv stage hip hic hc] at hb
    obtain ⟨a, ha, rfl⟩ := mapNext_eq_next.1 hb
    refine ⟨a, ha, ?_⟩
    rw [exec_consumer_after inv stage hip hic ha, hc]
    rfl

end Sys2Proof.Machine
end

section
/-! PROOFS. Latency (70_reset_and_hazards R240, R241): a commit and a removal each move one pointer by one, and the pointer crosses
to the other domain in `S` steps of its synchroniser. Until then the other port sees the pointer as it was, so it can do nothing
that would move either count. -/

namespace Sys2Proof.Machine

/-! ## Runs and the turns of an agent -/

/-- Every step takes its agent off the schedule. -/
theorem step_sched (s t : State) (h : step s = .next t) : t.sched = s.sched.tail := by
  cases step_effect s t h with
  | idle hs => rw [hs, List.tail_nil]
  | noWord _ _ _ hs => rw [hs, List.tail_cons]
  | illegal _ _ _ hs => rw [hs, List.tail_cons, respond_sched, recordFault_sched, advance_sched]
  | command port a rest _ hs ha w i hw hd hx =>
    have hp := decode_port port w i hd
    rw [hs, List.tail_cons]
    cases port with
    | p => exact (exec_producer i _ t hp hx).sched_frame
    | c => exact (exec_consumer i _ t hp hx).sched_frame
  | syncW _ hs => rw [hs, List.tail_cons, syncW_sched]
  | syncR _ hs => rw [hs, List.tail_cons, syncR_sched]

/-- How many of the next `k` steps are steps of `a`. -/
def turnsOf (a : Agent) (k : Nat) (s : State) : Nat := ((s.sched.take k).filter (fun b => b = a)).length

theorem turnsOf_succ (a : Agent) (k : Nat) (s t : State) (h : step s = .next t) :
    turnsOf a (k + 1) s = (if s.sched.head? = some a then 1 else 0) + turnsOf a k t := by
  rw [turnsOf, turnsOf, step_sched s t h]
  cases s.sched with
  | nil => simp
  | cons b rest =>
    by_cases hb : b = a
    · simp [hb, Nat.add_comm]
    · simp [hb]

/-- What every step keeps, given the number of turns an agent has had, holds along a run. -/
theorem run_keeps_counting {P : Nat → State → Prop} {a : Agent}
    (keeps : ∀ n s t, P n s → step s = .next t → P (n + if s.sched.head? = some a then 1 else 0) t)
    {n : Nat} {s u : State} (k : Nat) (hP : P n s) (h : Host.Core.run core k s = .next u) : P (n + turnsOf a k s) u := by
  induction k generalizing n s with
  | zero => cases h; exact hP
  | succ k ih =>
    obtain ⟨t, hst, htu⟩ := run_succ s u k h
    rw [turnsOf_succ a k s t hst, ← Nat.add_assoc]
    exact ih (keeps n s t hP hst) htu

/-! ## A pointer on its way -/

/-- After `n` shifts of a new pointer into `m` old stages the old one shows while `n` is less than `m`. -/
theorem lastStage_shifted (ptr old : Ptr) (n m : Nat) :
    lastStage (shifted ptr n (List.replicate m old)) ptr = if n < m then old else ptr := by
  split
  · rename_i before
    have stages : shifted ptr n (List.replicate m old) = List.replicate n ptr ++ List.replicate (m - n) old := by
      rw [shifted_eq_take, List.length_replicate, List.take_append, List.length_replicate, List.take_replicate,
        List.take_replicate, Nat.min_eq_right before.le, Nat.min_eq_left (Nat.sub_le m n)]
    obtain ⟨j, hj⟩ : ∃ j, m - n = j + 1 := Nat.exists_eq_add_one.2 (Nat.sub_pos_of_lt before)
    rw [stages, hj, List.replicate_succ', ← List.append_assoc, lastStage, List.getLastD_concat]
  · rename_i after
    rw [shifted_of_le _ _ _ (by simpa using after)]
    exact lastStage_replicate _ _

/-- A synchroniser `a` carries the pointer of a count through the stages `chain` to the other domain. The count is at most `bound`,
which the other domain moves, and not before it sees a count that has reached it. -/
structure Crossing (a : Agent) (chain : State → List Ptr) (count bound : State → Nat) : Prop where
  shifts : ∀ {s t : State}, Invariant s → step s = .next t →
    chain t = if s.sched.head? = some a then shiftChain (chain s) (grayOf s.cfg.ptrW (count s)) else chain s
  grows : ∀ {s t : State}, Invariant s → step s = .next t → count s ≤ count t ∧ bound s ≤ bound t
  bounded : ∀ {s : State}, Invariant s → count s ≤ bound s
  unseen : ∀ {s t : State} {c : Nat}, Invariant s → step s = .next t → count s = c + 1 → bound s = c + 1 →
    lastStage (chain s) (grayOf s.cfg.ptrW (c + 1)) = grayOf s.cfg.ptrW c → bound t = bound s

/-- `n` steps of the synchroniser after the count rose from `c` to `c + 1`, its bound, in a build `b`. Before the pointer is
across, and after that while the bound stays, both are where they were and the stages hold `n` samples of the new pointer. -/
structure InFlight (chain : State → List Ptr) (count bound : State → Nat) (b : Config) (c n : Nat) (s : State) : Prop where
  inv : Invariant s
  build : s.cfg = b
  grown : c + 1 ≤ bound s
  stages : n < b.stages ∨ bound s = c + 1 → bound s = c + 1 ∧ count s = c + 1 ∧
    chain s = shifted (grayOf b.ptrW (c + 1)) n (List.replicate b.stages (grayOf b.ptrW c))

section Crossing

variable {a : Agent} {chain : State → List Ptr} {count bound : State → Nat} (x : Crossing a chain count bound)
  {b : Config} {c : Nat}

include x

/-- One step: before the pointer is across the other domain cannot move the bound, and at its bound the count cannot move. -/
theorem Crossing.step (n : Nat) (s t : State) (f : InFlight chain count bound b c n s) (hst : step s = .next t) :
    InFlight chain count bound b c (n + if s.sched.head? = some a then 1 else 0) t := by
  obtain ⟨inv, rfl, grown, stages⟩ := f
  have invt := invariantKept s t inv hst
  obtain ⟨more, higher⟩ := x.grows inv hst
  refine ⟨invt, (singleWriter s t hst).1, grown.trans higher, fun h => ?_⟩
  obtain ⟨atBound, raised, hchain⟩ := stages (by omega)
  have stays : bound t = c + 1 := by
    rcases h with before | same
    · have old : lastStage (chain s) (grayOf s.cfg.ptrW (c + 1)) = grayOf s.cfg.ptrW c := by
        rw [hchain, lastStage_shifted, if_pos (by omega)]
      exact (x.unseen inv hst raised atBound old).trans atBound
    · exact same
  have below := x.bounded invt
  refine ⟨stays, by omega, ?_⟩
  rw [x.shifts inv hst, raised, hchain]
  split
  · exact (shifted_succ _ _ _).symm
  · rfl

/-- What the other domain sees of a count that has just reached its bound, after any further steps. -/
theorem Crossing.latency {t u : State} (inv : Invariant t) (raised : count t = c + 1) (atBound : bound t = c + 1)
    (old : ∀ y ∈ chain t, y = grayOf t.cfg.ptrW c) (depth : (chain t).length = t.cfg.stages) (k : Nat)
    (hrun : Host.Core.run core k t = .next u) :
    (turnsOf a k t < t.cfg.stages → bound u = c + 1 ∧ count u = c + 1 ∧
      lastStage (chain u) (grayOf u.cfg.ptrW (c + 1)) = grayOf u.cfg.ptrW c) ∧
    (t.cfg.stages ≤ turnsOf a k t → bound u = bound t → bound u = c + 1 ∧ count u = c + 1 ∧
      lastStage (chain u) (grayOf u.cfg.ptrW (c + 1)) = grayOf u.cfg.ptrW (c + 1)) := by
  have start : InFlight chain count bound t.cfg c 0 t :=
    ⟨inv, rfl, atBound.ge, fun _ => ⟨atBound, raised, List.eq_replicate_iff.2 ⟨depth, old⟩⟩⟩
  obtain ⟨-, build, -, stages⟩ := run_keeps_counting (a := a) x.step k start hrun
  rw [Nat.zero_add] at stages
  constructor
  · intro before
    obtain ⟨atBoundu, raisedu, hchain⟩ := stages (.inl before)
    exact ⟨atBoundu, raisedu, by rw [hchain, build, lastStage_shifted, if_pos before]⟩
  · intro after stays
    obtain ⟨atBoundu, raisedu, hchain⟩ := stages (.inr (stays.trans atBound))
    exact ⟨atBoundu, raisedu, by rw [hchain, build, lastStage_shifted, if_neg (Nat.not_lt.2 after)]⟩

end Crossing

/-! ## The two crossings -/

theorem step_wq (s t : State) (hst : step s = .next t) :
    t.wq = if s.sched.head? = some .syncW then shiftChain s.wq s.wptr else s.wq := by
  split
  · rename_i turn
    obtain ⟨rest, hs⟩ := List.head?_eq_some_iff.1 turn
    cases (step_of_sched s .syncW rest hs).symm.trans hst
    rfl
  · rename_i other
    obtain ⟨-, -, -, wq, -⟩ := singleWriter s t hst
    exact wq other

theorem step_rq (s t : State) (hst : step s = .next t) :
    t.rq = if s.sched.head? = some .syncR then shiftChain s.rq s.rptr else s.rq := by
  split
  · rename_i turn
    obtain ⟨rest, hs⟩ := List.head?_eq_some_iff.1 turn
    cases (step_of_sched s .syncR rest hs).symm.trans hst
    rfl
  · rename_i other
    obtain ⟨-, -, -, -, rq⟩ := singleWriter s t hst
    exact rq other

/-- Neither count ever falls. -/
theorem Invariant.counts_grow {s t : State} (inv : Invariant s) (hst : step s = .next t) : wc s ≤ wc t ∧ rc s ≤ rc t := by
  refine ⟨((step_effect s t hst).producerMove inv.wf.hostP).wc_le inv.wf.hostP, ?_⟩
  rcases step_removal s t hst inv.wf.hostC with ⟨-, same⟩ | removed <;> omega

/-- Where port C sees no unit it has no transaction open, so it removes none. -/
theorem Invariant.rc_of_emptyC {s t : State} (inv : Invariant s) (hst : step s = .next t) (he : emptyC s = true) :
    rc t = rc s := by
  have closed : s.cAct = false := by
    by_contra opened
    obtain ⟨-, -, -, data, -⟩ := inv.consuming (.inr (by simpa using opened))
    exact absurd he (by simp [data])
  cases (step_effect s t hst).consumerMove inv.wf.hostC with
  | stays m => rw [rc, m.view, ← rc]
  | opened _ _ data => exact absurd he (by simp [data])
  | read _ _ opened => exact absurd opened (by simp [closed])
  | kept _ _ view => rw [rc, view, ← rc]
  | removed opened => exact absurd opened (by simp [closed])

/-- Where port P sees the slot full it has no transaction open, so it commits nothing. -/
theorem Invariant.wc_of_fullP {s t : State} (inv : Invariant s) (hst : step s = .next t) (hf : fullP s = true) :
    wc t = wc s := by
  have closed : s.pAct = false := by
    by_contra opened
    exact absurd hf (by simp [inv.free (by simpa using opened)])
  rw [wc, (step_producerStays_of_full s t hst closed hf).view inv.wf.hostP, ← wc]

/-- Port C sees no unit while it sees the pointer of the count of removals. -/
theorem Invariant.emptyC_of_view {s : State} (inv : Invariant s) (view : wsync s = grayOf s.cfg.ptrW (rc s)) :
    emptyC s = true :=
  emptyC_of_wsync_eq s (view.trans inv.rptr_eq.symm)

/-- Port P sees the slot full while it sees the pointer of one less than the count of commits. -/
theorem Invariant.fullP_of_view {s : State} {c : Nat} (inv : Invariant s) (commits : wc s = c + 1)
    (view : rsync s = grayOf s.cfg.ptrW c) : fullP s = true := by
  obtain ⟨-, -, h1, h8, -⟩ := inv.wf.cfg
  rw [fullP_eq, view, inv.wptr_eq, commits, ptrDiff_window _ _ _ h1 h8 (Nat.le_succ c) le_rfl, if_neg (Nat.succ_ne_self c)]
  rfl

/-- SyncW carries the count of commits, which is at most one past the removals. -/
theorem crossing_commits : Crossing .syncW State.wq wc (fun s => rc s + 1) where
  shifts inv hst := by rw [step_wq _ _ hst, inv.wptr_eq]
  grows inv hst := (inv.counts_grow hst).imp_right Nat.succ_le_succ
  bounded inv := inv.window.2
  unseen inv hst raised atBound old := by
    obtain rfl := Nat.succ.inj atBound
    refine congrArg Nat.succ (inv.rc_of_emptyC hst (inv.emptyC_of_view ?_))
    rw [wsync, inv.wptr_eq, raised, old]

/-- SyncR carries the count of removals, which is at most the commits. -/
theorem crossing_removals : Crossing .syncR State.rq rc wc where
  shifts inv hst := by rw [step_rq _ _ hst, inv.rptr_eq]
  grows inv hst := (inv.counts_grow hst).symm
  bounded inv := inv.window.1
  unseen inv hst raised atBound old := by
    refine inv.wc_of_fullP hst (inv.fullP_of_view atBound ?_)
    rw [rsync, inv.rptr_eq, raised, old]

/-! ## The commit and the removal -/

/-- An open transaction on either port comes with every stage at its pointer (43_cdc_sync R191). -/
theorem Invariant.settled_of_open {s : State} (inv : Invariant s) (opened : s.pAct = true ∨ s.cAct = true) : Settled s := by
  rcases opened with producing | consuming
  · obtain ⟨wqc, rqc, counts⟩ := inv.counts
    obtain ⟨hr, hrw, hw, -⟩ := counts.views
    have noUnit := counts.pAct producing
    exact counts.settled (by omega) (by omega)
  · obtain ⟨-, -, -, -, settled⟩ := inv.consuming (.inr consuming)
    exact settled

/-- The step of a P_COMMIT in an open transaction adds one commit. -/
theorem Invariant.step_commit {s t : State} {rest : List Agent} {llid : BitVec 2} (inv : Invariant s)
    (hs : s.sched = .portP :: rest) (hw : presented .p s = some (encode (.pCommit llid))) (h0 : s.pFault = 0#3)
    (ha : s.pAct = true) (hst : step s = .next t) : wc t = wc s + 1 := by
  have taken : TakesCommand .p s (.pCommit llid) (advance .p { s with sched := rest }) :=
    ⟨rest, _, hw, decode_encode (.pCommit llid), rfl⟩
  have hx := (step_of_decoded .p .portP (fun _ => rfl) s rest _ _ hs hw (decode_encode (.pCommit llid))).symm.trans hst
  cases (exec_pCommit_of_free llid (advance .p { s with sched := rest }) h0 ha (taken.fullP.trans (inv.free ha))).symm.trans hx
  have view := taken.producerView inv.wf.hostP .ok 0#8 s.wcnt
  rw [respWord_ok_lo] at view
  exact (congrArg (fun v => v.committed.length) view).trans List.length_append

/-- The step of a C_RELEASE 1 in an open transaction adds one removal. -/
theorem Invariant.step_release {s t : State} {rest : List Agent} (inv : Invariant s) (hs : s.sched = .portC :: rest)
    (hw : presented .c s = some (encode (.cRelease true))) (h0 : s.cFault = 0#3) (ha : s.cAct = true)
    (hst : step s = .next t) : rc t = rc s + 1 := by
  have taken : TakesCommand .c s (.cRelease true) (advance .c { s with sched := rest }) :=
    ⟨rest, _, hw, decode_encode (.cRelease true), rfl⟩
  obtain ⟨-, -, -, data, -⟩ := inv.consuming (.inr ha)
  have hx := (step_of_decoded .c .portC (fun _ => rfl) s rest _ _ hs hw (decode_encode (.cRelease true))).symm.trans hst
  cases (exec_cRelease_of_data (advance .c { s with sched := rest }) h0 ha (taken.emptyC.trans data)).symm.trans hx
  exact congrArg ConsumerView.removed (taken.consumerView inv.wf.hostC .ok 0#8 1#8)

/-- Settles O56: the commit puts the count of commits one past every stage of `WQ`, and `EMPTY_C` compares what port C then sees
of it with the removals. -/
theorem commitLatency : Obligations.CommitLatency := by
  unfold Obligations.CommitLatency
  intro s t rest llid inv hs hw h0 ha hst k u hrun
  have commits : wc t = wc s + 1 := inv.step_commit hs hw h0 ha hst
  obtain ⟨noUnit, -⟩ := inv.producing ha
  obtain ⟨settled, -⟩ := inv.settled_of_open (.inl ha)
  obtain ⟨cfg, -, host, wq, -⟩ := singleWriter s t hst
  have invt := invariantKept s t inv hst
  have removals : rc t = wc s := by
    obtain ⟨-, -, -, -, hostC⟩ := host (by simp [hs])
    rw [rc, hostC, ← rc, noUnit]
  have old : ∀ y ∈ t.wq, y = grayOf t.cfg.ptrW (wc s) := by
    rw [wq (by simp [hs]), cfg, ← inv.wptr_eq]
    exact settled
  have invu := invt.run k hrun
  obtain ⟨early, late⟩ := crossing_commits.latency invt commits (by rw [removals]) old invt.wf.wqLength k hrun
  rw [cfg] at early late
  constructor
  · intro before
    obtain ⟨atBound, raised, view⟩ := early before
    refine invu.emptyC_of_view ?_
    rw [wsync, invu.wptr_eq, raised, view, Nat.succ.inj atBound]
  · intro after kept
    obtain ⟨atBound, raised, view⟩ := late after (congrArg Nat.succ kept)
    have now : wsync u = u.wptr := by rw [wsync, invu.wptr_eq, raised, view]
    rw [← Bool.not_eq_true, invu.emptyC_iff_of_view now]
    omega

/-- Settles O57: the removal puts the count of removals one past every stage of `RQ`, and `FULL_P` compares what port P then sees
of it with the commits. -/
theorem releaseLatency : Obligations.ReleaseLatency := by
  unfold Obligations.ReleaseLatency
  intro s t rest inv hs hw h0 ha hst k u hrun
  have removals : rc t = rc s + 1 := inv.step_release hs hw h0 ha hst
  obtain ⟨one, -⟩ := inv.consuming (.inr ha)
  obtain ⟨-, settled⟩ := inv.settled_of_open (.inr ha)
  obtain ⟨cfg, host, -, -, rq⟩ := singleWriter s t hst
  have invt := invariantKept s t inv hst
  have commits : wc t = rc s + 1 := by
    obtain ⟨-, -, -, -, -, hostP⟩ := host (by simp [hs])
    rw [wc, hostP, ← wc, one]
  have old : ∀ y ∈ t.rq, y = grayOf t.cfg.ptrW (rc s) := by
    rw [rq (by simp [hs]), cfg, ← inv.rptr_eq]
    exact settled
  have invu := invt.run k hrun
  obtain ⟨early, late⟩ := crossing_removals.latency invt removals commits old invt.wf.rqLength k hrun
  rw [cfg] at early late
  constructor
  · intro before
    obtain ⟨atBound, raised, view⟩ := early before
    refine invu.fullP_of_view atBound ?_
    rw [rsync, invu.rptr_eq, raised, view]
  · intro after kept
    obtain ⟨atBound, raised, view⟩ := late after kept
    have now : rsync u = u.rptr := by rw [rsync, invu.rptr_eq, raised, view]
    rw [← Bool.not_eq_true, invu.fullP_iff_of_view now]
    omega

end Sys2Proof.Machine
end

section
/-! PROOFS. The states no agent leads out of: a slot whose length no C_PEEK accepts (70_reset_and_hazards R243), and an end of run
(R250). -/

namespace Sys2Proof.Machine

/-! ## A malformed slot -/

theorem Wedged.visible {s : State} (w : Wedged s) : Visible s := ⟨w.full, w.data, w.settled, w.pAct⟩

/-- A producer command that wants a transaction open completes where none is, with the fault `PROTOCOL`. -/
theorem completes_of_closed {s : State} (body : Result) (ha : s.pAct = false) :
    Completes (unlessFaulted .p s (if !s.pAct then raiseFault .p .protocol s else body)) :=
  .unlessFaulted .p (.ite (fun _ => .next _) (fun opened => by simp [ha] at opened))

/-- With no transaction open a producer command completes whatever `WCNT` holds: only P_WRITE addresses the slot by it. -/
theorem exec_producer_completes_of_closed (i : Instr) (s : State) (hp : i.port = .p) (ha : s.pAct = false) :
    Completes (exec i s) := by
  cases i with
  | pFree => exact .unlessFaulted .p (.ite (fun _ => .next _) (fun _ => .next _))
  | pBegin n =>
    exact .unlessFaulted .p (.ite (fun _ => .next _) (fun _ => .ite (fun _ => .next _) (fun _ =>
      .ite (fun _ => .next _) (fun _ => .next _))))
  | pWrite b => exact completes_of_closed _ ha
  | pSpace => exact completes_of_closed _ ha
  | pCommit llid => exact completes_of_closed _ ha
  | pCancel => exact completes_of_closed _ ha
  | pStat => exact .next _
  | cHasdata => cases hp
  | cPeek => cases hp
  | cRead _ => cases hp
  | cRelease _ => cases hp
  | cStat => cases hp

/-- Both header bytes hold values, and no payload byte can be read. -/
theorem Wedged.readable {s : State} (w : Wedged s) : Readable s where
  header _ := by
    obtain ⟨b0, g0⟩ := w.tag
    obtain ⟨b1, g1, -⟩ := w.length
    exact ⟨b0, b1, g0, g1⟩
  payload opened := by simp [w.cAct] at opened

theorem Wedged.step_completes {s : State} (w : Wedged s) : Completes (step s) := by
  refine Machine.step_completes s fun port i u hc => ?_
  have readable := w.readable.taken hc
  obtain ⟨rest, word, -, hd, rfl⟩ := hc
  have hp := decode_port port word i hd
  cases port with
  | p => exact exec_producer_completes_of_closed i _ hp (by simp [w.pAct])
  | c => exact exec_consumer_completes i _ hp readable

/-- No transaction can be opened on a header whose length exceeds `MAX_PAYLOAD` (42_consumer R152). -/
def Unopenable (s : State) : Prop := s.cAct = false ∧ ∀ b, memGet s.slot 1 = some b → s.cfg.maxPayload < b.toNat

/-- With no transaction open and none to be opened a consumer command leaves `RPTR` and `C_ACT`. -/
theorem ConsumerEffect.stays_of_unopenable {s t : State} {i : Instr} (e : ConsumerEffect s i t) (h : Unopenable s) :
    t.rptr = s.rptr ∧ t.cAct = s.cAct := by
  obtain ⟨closed, tooLong⟩ := h
  cases e with
  | faulted => simp
  | opened _ _ _ _ b1 _ g1 fits => exact absurd (tooLong b1 g1) (Nat.not_lt.2 fits)
  | removed _ opened => simp [closed] at opened
  | kept _ opened => simp [closed] at opened
  | _ => exact ⟨rfl, rfl⟩

theorem step_stays_of_unopenable (s t : State) (hst : step s = .next t) (h : Unopenable s) :
    t.rptr = s.rptr ∧ t.cAct = s.cAct := by
  cases step_effect s t hst with
  | illegal => simp
  | command port a rest _ hs ha w i hw hd hx =>
    have hp := decode_port port w i hd
    cases port with
    | p =>
      obtain ⟨-, ⟨rptr, -, cAct, -⟩, -, -⟩ := (exec_producer i _ t hp hx).keeps
      exact ⟨rptr, cAct⟩
    | c => exact (exec_consumer i _ t hp hx).stays_of_unopenable h
  | _ => exact ⟨rfl, rfl⟩

theorem Wedged.unopenable {s : State} (w : Wedged s) : Unopenable s := by
  obtain ⟨b1, g1, tooLong⟩ := w.length
  refine ⟨w.cAct, fun b g => ?_⟩
  rwa [← Option.some.inj (g1.symm.trans g)]

/-- Neither port can act on the slot: port C opens no transaction on it and port P sees it full. -/
theorem Wedged.step {s t : State} (w : Wedged s) (hst : Machine.step s = .next t) : Wedged t ∧ t.slot = s.slot := by
  obtain ⟨rptr, cAct⟩ := step_stays_of_unopenable s t hst w.unopenable
  obtain ⟨⟨full, data, settled, pAct⟩, stays⟩ := w.visible.step hst rptr
  have cfg : t.cfg = s.cfg := (singleWriter s t hst).1
  refine ⟨⟨full, data, settled, pAct, cAct.trans w.cAct, ?_, ?_⟩, stays.slot⟩
  · rw [stays.slot]
    exact w.tag
  · rw [stays.slot, cfg]
    exact w.length

/-- Settles O59: `Wedged.step_completes` and `Wedged.step`, and the two answers by the length and by `FULL_P`. -/
theorem malformedStays : Obligations.MalformedStays := by
  unfold Obligations.MalformedStays
  intro s w
  refine ⟨?_, fun h0 => ?_, fun h0 => ?_⟩
  · obtain ⟨t, hst⟩ := w.step_completes
    exact ⟨t, hst, w.step hst⟩
  · obtain ⟨b0, g0⟩ := w.tag
    obtain ⟨b1, g1, tooLong⟩ := w.length
    rw [exec_cPeek_of_header s b0 b1 h0 w.cAct w.data g0 g1, if_pos tooLong]
  · rw [exec, execPFree, unlessFaulted_of .p s _ h0, if_pos w.full]
    rfl

/-! ## An end of run -/

/-- An exhausted stream presents nothing to either port (log 5). -/
theorem EndOfRun.presented {s : State} (h : EndOfRun s) (port : Port) : presented port s = none := by
  obtain ⟨hostP, hostC, -⟩ := h
  cases port with
  | p => exact List.getElem?_eq_none hostP
  | c => exact List.getElem?_eq_none hostC

/-- Each agent's turn takes it off the schedule and does nothing else: a port has no word and a synchroniser nothing to shift in. -/
theorem EndOfRun.step {s t : State} (h : EndOfRun s) (hst : Machine.step s = .next t) :
    t = { s with sched := s.sched.tail } := by
  have silent := h.presented
  obtain ⟨-, -, wq, rq⟩ := h
  cases step_effect s t hst with
  | idle hs => rw [hs, List.tail_nil, ← hs]
  | noWord _ _ _ hs => rw [hs, List.tail_cons]
  | illegal port _ _ _ _ _ _ hw => exact absurd (hw.symm.trans (silent port)) nofun
  | command port _ _ _ _ _ _ _ hw => exact absurd (hw.symm.trans (silent port)) nofun
  | syncW _ hs => rw [syncW, (shiftChain_eq_self s.wq s.wptr).2 wq, hs, List.tail_cons]
  | syncR _ hs => rw [syncR, (shiftChain_eq_self s.rq s.rptr).2 rq, hs, List.tail_cons]

/-- Settles O60: neither an end of run nor a good one reads the schedule. -/
theorem endOfRunStays : Obligations.EndOfRunStays := by
  unfold Obligations.EndOfRunStays
  intro s t h hst
  obtain rfl := h.step hst
  exact ⟨rfl, h, id⟩

end Sys2Proof.Machine
end

section
/-! PROOFS. The model's own choices around a step: a placed word runs next (log 9), and a turn with nothing to do only leaves the
schedule (logs 4 and 5). -/

namespace Sys2Proof.Machine

/-! ## A placed word -/

/-- A row's word decodes to what the decoder of the word's own port reads from its 16 bits. -/
theorem decode_of_decodeTableWord (w : Nat) (i : Instr) (h : decodeTableWord 16 w = some i) :
    decode (wordPort (BitVec.ofNat 16 (w % 2 ^ 16))) (BitVec.ofNat 16 (w % 2 ^ 16)) = .ok i := by
  unfold decodeTableWord at h
  dsimp only at h
  split at h
  · next j hd =>
    obtain rfl := Option.some.inj h
    exact hd
  · cases h

/-- The state a placed word's command runs on: `s` with the word among its host's words and the index past it. -/
def pastPlaced (port : Port) (w : Word) (s : State) : State := advance port { present port w s with sched := s.sched }

/-- Placing a word and taking it is the host's affair: it leaves every register of the block and the storage. -/
theorem sameBlock_pastPlaced (port : Port) (w : Word) (s : State) : SameBlock s (pastPlaced port w s) := by
  cases port with
  | p => exact ⟨⟨rfl, rfl, rfl, rfl, rfl⟩, ⟨rfl, rfl, rfl, rfl, rfl⟩, rfl⟩
  | c => exact ⟨⟨rfl, rfl, rfl, rfl, rfl⟩, ⟨rfl, rfl, rfl, rfl, rfl⟩, rfl⟩

@[simp] theorem pastPlaced_cfg (port : Port) (w : Word) (s : State) : (pastPlaced port w s).cfg = s.cfg := by
  cases port <;> rfl

@[simp] theorem pastPlaced_rspsP (port : Port) (w : Word) (s : State) : (pastPlaced port w s).hostP.rsps = s.hostP.rsps := by
  cases port <;> rfl

@[simp] theorem pastPlaced_rspsC (port : Port) (w : Word) (s : State) : (pastPlaced port w s).hostC.rsps = s.hostC.rsps := by
  cases port <;> rfl

/-- The port a word is placed at is next in the schedule and finds that word presented. -/
theorem step_present (port : Port) (w : Word) (s : State) (i : Instr) (hd : decode port w = .ok i) :
    step (present port w s) = exec i (pastPlaced port w s) := by
  have hw : presented port (present port w s) = some w := presented_present port w s
  cases port with
  | p => exact step_of_decoded .p .portP (fun _ => rfl) _ s.sched w i rfl hw hd
  | c => exact step_of_decoded .c .portC (fun _ => rfl) _ s.sched w i rfl hw hd

/-- Settles O11: the word is placed at its own port, and the command runs on `pastPlaced`. -/
theorem placedWordRuns : Obligations.PlacedWordRuns := by
  unfold Obligations.PlacedWordRuns
  intro s w i h
  exact ⟨pastPlaced _ _ s, step_present _ _ s i (decode_of_decodeTableWord w i h), sameBlock_pastPlaced _ _ s,
    pastPlaced_cfg _ _ s, pastPlaced_rspsP _ _ s, pastPlaced_rspsC _ _ s⟩

/-! ## A turn with nothing to do -/

/-- Log 4. -/
theorem step_of_unscheduled (s : State) (h : s.sched = []) : step s = .next s := by
  simp only [step, scheduledTurn, h]

/-- Log 5. -/
theorem portTurn_of_unpresented (port : Port) (s : State) (h : presented port s = none) : portTurn port s = .next s := by
  simp only [portTurn, h]

/-- The step of an agent `a` that is a port's (`ha`), where its host presents no word: the agent leaves the schedule. -/
theorem step_of_unpresented (port : Port) (a : Agent) (ha : ∀ t, agentTurn a t = portTurn port t) (s : State) (rest : List Agent)
    (hs : s.sched = a :: rest) (hn : presented port s = none) : step s = .next { s with sched := rest } := by
  have hpres : presented port { s with sched := rest } = none := (presented_sched port s rest).trans hn
  rw [step_of_sched s a rest hs, ha, portTurn_of_unpresented port _ hpres]

theorem syncW_of_noStage (s : State) (h : s.wq = []) : syncW s = s := by
  rw [syncW, h, shiftChain_nil, ← h]

theorem syncR_of_noStage (s : State) (h : s.rq = []) : syncR s = s := by
  rw [syncR, h, shiftChain_nil, ← h]

/-- Settles O10: nothing scheduled, then each agent's turn with no word to take or no stage to shift. -/
theorem idleTurns : Obligations.IdleTurns := by
  unfold Obligations.IdleTurns
  refine ⟨step_of_unscheduled, fun s rest hs hn => ?portP, fun s rest hs hn => ?portC, fun s rest hs hq => ?syncW,
    fun s rest hs hq => ?syncR⟩
  case portP => exact step_of_unpresented .p .portP (fun _ => rfl) s rest hs hn
  case portC => exact step_of_unpresented .c .portC (fun _ => rfl) s rest hs hn
  case syncW =>
    have still : syncW { s with sched := rest } = { s with sched := rest } := syncW_of_noStage _ hq
    exact (step_of_sched s .syncW rest hs).trans (congrArg Host.Outcome.next still)
  case syncR =>
    have still : syncR { s with sched := rest } = { s with sched := rest } := syncR_of_noStage _ hq
    exact (step_of_sched s .syncR rest hs).trans (congrArg Host.Outcome.next still)

end Sys2Proof.Machine
end
